-- ==== Sys2Proof/Word.lean ====
section
/-! DEFINITION. The plain types of the block: 32-bit words, bytes, nibbles and byte sequences
(00_scope.md R7 REG_W, R8, R10). -/

namespace Sys2Proof

/-- A scalar register's contents (00_scope.md R7: REG_W = 32). -/
abbrev Word := BitVec 32

/-- A byte, 0 to 255 (R10). -/
abbrev Byte := BitVec 8

/-- A 4-bit nibble (glossary; 41_varint.md). -/
abbrev Nibble := BitVec 4

/-- A byte sequence (R10). -/
abbrev Bytes := List Byte

end Sys2Proof
end

