-- ==== Sys2Proof/Config.lean ====
section
/-! DEFINITION. What an implementation fixes: the limits and the OPEN parameters of 00_scope.md R7.
There are no free values: 93_implementation_defined.md leaves nothing "any value". -/

namespace Sys2Proof

/-- The host-visible entries by name, the rows of 10_state.md R23. -/
inductive EntryName where
  | cmd | status | errPos | input | inLen | out | outLen | arg | num | prev | res | consumed
  | cls | detail | ver | typ | code | mid | token | opts | payload
  deriving DecidableEq, Repr

/-- MAX_TKL: the largest token length (R7). -/
@[simp] abbrev Config.maxTkl : Nat := 8

/-- MAX_RAW: the largest value of the nibble-plus-extension code (R7), 65535 + 269. -/
@[simp] abbrev Config.maxRaw : Nat := 65804

/-- MAX_VLEN: the largest option value length (R7). -/
@[simp] abbrev Config.maxVlen : Nat := 65804

/-- The largest option number plus one: NUM_W = 32 (R7; 42_option.md R127). -/
@[simp] abbrev Config.numBound : Nat := 4294967296

/-- The OPEN capacities of an instance of the block (R7, D20); `none` is unbounded. -/
structure Config.Capacity where
  /-- MAX_BUF, the capacity in bytes of each byte-sequence store. -/
  maxBuf : Option Nat
  /-- MAX_OPTS, the capacity in entries of the option list. -/
  maxOpts : Option Nat
  deriving DecidableEq, Repr

/-- The reference instance: both capacities unbounded (R7). -/
def Config.reference : Config.Capacity := ⟨none, none⟩

/-- BUS_MAP, the host bus addresses of the entries: OPEN, and no rule depends on it
(R7, 20_memory.md R60, D22). DESIGN CHOICE, safe (log 6): an uninterpreted constant nothing reads. -/
opaque Config.busMap : EntryName → Nat

end Sys2Proof
end

