-- ==== Sys2Proof/Syntax.lean ====
section
/-! DEFINITION. The rows of spec/opcode_table.json, one constructor each: the eleven commands and the
reserved command words (30_encoding.md R71-R73), the elements of the wire grammar (R75-R84) and the
nibble code (R80). Fields are the bits a row leaves free. -/

namespace Sys2Proof

/-- One row of the opcode table with its fields. -/
inductive Instr where
  /-- NIB_ENC, 0x01 (41_varint.md R104). -/
  | nibEnc
  /-- NIB_DEC, 0x02 (R105). -/
  | nibDec
  /-- OPT_ENC, 0x03 (42_option.md R128). -/
  | optEnc
  /-- OPT_DEC, 0x04 (R129). -/
  | optDec
  /-- HDR_ENC, 0x05 (43_header.md R144). -/
  | hdrEnc
  /-- HDR_DEC, 0x06 (R145). -/
  | hdrDec
  /-- MSG_ENC, 0x07 (44_message.md R166). -/
  | msgEnc
  /-- MSG_DEC, 0x08 (R168). -/
  | msgDec
  /-- CODE_SPLIT, 0x09 (45_code.md R191). -/
  | codeSplit
  /-- CODE_SET_CLASS, 0x0A (R192). -/
  | codeSetClass
  /-- CODE_SET_DETAIL, 0x0B (R193). -/
  | codeSetDetail
  /-- A command word whose bits 31:8 are not all 0 (R73). -/
  | reservedRsv (rsv : BitVec 24) (opc : BitVec 8)
  /-- RSV = 0, OPC = 0x00 (R73). -/
  | reservedOpc00
  /-- RSV = 0, OPC = 0x0C to 0x0F: bits 1:0 (R73). -/
  | reservedOpc0C0F (o : BitVec 2)
  /-- RSV = 0, OPC = 0x10 to 0x1F: bits 3:0 (R73). -/
  | reservedOpc101F (o : BitVec 4)
  /-- RSV = 0, OPC = 0x20 to 0x3F: bits 4:0 (R73). -/
  | reservedOpc203F (o : BitVec 5)
  /-- RSV = 0, OPC = 0x40 to 0x7F: bits 5:0 (R73). -/
  | reservedOpc407F (o : BitVec 6)
  /-- RSV = 0, OPC = 0x80 to 0xFF: bits 6:0 (R73). -/
  | reservedOpc80FF (o : BitVec 7)
  /-- Header byte 0: version, type, token length 0 to 8 (R75). -/
  | wireHdrByte0 (v t : BitVec 2) (k : BitVec 4)
  /-- Header byte 0 with token length 9 (43_header.md R143). -/
  | wireHdrTklRsvd9 (v t : BitVec 2)
  /-- Header byte 0 with token length 10 or 11: bit 0 of it (R143). -/
  | wireHdrTklRsvd1011 (v t : BitVec 2) (k : BitVec 1)
  /-- Header byte 0 with token length 12 to 15: bits 1:0 of it (R143). -/
  | wireHdrTklRsvd1215 (v t : BitVec 2) (k : BitVec 2)
  /-- Header byte 1: code class and detail (R76). -/
  | wireHdrCode (c : BitVec 3) (d : BitVec 5)
  /-- Header bytes 2 and 3: the message ID, big-endian (R77). -/
  | wireHdrMid (m : BitVec 16)
  /-- The payload marker 0xFF at an option start (R82; 44_message.md R162). -/
  | wireMarker
  /-- An option's first byte with delta nibble 15 (42_option.md R123). -/
  | wireOptDnib15 (l : BitVec 4)
  /-- An option's first byte with length nibble 15 and delta nibble 0 to 14 (R123). -/
  | wireOptLnib15 (d : BitVec 4)
  /-- An option's first byte: delta nibble and length nibble, each 0 to 14 (R79, R122). -/
  | wireOpt (d l : BitVec 4)
  /-- A nibble 0 to 12, the raw value itself (R80, R102). -/
  | nibbleDirect (n : BitVec 4)
  /-- The nibble 13, one extension byte (R80, R102). -/
  | nibbleExt1
  /-- The nibble 14, two extension bytes (R80, R102). -/
  | nibbleExt2
  /-- The nibble 15, illegal (R80, R100). -/
  | nibbleRsvd
  deriving DecidableEq, Repr

end Sys2Proof
end

