-- ==== Sys2Proof/WellFormed.lean ====
section
/-! DEFINITION. When a term of Instr is a row of the opcode table: the row conditions that the
fields' widths do not already force. -/

namespace Sys2Proof

/-- The row's own condition on its fields (the "condition" and range notes of spec/opcode_table.json). -/
def Instr.wellFormed : Instr → Bool
  | .nibEnc | .nibDec | .optEnc | .optDec | .hdrEnc | .hdrDec | .msgEnc | .msgDec => true
  | .codeSplit | .codeSetClass | .codeSetDetail => true
  | .reservedRsv rsv _ => rsv != 0
  | .reservedOpc00 => true
  | .reservedOpc0C0F _ => true
  | .reservedOpc101F _ => true
  | .reservedOpc203F _ => true
  | .reservedOpc407F _ => true
  | .reservedOpc80FF _ => true
  | .wireHdrByte0 _ _ k => decide (k.toNat ≤ 8)
  | .wireHdrTklRsvd9 _ _ => true
  | .wireHdrTklRsvd1011 _ _ _ => true
  | .wireHdrTklRsvd1215 _ _ _ => true
  | .wireHdrCode _ _ => true
  | .wireHdrMid _ => true
  | .wireMarker => true
  | .wireOptDnib15 _ => true
  | .wireOptLnib15 d => d != 15
  | .wireOpt d l => d != 15 && l != 15
  | .nibbleDirect n => decide (n.toNat ≤ 12)
  | .nibbleExt1 | .nibbleExt2 | .nibbleRsvd => true

end Sys2Proof
end

