-- ==== Sys2Proof/Decode.lean ====
section
/-! DEFINITION. The decoders and the encoder of 30_encoding.md. A command word is decoded by itself
(R71-R73); a wire element is decoded by its position (R83): the same byte is a header field, an
option's first byte or the marker according to where it stands. Every decoder is total. -/

namespace Sys2Proof

/-- Where a unit of code stands (R70, R83). -/
inductive Position where
  /-- The word written to CMD (R71). -/
  | cmd
  /-- Header byte 0, IN offset 0 (R75). -/
  | hdr0
  /-- Header byte 1 (R76). -/
  | hdrCode
  /-- Header bytes 2 and 3 (R77). -/
  | hdrMid
  /-- An option start of MSG_DEC, where 0xFF is the marker (R82, R83). -/
  | seqStart
  /-- The first byte OPT_DEC reads, where 0xFF is no marker (42_option.md R123). -/
  | optStart
  /-- A nibble standing alone: NIB_DEC's ARG (41_varint.md R105). -/
  | nibble
  deriving DecidableEq, Repr

/-- A unit of code in the width its format gives it. -/
inductive CodeUnit where
  | word (w : BitVec 32)
  | byte (b : BitVec 8)
  | half (h : BitVec 16)
  | nibble (n : BitVec 4)
  deriving DecidableEq, Repr

/-- Why `decode` rejects a unit. -/
inductive DecodeError where
  /-- The unit has another width than the one its position reads. -/
  | wrongWidth (p : Position)
  deriving DecidableEq, Repr

/-- The command opcode table (R72) and the reserved opcodes (R73), for RSV = 0. -/
def decodeOpc (o : BitVec 8) : Instr :=
  if o = 0x00 then .reservedOpc00
  else if o = 0x01 then .nibEnc
  else if o = 0x02 then .nibDec
  else if o = 0x03 then .optEnc
  else if o = 0x04 then .optDec
  else if o = 0x05 then .hdrEnc
  else if o = 0x06 then .hdrDec
  else if o = 0x07 then .msgEnc
  else if o = 0x08 then .msgDec
  else if o = 0x09 then .codeSplit
  else if o = 0x0A then .codeSetClass
  else if o = 0x0B then .codeSetDetail
  else if o.toNat < 0x10 then .reservedOpc0C0F (o.extractLsb' 0 2)
  else if o.toNat < 0x20 then .reservedOpc101F (o.extractLsb' 0 4)
  else if o.toNat < 0x40 then .reservedOpc203F (o.extractLsb' 0 5)
  else if o.toNat < 0x80 then .reservedOpc407F (o.extractLsb' 0 6)
  else .reservedOpc80FF (o.extractLsb' 0 7)

/-- A command word (R71): RSV 31:8 is tested before OPC 7:0 (R73). -/
def decodeCmd (w : BitVec 32) : Instr :=
  if w.extractLsb' 8 24 = 0 then decodeOpc (w.extractLsb' 0 8)
  else .reservedRsv (w.extractLsb' 8 24) (w.extractLsb' 0 8)

/-- Header byte 0 (R75): version 7:6, type 5:4, token length 3:0; 9 to 15 are reserved (R84). -/
def decodeHdr0 (b : BitVec 8) : Instr :=
  if (b.extractLsb' 0 4).toNat ≤ 8 then
    .wireHdrByte0 (b.extractLsb' 6 2) (b.extractLsb' 4 2) (b.extractLsb' 0 4)
  else if b.extractLsb' 0 4 = 9 then .wireHdrTklRsvd9 (b.extractLsb' 6 2) (b.extractLsb' 4 2)
  else if (b.extractLsb' 0 4).toNat ≤ 11 then
    .wireHdrTklRsvd1011 (b.extractLsb' 6 2) (b.extractLsb' 4 2) (b.extractLsb' 0 1)
  else .wireHdrTklRsvd1215 (b.extractLsb' 6 2) (b.extractLsb' 4 2) (b.extractLsb' 0 2)

/-- Header byte 1 (R76): class 7:5, detail 4:0. -/
def decodeHdrCode (b : BitVec 8) : Instr := .wireHdrCode (b.extractLsb' 5 3) (b.extractLsb' 0 5)

/-- An option's first byte (R79): delta nibble 7:4, tested before length nibble 3:0 (R123). -/
def decodeOptStart (b : BitVec 8) : Instr :=
  if b.extractLsb' 4 4 = 15 then .wireOptDnib15 (b.extractLsb' 0 4)
  else if b.extractLsb' 0 4 = 15 then .wireOptLnib15 (b.extractLsb' 4 4)
  else .wireOpt (b.extractLsb' 4 4) (b.extractLsb' 0 4)

/-- An option start of MSG_DEC: the marker is tested first (44_message.md R162). -/
def decodeSeqStart (b : BitVec 8) : Instr := if b = 0xFF then .wireMarker else decodeOptStart b

/-- A nibble (R80). -/
def decodeNibble (n : BitVec 4) : Instr :=
  if n.toNat ≤ 12 then .nibbleDirect n
  else if n = 13 then .nibbleExt1
  else if n = 14 then .nibbleExt2
  else .nibbleRsvd

/-- A unit of code at a position: the one decoder over both layers (R70). -/
def decode : Position → CodeUnit → Except DecodeError Instr
  | .cmd, .word w => .ok (decodeCmd w)
  | .hdr0, .byte b => .ok (decodeHdr0 b)
  | .hdrCode, .byte b => .ok (decodeHdrCode b)
  | .hdrMid, .half h => .ok (.wireHdrMid h)
  | .seqStart, .byte b => .ok (decodeSeqStart b)
  | .optStart, .byte b => .ok (decodeOptStart b)
  | .nibble, .nibble n => .ok (decodeNibble n)
  | p, _ => .error (.wrongWidth p)

/-- The position a row is read at (the rows' "position" notes). An option's first byte stands at an
option start of MSG_DEC, but for 0xFF, which only OPT_DEC reads as one (R123). -/
def Instr.position : Instr → Position
  | .nibEnc | .nibDec | .optEnc | .optDec | .hdrEnc | .hdrDec | .msgEnc | .msgDec => .cmd
  | .codeSplit | .codeSetClass | .codeSetDetail => .cmd
  | .reservedRsv _ _ | .reservedOpc00 | .reservedOpc0C0F _ | .reservedOpc101F _ => .cmd
  | .reservedOpc203F _ | .reservedOpc407F _ | .reservedOpc80FF _ => .cmd
  | .wireHdrByte0 _ _ _ | .wireHdrTklRsvd9 _ _ => .hdr0
  | .wireHdrTklRsvd1011 _ _ _ | .wireHdrTklRsvd1215 _ _ _ => .hdr0
  | .wireHdrCode _ _ => .hdrCode
  | .wireHdrMid _ => .hdrMid
  | .wireMarker => .seqStart
  | .wireOptDnib15 l => if l = 15 then .optStart else .seqStart
  | .wireOptLnib15 _ | .wireOpt _ _ => .seqStart
  | .nibbleDirect _ | .nibbleExt1 | .nibbleExt2 | .nibbleRsvd => .nibble

/-- The unit of code of a well-formed row, from the encoding column of spec/opcode_table.json. -/
def encode : Instr → CodeUnit
  | .nibEnc => .word 0x00000001
  | .nibDec => .word 0x00000002
  | .optEnc => .word 0x00000003
  | .optDec => .word 0x00000004
  | .hdrEnc => .word 0x00000005
  | .hdrDec => .word 0x00000006
  | .msgEnc => .word 0x00000007
  | .msgDec => .word 0x00000008
  | .codeSplit => .word 0x00000009
  | .codeSetClass => .word 0x0000000A
  | .codeSetDetail => .word 0x0000000B
  | .reservedRsv rsv opc => .word (rsv ++ opc)
  | .reservedOpc00 => .word 0x00000000
  | .reservedOpc0C0F o => .word (3#30 ++ o)
  | .reservedOpc101F o => .word (1#28 ++ o)
  | .reservedOpc203F o => .word (1#27 ++ o)
  | .reservedOpc407F o => .word (1#26 ++ o)
  | .reservedOpc80FF o => .word (1#25 ++ o)
  | .wireHdrByte0 v t k => .byte (v ++ t ++ k)
  | .wireHdrTklRsvd9 v t => .byte (v ++ t ++ 9#4)
  | .wireHdrTklRsvd1011 v t k => .byte (v ++ t ++ 5#3 ++ k)
  | .wireHdrTklRsvd1215 v t k => .byte (v ++ t ++ 3#2 ++ k)
  | .wireHdrCode c d => .byte (c ++ d)
  | .wireHdrMid m => .half m
  | .wireMarker => .byte 0xFF
  | .wireOptDnib15 l => .byte (15#4 ++ l)
  | .wireOptLnib15 d => .byte (d ++ 15#4)
  | .wireOpt d l => .byte (d ++ l)
  | .nibbleDirect n => .nibble n
  | .nibbleExt1 => .nibble 13
  | .nibbleExt2 => .nibble 14
  | .nibbleRsvd => .nibble 15

/-- The bits of a unit as a number. -/
def CodeUnit.bits : CodeUnit → Nat
  | .word w => w.toNat
  | .byte b => b.toNat
  | .half h => h.toNat
  | .nibble n => n.toNat

/-- A unit's width in bits. -/
def CodeUnit.width : CodeUnit → Nat
  | .word _ => 32
  | .byte _ => 8
  | .half _ => 16
  | .nibble _ => 4

/-- A row's width, mask and match, copied from spec/opcode_table.json ("format", "mask", "match"). -/
def Instr.row : Instr → Nat × Nat × Nat
  | .nibEnc => (32, 0xFFFFFFFF, 0x00000001)
  | .nibDec => (32, 0xFFFFFFFF, 0x00000002)
  | .optEnc => (32, 0xFFFFFFFF, 0x00000003)
  | .optDec => (32, 0xFFFFFFFF, 0x00000004)
  | .hdrEnc => (32, 0xFFFFFFFF, 0x00000005)
  | .hdrDec => (32, 0xFFFFFFFF, 0x00000006)
  | .msgEnc => (32, 0xFFFFFFFF, 0x00000007)
  | .msgDec => (32, 0xFFFFFFFF, 0x00000008)
  | .codeSplit => (32, 0xFFFFFFFF, 0x00000009)
  | .codeSetClass => (32, 0xFFFFFFFF, 0x0000000A)
  | .codeSetDetail => (32, 0xFFFFFFFF, 0x0000000B)
  | .reservedRsv _ _ => (32, 0x00000000, 0x00000000)
  | .reservedOpc00 => (32, 0xFFFFFFFF, 0x00000000)
  | .reservedOpc0C0F _ => (32, 0xFFFFFFFC, 0x0000000C)
  | .reservedOpc101F _ => (32, 0xFFFFFFF0, 0x00000010)
  | .reservedOpc203F _ => (32, 0xFFFFFFE0, 0x00000020)
  | .reservedOpc407F _ => (32, 0xFFFFFFC0, 0x00000040)
  | .reservedOpc80FF _ => (32, 0xFFFFFF80, 0x00000080)
  | .wireHdrByte0 _ _ _ => (8, 0x00, 0x00)
  | .wireHdrTklRsvd9 _ _ => (8, 0x0F, 0x09)
  | .wireHdrTklRsvd1011 _ _ _ => (8, 0x0E, 0x0A)
  | .wireHdrTklRsvd1215 _ _ _ => (8, 0x0C, 0x0C)
  | .wireHdrCode _ _ => (8, 0x00, 0x00)
  | .wireHdrMid _ => (16, 0x0000, 0x0000)
  | .wireMarker => (8, 0xFF, 0xFF)
  | .wireOptDnib15 _ => (8, 0xF0, 0xF0)
  | .wireOptLnib15 _ => (8, 0x0F, 0x0F)
  | .wireOpt _ _ => (8, 0x00, 0x00)
  | .nibbleDirect _ => (4, 0x0, 0x0)
  | .nibbleExt1 => (4, 0xF, 0xD)
  | .nibbleExt2 => (4, 0xF, 0xE)
  | .nibbleRsvd => (4, 0xF, 0xF)

/-- A lone byte of the table, whose position the table's word does not tell (R83). DESIGN CHOICE
(log 9): of the one-byte and nibble rows that match it, the row that fixes the most bits, the
table's order settling a tie. -/
def decodeTableByte (b : BitVec 8) : Instr :=
  if b = 0xFF then decodeSeqStart b
  else if b.extractLsb' 0 4 = 9 then decodeHdr0 b
  else if b.extractLsb' 4 4 = 15 then decodeSeqStart b
  else if b.extractLsb' 0 4 = 15 then decodeSeqStart b
  else if b = 0x0D then decodeNibble 13
  else if b = 0x0E then decodeNibble 14
  else decodeHdr0 b

/-- The instruction a table row's word stands for: `nbits` 32 a command word, 16 the message ID,
8 a byte of the wire grammar, 4 a nibble. -/
def decodeTableWord (nbits w : Nat) : Option Instr :=
  if nbits = 32 then some (decodeCmd (BitVec.ofNat 32 w))
  else if nbits = 16 then some (.wireHdrMid (BitVec.ofNat 16 w))
  else if nbits = 8 then some (decodeTableByte (BitVec.ofNat 8 w))
  else if nbits = 4 then some (decodeNibble (BitVec.ofNat 4 w))
  else none

end Sys2Proof
end

