-- ==== Sys2Proof/Machine/State.lean ====
section
/-! DEFINITION. The state of one instance of the block and of the host that drives it: every entry of
10_state.md R23, the hidden state of R43 and R44, the instance's capacities (00_scope.md R7), and the
host's remaining lines (30_encoding.md R87). Plain data throughout. -/

namespace Sys2Proof.Machine

open Sys2Proof

/-- An entry of R23: it holds a value, or it is unwritten, the spec's own state of an entry that
"holds no value" (R25; the reset column of R23; 60_exceptions.md R204). -/
inductive Entry (α : Type) where
  | unwritten
  | holds (v : α)
  deriving DecidableEq, Repr

/-- One option of the list OPTS: `num` and `val` (R40). -/
structure OptEntry where
  num : Word
  val : Bytes
  deriving DecidableEq, Repr

/-- The decode commands, each of which walks IN (or one nibble) with a cursor (R43). -/
inductive Walk where
  | hdrDec | msgDec | optDec | nibDec
  deriving DecidableEq, Repr

/-- The hidden state of one execution of a decode command: POS (R43), ACC (R44), and what the walk
has read so far (the locals of 43_header.md R142 and 44_message.md R162, R168). -/
structure Scan where
  /-- The command that walks. -/
  walk : Walk
  /-- What stands at POS (30_encoding.md R83). -/
  place : Position
  /-- POS, the offset in IN of the next byte to read. -/
  pos : Nat
  /-- ACC, the running previous number. -/
  acc : Word
  ver : BitVec 2
  typ : BitVec 2
  tkl : BitVec 4
  code : BitVec 8
  mid : BitVec 16
  token : Bytes
  opts : List OptEntry
  deriving DecidableEq, Repr

/-- The RW scalar registers of R23. -/
inductive RegName where
  | arg | num | prev | cls | detail | ver | typ | code | mid
  deriving DecidableEq, Repr

/-- The RW byte stores of R23. -/
inductive StoreName where
  | input | token | payload
  deriving DecidableEq, Repr

/-- The RO entries of R23 (listed in R42). -/
inductive RoName where
  | status | errPos | inLen | out | outLen | res | consumed
  deriving DecidableEq, Repr

/-- A value the host writes or reads, whole (20_memory.md R55; the operand forms of R87). -/
inductive HostValue where
  | word (w : Word)
  | nat (n : Nat)
  | bytes (b : Bytes)
  | options (l : List OptEntry)
  deriving DecidableEq, Repr

/-- One line of the host (30_encoding.md R87, R88; 70_reset_and_hazards.md R243), or a reset taken
between two of them (R241). `ISSUE` is `wrCmd` of the command's word (R88). -/
inductive HostLine where
  | wrReg (r : RegName) (v : Word)
  | wrStore (b : StoreName) (v : Bytes)
  | wrOpts (l : List OptEntry)
  | wrRo (e : RoName) (v : HostValue)
  | wrCmd (w : Word)
  | rd (e : EntryName)
  | reset
  deriving DecidableEq, Repr

/-- Everything the spec gives the machine. IN_LEN and OUT_LEN are always |IN| and |OUT| and are
unwritten with them (R23, R25), so they are computed (`State.inLen`, `State.outLen` in Operands.lean). -/
structure State where
  /-- STATUS (R27). -/
  status : Word
  /-- ERR_POS (R29), exact. DESIGN CHOICE (log 16): R23 bounds it below MAX_BUF + 1, while R29 and
  60_exceptions.md R202 record MSG_ENC's sorted index, which is larger where MAX_OPTS allows it. -/
  errPos : Nat
  /-- IN (R30). -/
  input : Entry Bytes
  /-- OUT (R31). -/
  out : Entry Bytes
  /-- ARG (R32). -/
  arg : Entry Word
  /-- NUM (R33). -/
  num : Entry Word
  /-- PREV (R34). -/
  prev : Entry Word
  /-- RES (R35). -/
  res : Entry Word
  /-- CONSUMED (R36). -/
  consumed : Entry Word
  /-- CLASS (R37). -/
  cls : Entry Word
  /-- DETAIL (R37). -/
  detail : Entry Word
  /-- VER (R38). -/
  ver : Entry Word
  /-- TYPE (R38). -/
  typ : Entry Word
  /-- CODE (R38). -/
  code : Entry Word
  /-- MID (R38). -/
  mid : Entry Word
  /-- TOKEN (R39). -/
  token : Entry Bytes
  /-- OPTS (R40). -/
  opts : Entry (List OptEntry)
  /-- PAYLOAD (R41). -/
  payload : Entry Bytes
  /-- The word written to CMD whose command has not run yet (R21, R26, R88; log 3). -/
  cmd : Option Word
  /-- POS, ACC and the rest of a walk in progress; none between commands (R43, R44; log 4). -/
  scan : Option Scan
  /-- MAX_BUF and MAX_OPTS of this instance (00_scope.md R7; log 5). -/
  cap : Config.Capacity
  /-- The lines the host has still to run, next first (R87; log 2). -/
  host : List HostLine
  /-- What the host's RD lines have read, oldest first (R243; log 13). -/
  reads : List (EntryName × HostValue)
  deriving DecidableEq, Repr

/-- Why a run stops with a fault. -/
inductive Fault where
  /-- Raised by a command that reads an unwritten input: its outputs and status are unspecified, "a
  model faults the command" (R25, I9). Safe. -/
  | unwrittenInput (e : EntryName)
  /-- Raised by a host RD of an unwritten entry: it "returns no value", "a model faults that read"
  (R25, I8). Safe. -/
  | unwrittenRead (e : EntryName)
  deriving DecidableEq, Repr

/-- Why a run is rejected. -/
inductive Refusal where
  /-- Raised only by an arm of `exec` that has no meaning yet; no arm of this model is one. Safe. -/
  | notModelled (mnemonic : String)
  /-- Raised by a host RD of CMD: "refused: a model gives it no meaning" (R26, I10). Safe. -/
  | cmdRead
  /-- Raised by a host write beyond a capacity: "refused" (70_reset_and_hazards.md R243, I11). Safe. -/
  | beyondCapacity (e : EntryName)
  /-- Raised by a wire or nibble element where no decode walk stands at the element's position: a
  byte is that element only at its position (30_encoding.md R83). `step` never raises it, as it
  decodes by position (log 15). Safe. -/
  | offPosition
  deriving DecidableEq, Repr

/-- Reset (70_reset_and_hazards.md R240): STATUS and ERR_POS are 0, every other entry is unwritten,
no hidden state exists; the instance is the reference one (R7) and no host line is given. -/
def State.reset : State where
  status := 0
  errPos := 0
  input := .unwritten
  out := .unwritten
  arg := .unwritten
  num := .unwritten
  prev := .unwritten
  res := .unwritten
  consumed := .unwritten
  cls := .unwritten
  detail := .unwritten
  ver := .unwritten
  typ := .unwritten
  code := .unwritten
  mid := .unwritten
  token := .unwritten
  opts := .unwritten
  payload := .unwritten
  cmd := none
  scan := none
  cap := Config.reference
  host := []
  reads := []

end Sys2Proof.Machine
end

