-- ==== Sys2Proof/Machine/Flags.lean ====
section
/-! DEFINITION. STATUS: its fields (10_state.md R27, R28), the error kinds and causes with their codes
(60_exceptions.md R201, R202), and the values success and an error give it (R203, R204). These are the
block's only flags (R45). -/

namespace Sys2Proof.Machine

open Sys2Proof

/-- The error kinds (R201). -/
inductive Kind where
  | validation | format | truncation | capacity | command
  deriving DecidableEq, Repr

/-- The error causes, by their names in R202. -/
inductive Cause where
  | vVersion | vType | vCode | vMid | vTkl | vVlen | vDelta | vDeltaNeg | vRaw | vNibble | vClass
  | vDetail
  | fDnib15 | fLnib15 | fEmptyPayload | fTkl | fNumOvf | fNib15
  | tHeader | tToken | tOptHdr | tDext | tLext | tValue | tExt
  | cOut | cOpts
  | xRsvdBits | xOpcode
  deriving DecidableEq, Repr

/-- STATUS.KIND of each kind (R28, R201). -/
def Kind.code : Kind → Word
  | .validation => 1
  | .format => 2
  | .truncation => 3
  | .capacity => 4
  | .command => 5

/-- The kind of each cause (the tables of R202). -/
def Cause.kind : Cause → Kind
  | .vVersion | .vType | .vCode | .vMid | .vTkl | .vVlen | .vDelta | .vDeltaNeg | .vRaw => .validation
  | .vNibble | .vClass | .vDetail => .validation
  | .fDnib15 | .fLnib15 | .fEmptyPayload | .fTkl | .fNumOvf | .fNib15 => .format
  | .tHeader | .tToken | .tOptHdr | .tDext | .tLext | .tValue | .tExt => .truncation
  | .cOut | .cOpts => .capacity
  | .xRsvdBits | .xOpcode => .command

/-- The cause code within its kind (the CAUSE column of R202). -/
def Cause.code : Cause → Word
  | .vVersion => 1
  | .vType => 2
  | .vCode => 3
  | .vMid => 4
  | .vTkl => 5
  | .vVlen => 6
  | .vDelta => 7
  | .vDeltaNeg => 8
  | .vRaw => 9
  | .vNibble => 10
  | .vClass => 11
  | .vDetail => 12
  | .fDnib15 => 1
  | .fLnib15 => 2
  | .fEmptyPayload => 3
  | .fTkl => 4
  | .fNumOvf => 5
  | .fNib15 => 6
  | .tHeader => 1
  | .tToken => 2
  | .tOptHdr => 3
  | .tDext => 4
  | .tLext => 5
  | .tValue => 6
  | .tExt => 7
  | .cOut => 1
  | .cOpts => 2
  | .xRsvdBits => 1
  | .xOpcode => 2

/-- STATUS after an error: `(c << 4) | K`, VALID 0 (R204). -/
def Cause.status (c : Cause) : Word := c.code <<< 4 ||| c.kind.code

/-- STATUS after success: KIND 0, CAUSE 0, VALID 1 (R203). -/
def statusDone : Word := 0x00000100

/-- STATUS.KIND, bits 2:0 (R27). -/
def statusKind (w : Word) : BitVec 3 := w.extractLsb' 0 3

/-- STATUS.CAUSE, bits 7:4 (R27). -/
def statusCause (w : Word) : BitVec 4 := w.extractLsb' 4 4

/-- STATUS.VALID, bit 8 (R27). -/
def statusValid (w : Word) : Bool := w.getLsbD 8

end Sys2Proof.Machine
end

