-- ==== Sys2Proof/Machine/Operands.lean ====
section
/-! DEFINITION. How a command reads its inputs: whole entries, a fault on an unwritten one
(10_state.md R25), and bytes of IN at an offset (00_scope.md R11). Every operand is a named register
or store (30_encoding.md R71, R89). -/

namespace Sys2Proof.Machine

open Sys2Proof

/-- Why a command does not reach `done`: it raises an error of the spec with its position (R11
`raise K(c, p)`; the kind is the cause's), or the model faults. -/
inductive Stop where
  | err (c : Cause) (pos : Nat)
  | fault (f : Fault)
  deriving DecidableEq, Repr

/-- A computation inside a command: checks run in the order written and the first that fails ends it
(R12). -/
abbrev Calc (α : Type) := Except Stop α

/-- The pseudocode's `if not p: raise K(c, pos)`. -/
def need (p : Prop) [Decidable p] (c : Cause) (pos : Nat) : Calc Unit :=
  if p then .ok () else .error (.err c pos)

/-- A command reads the entry `e` (R25: reading an unwritten input is a fault). -/
def Entry.get {α : Type} (e : EntryName) : Entry α → Calc α
  | .holds v => .ok v
  | .unwritten => .error (.fault (.unwrittenInput e))

/-- IN_LEN, always |IN| and unwritten with it (R23, R25). -/
def State.inLen (s : State) : Entry Nat :=
  match s.input with
  | .holds b => .holds b.length
  | .unwritten => .unwritten

/-- OUT_LEN, always |OUT| and unwritten with it (R23, R25). -/
def State.outLen (s : State) : Entry Nat :=
  match s.out with
  | .holds b => .holds b.length
  | .unwritten => .unwritten

/-- `MemRead(a, n)`, the bytes a to a + n - 1 of IN (R11). It is used after the check `a + n ≤ IN_LEN`. -/
def memRead (inp : Bytes) (a n : Nat) : Bytes := (inp.drop a).take n

/-- `MemRead(a, 1)[0]` (R11), used after the check `a < IN_LEN`. -/
def byteAt (inp : Bytes) (a : Nat) : Byte := inp.getD a 0

/-- `zext_32(v)` (R9). -/
def zext32 {n : Nat} (v : BitVec n) : Word := v.setWidth 32

end Sys2Proof.Machine
end

