-- ==== Sys2Proof/Machine/Ops.lean ====
section
/-! DEFINITION. The named operations on the state: completing a command (60_exceptions.md R203),
raising an error (R204, the block's only exception entry, R213; there is no return from one, R214),
and the walk of a decode command over IN (10_state.md R43). -/

namespace Sys2Proof.Machine

open Sys2Proof

/-- `be16(v)`: two bytes, most significant first (00_scope.md R10). -/
def be16 (v : Nat) : Bytes := [BitVec.ofNat 8 (v / 256), BitVec.ofNat 8 v]

/-- A byte sequence of `n` bytes fits a store of this capacity (R7, R205). -/
def fitsBuf (cap : Config.Capacity) (n : Nat) : Bool :=
  match cap.maxBuf with
  | none => true
  | some m => decide (n ≤ m)

/-- A list of `n` options fits OPTS (R7, R205). -/
def fitsOpts (cap : Config.Capacity) (n : Nat) : Bool :=
  match cap.maxOpts with
  | none => true
  | some m => decide (n ≤ m)

/-- One output of a failed command: OUT becomes the empty sequence, any other entry unwritten (R204).
Entries no command has as an output are left alone. -/
def State.spoil (s : State) : EntryName → State
  | .out => { s with out := .holds [] }
  | .num => { s with num := .unwritten }
  | .res => { s with res := .unwritten }
  | .consumed => { s with consumed := .unwritten }
  | .cls => { s with cls := .unwritten }
  | .detail => { s with detail := .unwritten }
  | .ver => { s with ver := .unwritten }
  | .typ => { s with typ := .unwritten }
  | .code => { s with code := .unwritten }
  | .mid => { s with mid := .unwritten }
  | .token => { s with token := .unwritten }
  | .opts => { s with opts := .unwritten }
  | .payload => { s with payload := .unwritten }
  | .cmd | .status | .errPos | .input | .inLen | .outLen | .arg | .prev => s

/-- Taking an error `raise K(c, p)` (R204): STATUS and ERR_POS are written, the command's outputs are
spoiled, and nothing else changes. -/
def State.raiseError (s : State) (outs : List EntryName) (c : Cause) (pos : Nat) : State :=
  { outs.foldl State.spoil s with status := c.status, errPos := pos }

/-- `done` (R203): STATUS says success and ERR_POS is 0. The outputs are already in the state. -/
def State.succeed (s : State) : State := { s with status := statusDone, errPos := 0 }

/-- How a command with the outputs `outs` ends: with the state its pseudocode reached, or with the
error it raised from the state before it (R203, R204, R213), or with a fault. -/
def finish (outs : List EntryName) (s : State) : Calc State → Host.Outcome State Fault Refusal
  | .ok t => .next t.succeed
  | .error (.err c pos) => .next (s.raiseError outs c pos)
  | .error (.fault f) => .fault f

/-- The inputs of each command (30_encoding.md R89); a reserved word reads none (R73). The elements of
the wire grammar are not commands: their rows are empty. -/
def commandInputs : Instr → List EntryName
  | .nibEnc => [.arg]
  | .nibDec => [.arg, .input]
  | .optEnc => [.num, .prev, .input]
  | .optDec => [.input, .prev]
  | .hdrEnc => [.ver, .typ, .code, .mid, .token]
  | .hdrDec => [.input]
  | .msgEnc => [.ver, .typ, .code, .mid, .token, .opts, .payload]
  | .msgDec => [.input]
  | .codeSplit => [.code]
  | .codeSetClass => [.cls, .code]
  | .codeSetDetail => [.detail, .code]
  | .reservedRsv _ _ | .reservedOpc00 | .reservedOpc0C0F _ | .reservedOpc101F _ => []
  | .reservedOpc203F _ | .reservedOpc407F _ | .reservedOpc80FF _ => []
  | .wireHdrByte0 _ _ _ | .wireHdrTklRsvd9 _ _ => []
  | .wireHdrTklRsvd1011 _ _ _ | .wireHdrTklRsvd1215 _ _ _ => []
  | .wireHdrCode _ _ | .wireHdrMid _ | .wireMarker => []
  | .wireOptDnib15 _ | .wireOptLnib15 _ | .wireOpt _ _ => []
  | .nibbleDirect _ | .nibbleExt1 | .nibbleExt2 | .nibbleRsvd => []

/-- The outputs of each command besides STATUS and ERR_POS (R89). -/
def commandOutputs : Instr → List EntryName
  | .nibEnc => [.res, .out]
  | .nibDec => [.res, .consumed]
  | .optEnc => [.out]
  | .optDec => [.num, .out, .consumed]
  | .hdrEnc => [.out]
  | .hdrDec => [.ver, .typ, .code, .mid, .res]
  | .msgEnc => [.out]
  | .msgDec => [.ver, .typ, .code, .mid, .token, .opts, .payload]
  | .codeSplit => [.cls, .detail]
  | .codeSetClass => [.code]
  | .codeSetDetail => [.code]
  | .reservedRsv _ _ | .reservedOpc00 | .reservedOpc0C0F _ | .reservedOpc101F _ => []
  | .reservedOpc203F _ | .reservedOpc407F _ | .reservedOpc80FF _ => []
  | .wireHdrByte0 _ _ _ | .wireHdrTklRsvd9 _ _ => []
  | .wireHdrTklRsvd1011 _ _ _ | .wireHdrTklRsvd1215 _ _ _ => []
  | .wireHdrCode _ _ | .wireHdrMid _ | .wireMarker => []
  | .wireOptDnib15 _ | .wireOptLnib15 _ | .wireOpt _ _ => []
  | .nibbleDirect _ | .nibbleExt1 | .nibbleExt2 | .nibbleRsvd => []

/-- The command that walks. -/
def Walk.command : Walk → Instr
  | .hdrDec => .hdrDec
  | .msgDec => .msgDec
  | .optDec => .optDec
  | .nibDec => .nibDec

/-- The outputs of the command that walks (R89). -/
def Walk.outputs (w : Walk) : List EntryName := commandOutputs w.command

/-- What a decode command reads first. -/
def Walk.first : Walk → Position
  | .hdrDec | .msgDec => .hdr0
  | .optDec => .optStart
  | .nibDec => .nibble

/-- The hidden state at the start of a decode command: POS and ACC are 0 (R43, R44). -/
def Scan.start (w : Walk) : Scan where
  walk := w
  place := w.first
  pos := 0
  acc := 0
  ver := 0
  typ := 0
  tkl := 0
  code := 0
  mid := 0
  token := []
  opts := []

/-- An element of the wire grammar meets the walk that stands at its position (30_encoding.md R83);
elsewhere it is not that element and has no meaning (log 15). -/
def atPlace (ps : List Position) (s : State) (f : Scan → Host.Outcome State Fault Refusal) :
    Host.Outcome State Fault Refusal :=
  match s.scan with
  | some sc => if sc.place ∈ ps then f sc else .refused .offPosition
  | none => .refused .offPosition

/-- The state with no walk in progress: the hidden state is not retained (R43, R44). -/
def State.endScan (s : State) : State := { s with scan := none }

/-- An element that lets the walk go on, or raises the walking command's error. -/
def advance (sc : Scan) (s : State) : Calc Scan → Host.Outcome State Fault Refusal
  | .ok sc' => .next { s with scan := some sc' }
  | .error (.err c pos) => .next (s.endScan.raiseError sc.walk.outputs c pos)
  | .error (.fault f) => .fault f

/-- An element that ends the walk: the walking command completes or raises its error. -/
def conclude (sc : Scan) (s : State) (r : Calc State) : Host.Outcome State Fault Refusal :=
  finish sc.walk.outputs s.endScan r

end Sys2Proof.Machine
end

