-- ==== Sys2Proof/Machine/Code.lean ====
section
/-! DEFINITION. The code accessors (45_code.md): CODE_SPLIT, CODE_SET_CLASS and CODE_SET_DETAIL. -/

namespace Sys2Proof.Machine

open Sys2Proof

/-- CODE[7:5] (R190). -/
def codeClass (c : Word) : Word := zext32 (c.extractLsb' 5 3)

/-- CODE[4:0] (R190). -/
def codeDetail (c : Word) : Word := zext32 (c.extractLsb' 0 5)

/-- `(class << 5) | detail` (R190). -/
def codeJoin (cls detail : Word) : Word := cls <<< 5 ||| detail

/-- CODE_SPLIT (R191). -/
def execCodeSplit (s : State) : Host.Outcome State Fault Refusal :=
  finish (commandOutputs .codeSplit) s do
    let code ← s.code.get .code
    need (code.toNat ≤ 255) .vCode 0
    .ok { s with cls := .holds (codeClass code), detail := .holds (codeDetail code) }

/-- CODE_SET_CLASS (R192): CODE is read only after the CLASS check passes. -/
def execCodeSetClass (s : State) : Host.Outcome State Fault Refusal :=
  finish (commandOutputs .codeSetClass) s do
    let cls ← s.cls.get .cls
    need (cls.toNat ≤ 7) .vClass 0
    let code ← s.code.get .code
    .ok { s with code := .holds (codeJoin cls (codeDetail code)) }

/-- CODE_SET_DETAIL (R193): CODE is read only after the DETAIL check passes. -/
def execCodeSetDetail (s : State) : Host.Outcome State Fault Refusal :=
  finish (commandOutputs .codeSetDetail) s do
    let detail ← s.detail.get .detail
    need (detail.toNat ≤ 31) .vDetail 0
    let code ← s.code.get .code
    .ok { s with code := .holds (codeJoin (codeClass code) detail) }

end Sys2Proof.Machine
end

