-- ==== Sys2Proof/Machine/Header.lean ====
section
/-! DEFINITION. The fixed-header bit-packer (43_header.md): `hdr_pack`, `hdr_validate`, `hdr_unpack`
(R140-R142) and the commands HDR_ENC and HDR_DEC. -/

namespace Sys2Proof.Machine

open Sys2Proof

/-- The fields of the fixed header, in their widths on the wire (30_encoding.md R75-R77). -/
structure HdrFields where
  ver : BitVec 2
  typ : BitVec 2
  tkl : BitVec 4
  code : BitVec 8
  mid : BitVec 16
  deriving DecidableEq, Repr

/-- `hdr_pack(ver, type, tkl, code, mid)` (R140), used on fields in range. -/
def hdrPack (ver typ : Word) (tkl : Nat) (code mid : Word) : Bytes :=
  [(ver <<< 6 ||| typ <<< 4 ||| BitVec.ofNat 32 tkl).setWidth 8, code.setWidth 8,
    mid.extractLsb' 8 8, mid.extractLsb' 0 8]

/-- `hdr_validate(ver, type, code, mid, tkl)` (R141): the first field out of range, in this order. -/
def hdrValidate (ver typ code mid : Word) (tkl : Nat) : Calc Unit := do
  need (ver.toNat ≤ 3) .vVersion 0
  need (typ.toNat ≤ 3) .vType 0
  need (code.toNat ≤ 255) .vCode 0
  need (mid.toNat ≤ 65535) .vMid 0
  need (tkl ≤ Config.maxTkl) .vTkl 0

/-- The message ID of header bytes 2 and 3, most significant byte first (R142; 20_memory.md R52). -/
def hdrMid (hi lo : Byte) : BitVec 16 := hi ++ lo

/-- All four header bytes are present (R142, D31). -/
def hdrPresent (inp : Bytes) : Calc Unit := need (4 ≤ inp.length) .tHeader 0

/-- `hdr_unpack()` (R142, R143): the header fields of IN. -/
def hdrUnpack (inp : Bytes) : Calc HdrFields := do
  hdrPresent inp
  let b := byteAt inp 0
  need ((b.extractLsb' 0 4).toNat ≤ Config.maxTkl) .fTkl 0
  .ok {
    ver := b.extractLsb' 6 2
    typ := b.extractLsb' 4 2
    tkl := b.extractLsb' 0 4
    code := byteAt inp 1
    mid := hdrMid (byteAt inp 2) (byteAt inp 3) }

/-- HDR_ENC (R144): TKL is the length of TOKEN, and only the four bytes are emitted. -/
def execHdrEnc (s : State) : Host.Outcome State Fault Refusal :=
  finish (commandOutputs .hdrEnc) s do
    let token ← s.token.get .token
    let ver ← s.ver.get .ver
    let typ ← s.typ.get .typ
    let code ← s.code.get .code
    let mid ← s.mid.get .mid
    hdrValidate ver typ code mid token.length
    .ok { s with out := .holds (hdrPack ver typ token.length code mid) }

/-- The descriptor registers a decoded header is written to (R145; 44_message.md R168). -/
def State.putHeader (s : State) (h : HdrFields) : State :=
  { s with ver := .holds (zext32 h.ver), typ := .holds (zext32 h.typ),
           code := .holds (zext32 h.code), mid := .holds (zext32 h.mid) }

/-- The writes of HDR_DEC (R145): the header and, in RES, the token length. -/
def State.putHdrDec (s : State) (h : HdrFields) : State :=
  { s.putHeader h with res := .holds (zext32 h.tkl) }

/-- HDR_DEC (R145). -/
def execHdrDec (s : State) : Host.Outcome State Fault Refusal :=
  finish (commandOutputs .hdrDec) s do
    let inp ← s.input.get .input
    let h ← hdrUnpack inp
    .ok (s.putHdrDec h)

end Sys2Proof.Machine
end

