-- ==== Sys2Proof/Machine/Varint.lean ====
section
/-! DEFINITION. The variable-length integer encoder and decoder (41_varint.md): the functions of
R100-R102 and the commands NIB_ENC and NIB_DEC. -/

namespace Sys2Proof.Machine

open Sys2Proof

/-- `ext_len(n)` (R100), for a nibble 0 to 14; every caller rules 15 out first. -/
def extLen (n : Nibble) : Nat := if n.toNat ≤ 12 then 0 else if n = 13 then 1 else 2

/-- `nib_enc(raw)` (R101), for a raw value up to 65804; every caller checks the range first. -/
def nibEncode (raw : Nat) : Nibble × Bytes :=
  if raw ≤ 12 then (BitVec.ofNat 4 raw, [])
  else if raw ≤ 268 then (13, [BitVec.ofNat 8 (raw - 13)])
  else (14, be16 (raw - 269))

/-- `nib_dec(n, e)` (R102), for a nibble 0 to 14 and its `ext_len(n)` extension bytes. -/
def nibDecode (n : Nibble) (e : Bytes) : Nat :=
  if n.toNat ≤ 12 then n.toNat
  else if n = 13 then (byteAt e 0).toNat + 13
  else (byteAt e 0).toNat * 256 + (byteAt e 1).toNat + 269

/-- NIB_ENC (R104). -/
def execNibEnc (s : State) : Host.Outcome State Fault Refusal :=
  finish (commandOutputs .nibEnc) s do
    let raw ← s.arg.get .arg
    need (raw.toNat ≤ Config.maxRaw) .vRaw 0
    let r := nibEncode raw.toNat
    .ok { s with res := .holds (zext32 r.1), out := .holds r.2 }

/-- NIB_DEC from a nibble on (R105): nibble 15, then the extension, which is read from IN only when
there is one. -/
def nibDecFrom (n : Nibble) (s : State) : Calc State := do
  need (n ≠ 15) .fNib15 0
  if extLen n = 0 then
    .ok { s with res := .holds (BitVec.ofNat 32 (nibDecode n [])), consumed := .holds 0 }
  else
    let inp ← s.input.get .input
    need (extLen n ≤ inp.length) .tExt 0
    .ok { s with
      res := .holds (BitVec.ofNat 32 (nibDecode n (memRead inp 0 (extLen n))))
      consumed := .holds (BitVec.ofNat 32 (extLen n)) }

/-- NIB_DEC (R105). -/
def execNibDec (s : State) : Host.Outcome State Fault Refusal :=
  finish (commandOutputs .nibDec) s do
    let a ← s.arg.get .arg
    need (a.toNat ≤ 15) .vNibble 0
    nibDecFrom (a.extractLsb' 0 4) s

end Sys2Proof.Machine
end

