-- ==== Sys2Proof/Machine/OptionCodec.lean ====
section
/-! DEFINITION. The option codec (42_option.md): `opt_enc` (R121), `opt_dec_at` (R122) and the commands
OPT_ENC and OPT_DEC. -/

namespace Sys2Proof.Machine

open Sys2Proof

/-- `opt_enc(num, prev, val, i)` (R121): the option's bytes, or the first check that fails with
position `i` (R120, R211). -/
def optEncode (num prev : Word) (val : Bytes) (i : Nat) : Calc Bytes := do
  need (prev.toNat ≤ num.toNat) .vDeltaNeg i
  need (num.toNat - prev.toNat ≤ Config.maxRaw) .vDelta i
  need (val.length ≤ Config.maxVlen) .vVlen i
  let d := nibEncode (num.toNat - prev.toNat)
  let l := nibEncode val.length
  .ok ((d.1 ++ l.1) :: d.2 ++ l.2 ++ val)

/-- `opt_dec_at(p, prev)` once the first byte's nibbles are known (R122-R127): nibble 15 in either
half, then the delta extension, the number, the length extension and the value. -/
def optFields (inp : Bytes) (p : Nat) (prev : Word) (dn ln : Nibble) : Calc (Word × Bytes × Nat) := do
  need (dn ≠ 15) .fDnib15 p
  need (ln ≠ 15) .fLnib15 p
  let q := p + 1
  need (q + extLen dn ≤ inp.length) .tDext q
  let num := prev.toNat + nibDecode dn (memRead inp q (extLen dn))
  let q := q + extLen dn
  need (num < Config.numBound) .fNumOvf p
  need (q + extLen ln ≤ inp.length) .tLext q
  let len := nibDecode ln (memRead inp q (extLen ln))
  let q := q + extLen ln
  need (q + len ≤ inp.length) .tValue q
  .ok (BitVec.ofNat 32 num, memRead inp q len, q + len - p)

/-- `opt_dec_at(p, prev)` (R122): the option at offset `p` of IN, as (num, val, byte count). -/
def optDecodeAt (inp : Bytes) (p : Nat) (prev : Word) : Calc (Word × Bytes × Nat) := do
  need (p + 1 ≤ inp.length) .tOptHdr p
  let b := byteAt inp p
  optFields inp p prev (b.extractLsb' 4 4) (b.extractLsb' 0 4)

/-- OPT_ENC (R128): the value is all of IN. PREV is not advanced (10_state.md R34). -/
def execOptEnc (s : State) : Host.Outcome State Fault Refusal :=
  finish (commandOutputs .optEnc) s do
    let num ← s.num.get .num
    let prev ← s.prev.get .prev
    let val ← s.input.get .input
    let bs ← optEncode num prev val 0
    need (fitsBuf s.cap bs.length) .cOut 0
    .ok { s with out := .holds bs }

/-- The writes of OPT_DEC (R129). -/
def State.putOption (s : State) (r : Word × Bytes × Nat) : State :=
  { s with num := .holds r.1, out := .holds r.2.1, consumed := .holds (BitVec.ofNat 32 r.2.2) }

/-- OPT_DEC (R129). -/
def execOptDec (s : State) : Host.Outcome State Fault Refusal :=
  finish (commandOutputs .optDec) s do
    let prev ← s.prev.get .prev
    let inp ← s.input.get .input
    let r ← optDecodeAt inp 0 prev
    .ok (s.putOption r)

end Sys2Proof.Machine
end

