-- ==== Sys2Proof/Machine/Message.lean ====
section
/-! DEFINITION. The option sequencer and the message codec (44_message.md): `seq_enc`, `seq_dec`,
`opts_validate` (R161, R162, R167), the stable sort of 00_scope.md R13, and the commands MSG_ENC and
MSG_DEC. -/

namespace Sys2Proof.Machine

open Sys2Proof

/-- Puts one option before the first of a sorted list whose number is not smaller (R13). -/
def insertOpt (o : OptEntry) : List OptEntry → List OptEntry
  | [] => [o]
  | x :: xs => if o.num.toNat ≤ x.num.toNat then o :: x :: xs else x :: insertOpt o xs

/-- `stable_sort_by_num(L)` (R13): ascending by number, equal numbers in their order in the list. -/
def sortOpts : List OptEntry → List OptEntry
  | [] => []
  | o :: os => insertOpt o (sortOpts os)

/-- `opts_validate(S)` (R167) from index `i` on, the option before having number `acc`. The error's
position is the index itself, however large (log 16). -/
def optsValidate (acc : Word) (i : Nat) : List OptEntry → Calc Unit
  | [] => .ok ()
  | o :: os => do
    need (o.num.toNat - acc.toNat ≤ Config.maxRaw) .vDelta i
    need (o.val.length ≤ Config.maxVlen) .vVlen i
    optsValidate o.num (i + 1) os

/-- `seq_enc(S)` (R161) from index `i` on, with the running previous number `acc`. -/
def seqEncode (acc : Word) (i : Nat) : List OptEntry → Calc Bytes
  | [] => .ok []
  | o :: os => do
    let b ← optEncode o.num acc o.val i
    let rest ← seqEncode o.num (i + 1) os
    .ok (b ++ rest)

/-- The marker and the payload (R164), nothing when there is no payload. -/
def payloadTail (payload : Bytes) : Bytes := if 0 < payload.length then 0xFF :: payload else []

/-- One more option decoded at offset `p` joins the list, if the list has room (R162). -/
def pushOpt (cap : Config.Capacity) (p : Nat) (opts : List OptEntry) (num : Word) (val : Bytes) :
    Calc (List OptEntry) := do
  need (fitsOpts cap (opts.length + 1)) .cOpts p
  .ok (opts ++ [⟨num, val⟩])

/-- What follows the marker at offset `p`: at least one byte of payload (R82, R163). -/
def payloadAfter (inp : Bytes) (p : Nat) : Calc Bytes := do
  need (p + 1 ≠ inp.length) .fEmptyPayload p
  .ok (memRead inp (p + 1) (inp.length - p - 1))

/-- `seq_dec(p)` (R162) with the accumulator `acc` and the options read so far. The first argument
bounds the passes by the bytes left, IN_LEN - p; when it is used up the input has ended, which is
R165's end (log 18). -/
def seqDecode (cap : Config.Capacity) (inp : Bytes) :
    Nat → Nat → Word → List OptEntry → Calc (List OptEntry × Bytes)
  | 0, _, _, opts => .ok (opts, [])
  | left + 1, p, acc, opts =>
    if p = inp.length then .ok (opts, [])
    else if byteAt inp p = 0xFF then do
      let payload ← payloadAfter inp p
      .ok (opts, payload)
    else do
      let r ← optDecodeAt inp p acc
      let opts' ← pushOpt cap p opts r.1 r.2.1
      seqDecode cap inp left (p + r.2.2) r.1 opts'

/-- MSG_ENC (R166). -/
def execMsgEnc (s : State) : Host.Outcome State Fault Refusal :=
  finish (commandOutputs .msgEnc) s do
    let token ← s.token.get .token
    let ver ← s.ver.get .ver
    let typ ← s.typ.get .typ
    let code ← s.code.get .code
    let mid ← s.mid.get .mid
    hdrValidate ver typ code mid token.length
    let opts ← s.opts.get .opts
    optsValidate 0 0 (sortOpts opts)
    let body ← seqEncode 0 0 (sortOpts opts)
    let payload ← s.payload.get .payload
    let bs := hdrPack ver typ token.length code mid ++ token ++ body ++ payloadTail payload
    need (fitsBuf s.cap bs.length) .cOut 0
    .ok { s with out := .holds bs }

/-- The token (R168): TKL bytes from offset 4, all of them present. -/
def tokenAt4 (inp : Bytes) (tkl : Nat) : Calc Bytes := do
  need (4 + tkl ≤ inp.length) .tToken 4
  .ok (memRead inp 4 tkl)

/-- The writes of MSG_DEC (R168), all seven at once. -/
def State.putMessage (s : State) (h : HdrFields) (token : Bytes) (opts : List OptEntry)
    (payload : Bytes) : State :=
  { s.putHeader h with token := .holds token, opts := .holds opts, payload := .holds payload }

/-- MSG_DEC (R168). -/
def execMsgDec (s : State) : Host.Outcome State Fault Refusal :=
  finish (commandOutputs .msgDec) s do
    let inp ← s.input.get .input
    let h ← hdrUnpack inp
    let token ← tokenAt4 inp h.tkl.toNat
    let r ← seqDecode s.cap inp (inp.length - (4 + h.tkl.toNat)) (4 + h.tkl.toNat) 0 []
    .ok (s.putMessage h token r.1 r.2)

end Sys2Proof.Machine
end

