-- ==== Sys2Proof/Machine/Reserved.lean ====
section
/-! DEFINITION. The reserved command words (30_encoding.md R73): CommandError, which reads no input and
writes only STATUS and ERR_POS (60_exceptions.md R206). -/

namespace Sys2Proof.Machine

open Sys2Proof

/-- A CommandError (R206): no outputs to spoil, ERR_POS 0. -/
def commandError (c : Cause) (s : State) : Host.Outcome State Fault Refusal :=
  .next (s.raiseError [] c 0)

/-- RESERVED_RSV: X_RSVD_BITS (R73). -/
def execReservedRsv (s : State) : Host.Outcome State Fault Refusal := commandError .xRsvdBits s

/-- RESERVED_OPC_00: X_OPCODE (R73). -/
def execReservedOpc00 (s : State) : Host.Outcome State Fault Refusal := commandError .xOpcode s

/-- RESERVED_OPC_0C_0F: X_OPCODE (R73). -/
def execReservedOpc0C0F (s : State) : Host.Outcome State Fault Refusal := commandError .xOpcode s

/-- RESERVED_OPC_10_1F: X_OPCODE (R73). -/
def execReservedOpc101F (s : State) : Host.Outcome State Fault Refusal := commandError .xOpcode s

/-- RESERVED_OPC_20_3F: X_OPCODE (R73). -/
def execReservedOpc203F (s : State) : Host.Outcome State Fault Refusal := commandError .xOpcode s

/-- RESERVED_OPC_40_7F: X_OPCODE (R73). -/
def execReservedOpc407F (s : State) : Host.Outcome State Fault Refusal := commandError .xOpcode s

/-- RESERVED_OPC_80_FF: X_OPCODE (R73). -/
def execReservedOpc80FF (s : State) : Host.Outcome State Fault Refusal := commandError .xOpcode s

end Sys2Proof.Machine
end

