-- ==== Sys2Proof/Machine/Wire.lean ====
section
/-! DEFINITION. The elements of the wire grammar and the nibbles, as the decode commands meet them:
each is one move of the walk of NIB_DEC, OPT_DEC, HDR_DEC or MSG_DEC over IN (10_state.md R43, R44;
30_encoding.md R83). The commands themselves stand in their family files and are atomic (R21); the
moves use the same operations (log 4). -/

namespace Sys2Proof.Machine

open Sys2Proof

/-- The header fields a walk has read so far. -/
def Scan.fields (sc : Scan) : HdrFields where
  ver := sc.ver
  typ := sc.typ
  tkl := sc.tkl
  code := sc.code
  mid := sc.mid

/-- Header byte 0 with the token length `k` (43_header.md R142, R143): the four header bytes are
present and `k` is at most 8, or the walk ends in T_HEADER or F_TKL. -/
def hdr0Element (v t : BitVec 2) (k : BitVec 4) (s : State) : Host.Outcome State Fault Refusal :=
  atPlace [.hdr0] s fun sc => advance sc s do
    let inp ← s.input.get .input
    hdrPresent inp
    need (k.toNat ≤ Config.maxTkl) .fTkl 0
    .ok { sc with place := .hdrCode, pos := sc.pos + 1, ver := v, typ := t, tkl := k }

/-- WIRE_HDR_BYTE0 (30_encoding.md R75). -/
def execWireHdrByte0 (v t : BitVec 2) (k : BitVec 4) (s : State) : Host.Outcome State Fault Refusal :=
  hdr0Element v t k s

/-- WIRE_HDR_TKL_RSVD_9: F_TKL (R143). -/
def execWireHdrTklRsvd9 (v t : BitVec 2) (s : State) : Host.Outcome State Fault Refusal :=
  hdr0Element v t 9#4 s

/-- WIRE_HDR_TKL_RSVD_10_11: F_TKL (R143). -/
def execWireHdrTklRsvd1011 (v t : BitVec 2) (k : BitVec 1) (s : State) :
    Host.Outcome State Fault Refusal :=
  hdr0Element v t (5#3 ++ k) s

/-- WIRE_HDR_TKL_RSVD_12_15: F_TKL (R143). -/
def execWireHdrTklRsvd1215 (v t : BitVec 2) (k : BitVec 2) (s : State) :
    Host.Outcome State Fault Refusal :=
  hdr0Element v t (3#2 ++ k) s

/-- WIRE_HDR_CODE (R76): the code, class and detail side by side. -/
def execWireHdrCode (c : BitVec 3) (d : BitVec 5) (s : State) : Host.Outcome State Fault Refusal :=
  atPlace [.hdrCode] s fun sc => advance sc s
    (.ok { sc with place := .hdrMid, pos := sc.pos + 1, code := c ++ d })

/-- WIRE_HDR_MID (R77): HDR_DEC ends here (43_header.md R145); MSG_DEC goes on with the token and then
stands at an option start, ACC being 0 (44_message.md R162, R168). -/
def execWireHdrMid (m : BitVec 16) (s : State) : Host.Outcome State Fault Refusal :=
  atPlace [.hdrMid] s fun sc =>
    match sc.walk with
    | .hdrDec => conclude sc s (.ok (s.endScan.putHdrDec { sc.fields with mid := m }))
    | .msgDec | .optDec | .nibDec => advance sc s do
      let inp ← s.input.get .input
      let token ← tokenAt4 inp sc.tkl.toNat
      .ok { sc with place := .seqStart, pos := 4 + sc.tkl.toNat, acc := 0, mid := m,
                     token := token, opts := [] }

/-- WIRE_MARKER (44_message.md R162, R163): the rest of IN is the payload and MSG_DEC ends. -/
def execWireMarker (s : State) : Host.Outcome State Fault Refusal :=
  atPlace [.seqStart] s fun sc => conclude sc s do
    let inp ← s.input.get .input
    let payload ← payloadAfter inp sc.pos
    .ok (s.endScan.putMessage sc.fields sc.token sc.opts payload)

/-- An option's first byte with its nibbles (42_option.md R122, R123): OPT_DEC ends with the option;
MSG_DEC puts it in its list and stands at the next option start (44_message.md R162). -/
def optElement (dn ln : Nibble) (s : State) : Host.Outcome State Fault Refusal :=
  atPlace [.seqStart, .optStart] s fun sc =>
    if sc.place = .optStart then conclude sc s do
      let prev ← s.prev.get .prev
      let inp ← s.input.get .input
      let r ← optFields inp sc.pos prev dn ln
      .ok (s.endScan.putOption r)
    else advance sc s do
      let inp ← s.input.get .input
      let r ← optFields inp sc.pos sc.acc dn ln
      let opts ← pushOpt s.cap sc.pos sc.opts r.1 r.2.1
      .ok { sc with pos := sc.pos + r.2.2, acc := r.1, opts := opts }

/-- WIRE_OPT_DNIB15: F_DNIB15 (R123). -/
def execWireOptDnib15 (l : BitVec 4) (s : State) : Host.Outcome State Fault Refusal := optElement 15 l s

/-- WIRE_OPT_LNIB15: F_LNIB15 (R123). -/
def execWireOptLnib15 (d : BitVec 4) (s : State) : Host.Outcome State Fault Refusal := optElement d 15 s

/-- WIRE_OPT: one option (R122). -/
def execWireOpt (d l : BitVec 4) (s : State) : Host.Outcome State Fault Refusal := optElement d l s

/-- A nibble of NIB_DEC (41_varint.md R105) ends the walk with the raw value, F_NIB15 or T_EXT. -/
def nibbleElement (n : Nibble) (s : State) : Host.Outcome State Fault Refusal :=
  atPlace [.nibble] s fun sc => conclude sc s (nibDecFrom n s.endScan)

/-- NIBBLE_DIRECT (R102). -/
def execNibbleDirect (n : BitVec 4) (s : State) : Host.Outcome State Fault Refusal := nibbleElement n s

/-- NIBBLE_EXT1 (R102). -/
def execNibbleExt1 (s : State) : Host.Outcome State Fault Refusal := nibbleElement 13 s

/-- NIBBLE_EXT2 (R102). -/
def execNibbleExt2 (s : State) : Host.Outcome State Fault Refusal := nibbleElement 14 s

/-- NIBBLE_RSVD: F_NIB15 (R100, R105). -/
def execNibbleRsvd (s : State) : Host.Outcome State Fault Refusal := nibbleElement 15 s

end Sys2Proof.Machine
end

