-- ==== Sys2Proof/Machine/Dispatch.lean ====
section
/-! DEFINITION. Which meaning each instruction has: one arm per row of spec/opcode_table.json. -/

namespace Sys2Proof.Machine

open Sys2Proof

def exec (i : Instr) (s : State) : Host.Outcome State Fault Refusal :=
  match i with
  | .nibEnc => Sys2Proof.Machine.execNibEnc s
  | .nibDec => Sys2Proof.Machine.execNibDec s
  | .optEnc => Sys2Proof.Machine.execOptEnc s
  | .optDec => Sys2Proof.Machine.execOptDec s
  | .hdrEnc => Sys2Proof.Machine.execHdrEnc s
  | .hdrDec => Sys2Proof.Machine.execHdrDec s
  | .msgEnc => Sys2Proof.Machine.execMsgEnc s
  | .msgDec => Sys2Proof.Machine.execMsgDec s
  | .codeSplit => Sys2Proof.Machine.execCodeSplit s
  | .codeSetClass => Sys2Proof.Machine.execCodeSetClass s
  | .codeSetDetail => Sys2Proof.Machine.execCodeSetDetail s
  | .reservedRsv _ _ => Sys2Proof.Machine.execReservedRsv s
  | .reservedOpc00 => Sys2Proof.Machine.execReservedOpc00 s
  | .reservedOpc0C0F _ => Sys2Proof.Machine.execReservedOpc0C0F s
  | .reservedOpc101F _ => Sys2Proof.Machine.execReservedOpc101F s
  | .reservedOpc203F _ => Sys2Proof.Machine.execReservedOpc203F s
  | .reservedOpc407F _ => Sys2Proof.Machine.execReservedOpc407F s
  | .reservedOpc80FF _ => Sys2Proof.Machine.execReservedOpc80FF s
  | .wireHdrByte0 v t k => Sys2Proof.Machine.execWireHdrByte0 v t k s
  | .wireHdrTklRsvd9 v t => Sys2Proof.Machine.execWireHdrTklRsvd9 v t s
  | .wireHdrTklRsvd1011 v t k => Sys2Proof.Machine.execWireHdrTklRsvd1011 v t k s
  | .wireHdrTklRsvd1215 v t k => Sys2Proof.Machine.execWireHdrTklRsvd1215 v t k s
  | .wireHdrCode c d => Sys2Proof.Machine.execWireHdrCode c d s
  | .wireHdrMid m => Sys2Proof.Machine.execWireHdrMid m s
  | .wireMarker => Sys2Proof.Machine.execWireMarker s
  | .wireOptDnib15 l => Sys2Proof.Machine.execWireOptDnib15 l s
  | .wireOptLnib15 d => Sys2Proof.Machine.execWireOptLnib15 d s
  | .wireOpt d l => Sys2Proof.Machine.execWireOpt d l s
  | .nibbleDirect n => Sys2Proof.Machine.execNibbleDirect n s
  | .nibbleExt1 => Sys2Proof.Machine.execNibbleExt1 s
  | .nibbleExt2 => Sys2Proof.Machine.execNibbleExt2 s
  | .nibbleRsvd => Sys2Proof.Machine.execNibbleRsvd s

end Sys2Proof.Machine
end

