-- ==== Sys2Proof/Machine/HostAccess.lean ====
section
/-! DEFINITION. What the host's lines do (10_state.md R42; 70_reset_and_hazards.md R243; 30_encoding.md
R87): writes and reads of registers and stores, the write of CMD, and a reset between two lines (R241). -/

namespace Sys2Proof.Machine

open Sys2Proof

/-- A host write of a RW scalar register: the whole 32-bit value, never truncated (R24). -/
def State.setReg (s : State) (r : RegName) (v : Word) : State :=
  match r with
  | .arg => { s with arg := .holds v }
  | .num => { s with num := .holds v }
  | .prev => { s with prev := .holds v }
  | .cls => { s with cls := .holds v }
  | .detail => { s with detail := .holds v }
  | .ver => { s with ver := .holds v }
  | .typ => { s with typ := .holds v }
  | .code => { s with code := .holds v }
  | .mid => { s with mid := .holds v }

/-- A host write of a byte store, the whole sequence (R30; 20_memory.md R55). -/
def State.setStore (s : State) (b : StoreName) (v : Bytes) : State :=
  match b with
  | .input => { s with input := .holds v }
  | .token => { s with token := .holds v }
  | .payload => { s with payload := .holds v }

/-- The entry a store name stands for. -/
def StoreName.entry : StoreName → EntryName
  | .input => .input
  | .token => .token
  | .payload => .payload

/-- An option list within the instance's capacities (R40, R243). -/
def optsFit (cap : Config.Capacity) (l : List OptEntry) : Bool :=
  fitsOpts cap l.length && l.all fun o => fitsBuf cap o.val.length

/-- A value as the host sees it. -/
def Entry.toHost {α : Type} (f : α → HostValue) : Entry α → Entry HostValue
  | .holds v => .holds (f v)
  | .unwritten => .unwritten

/-- The value of an entry (R23). CMD holds none and its reading is refused before (R26). -/
def State.entry (s : State) : EntryName → Entry HostValue
  | .cmd => .unwritten
  | .status => .holds (.word s.status)
  | .errPos => .holds (.nat s.errPos)
  | .input => s.input.toHost .bytes
  | .inLen => s.inLen.toHost .nat
  | .out => s.out.toHost .bytes
  | .outLen => s.outLen.toHost .nat
  | .arg => s.arg.toHost .word
  | .num => s.num.toHost .word
  | .prev => s.prev.toHost .word
  | .res => s.res.toHost .word
  | .consumed => s.consumed.toHost .word
  | .cls => s.cls.toHost .word
  | .detail => s.detail.toHost .word
  | .ver => s.ver.toHost .word
  | .typ => s.typ.toHost .word
  | .code => s.code.toHost .word
  | .mid => s.mid.toHost .word
  | .token => s.token.toHost .bytes
  | .opts => s.opts.toHost .options
  | .payload => s.payload.toHost .bytes

/-- A host write of a RW register (R243): no side effect but the new value (R42). -/
def hostWrReg (r : RegName) (v : Word) (s : State) : Host.Outcome State Fault Refusal :=
  .next (s.setReg r v)

/-- A host write of a byte store: refused beyond MAX_BUF (R243). -/
def hostWrStore (b : StoreName) (v : Bytes) (s : State) : Host.Outcome State Fault Refusal :=
  if fitsBuf s.cap v.length then .next (s.setStore b v) else .refused (.beyondCapacity b.entry)

/-- A host write of OPTS: refused beyond MAX_OPTS or MAX_BUF (R243). -/
def hostWrOpts (l : List OptEntry) (s : State) : Host.Outcome State Fault Refusal :=
  if optsFit s.cap l then .next { s with opts := .holds l } else .refused (.beyondCapacity .opts)

/-- A host write of a RO entry has no effect (R42, I12). -/
def hostWrRo (s : State) : Host.Outcome State Fault Refusal := .next s

/-- A host write of CMD issues the command (R21, R26): the block's command step follows (R87). -/
def hostWrCmd (w : Word) (s : State) : Host.Outcome State Fault Refusal :=
  .next { s with cmd := some w }

/-- A host read (R25, R26, R59): the value is the host's; the block's state stays as it is. -/
def hostRd (e : EntryName) (s : State) : Host.Outcome State Fault Refusal :=
  if e = .cmd then .refused .cmdRead
  else match s.entry e with
    | .holds v => .next { s with reads := s.reads ++ [(e, v)] }
    | .unwritten => .fault (.unwrittenRead e)

/-- A reset between two steps (70_reset_and_hazards.md R240, R241): the block's state is the reset
state; the instance and the host are as they were. -/
def hostReset (s : State) : Host.Outcome State Fault Refusal :=
  .next { State.reset with cap := s.cap, host := s.host, reads := s.reads }

/-- One line of the host. -/
def hostStep (l : HostLine) (s : State) : Host.Outcome State Fault Refusal :=
  match l with
  | .wrReg r v => hostWrReg r v s
  | .wrStore b v => hostWrStore b v s
  | .wrOpts l => hostWrOpts l s
  | .wrRo _ _ => hostWrRo s
  | .wrCmd w => hostWrCmd w s
  | .rd e => hostRd e s
  | .reset => hostReset s

end Sys2Proof.Machine
end

