-- ==== Sys2Proof/Machine/Fetch.lean ====
section
/-! DEFINITION. What the machine does next: the next element of a walk in progress, else the command
whose word stands in CMD, else the host's next line (10_state.md R20, R21; 30_encoding.md R87). And how
a table word is put where the next step fetches it. -/

namespace Sys2Proof.Machine

open Sys2Proof

/-- What stands next. -/
inductive Fetched where
  /-- An instruction and the state it runs in. -/
  | run (i : Instr) (s : State)
  /-- A line of the host and the state it runs in. -/
  | line (l : HostLine) (s : State)
  /-- The walk ends here, with nothing to decode. -/
  | ended (o : Host.Outcome State Fault Refusal)
  /-- No command and no host line: the block holds its state (60_exceptions.md R221). -/
  | idle

/-- The next element of a walk, decoded by its position (R83); none where MSG_DEC's input ends at an
option start (44_message.md R165). -/
def nextElement (sc : Scan) (s : State) : Calc (Option Instr) :=
  match sc.place with
  | .cmd => .ok none
  | .hdr0 => do
    let inp ← s.input.get .input
    hdrPresent inp
    .ok (some (decodeHdr0 (byteAt inp sc.pos)))
  | .hdrCode => do
    let inp ← s.input.get .input
    hdrPresent inp
    .ok (some (decodeHdrCode (byteAt inp sc.pos)))
  | .hdrMid => do
    let inp ← s.input.get .input
    hdrPresent inp
    .ok (some (.wireHdrMid (hdrMid (byteAt inp sc.pos) (byteAt inp (sc.pos + 1)))))
  | .seqStart => do
    let inp ← s.input.get .input
    .ok (if sc.pos < inp.length then some (decodeSeqStart (byteAt inp sc.pos)) else none)
  | .optStart => do
    let _ ← s.prev.get .prev
    let inp ← s.input.get .input
    need (sc.pos + 1 ≤ inp.length) .tOptHdr sc.pos
    .ok (some (decodeOptStart (byteAt inp sc.pos)))
  | .nibble => do
    let a ← s.arg.get .arg
    need (a.toNat ≤ 15) .vNibble 0
    .ok (some (decodeNibble (a.extractLsb' 0 4)))

/-- The end of the input at an option start: MSG_DEC ends with no payload (R165). -/
def endOfInput (sc : Scan) (s : State) : Host.Outcome State Fault Refusal :=
  if sc.place = .seqStart then
    conclude sc s (.ok (s.endScan.putMessage sc.fields sc.token sc.opts []))
  else .refused .offPosition

/-- What a walk in progress does next. -/
def fetchElement (sc : Scan) (s : State) : Fetched :=
  match nextElement sc s with
  | .ok (some i) => .run i s
  | .ok none => .ended (endOfInput sc s)
  | .error e => .ended (advance sc s (.error e))

/-- What stands next. A command runs before the host's next access (R21), and CMD holds no value
afterwards (R26). -/
def fetch (s : State) : Fetched :=
  match s.scan with
  | some sc => fetchElement sc s
  | none =>
    match s.cmd with
    | some w => .run (decodeCmd w) { s with cmd := none }
    | none =>
      match s.host with
      | [] => .idle
      | l :: ls => .line l { s with host := ls }

/-- An unwritten entry is given `v`; a written one keeps its value. -/
def Entry.orElse {α : Type} (v : α) : Entry α → Entry α
  | .holds w => .holds w
  | .unwritten => .holds v

/-- The host's boot duty for one input (70_reset_and_hazards.md R244), an unwritten entry being given
zero bytes, zero or the empty list. DESIGN CHOICE, used by `withFetchWord` only (log 10). -/
def State.bootInput (s : State) : EntryName → State
  | .input => { s with input := s.input.orElse [0, 0, 0, 0] }
  | .arg => { s with arg := s.arg.orElse 0 }
  | .num => { s with num := s.num.orElse 0 }
  | .prev => { s with prev := s.prev.orElse 0 }
  | .cls => { s with cls := s.cls.orElse 0 }
  | .detail => { s with detail := s.detail.orElse 0 }
  | .ver => { s with ver := s.ver.orElse 0 }
  | .typ => { s with typ := s.typ.orElse 0 }
  | .code => { s with code := s.code.orElse 0 }
  | .mid => { s with mid := s.mid.orElse 0 }
  | .token => { s with token := s.token.orElse [] }
  | .opts => { s with opts := s.opts.orElse [] }
  | .payload => { s with payload := s.payload.orElse [] }
  | .cmd | .status | .errPos | .inLen | .out | .outLen | .res | .consumed => s

/-- A run of zero bytes. -/
def zeros (n : Nat) : Bytes := List.replicate n 0

/-- A byte of the wire grammar at its position in an IN of zeros, and the walk that stands there. The
273 zero bytes after an option's first byte hold its extensions and value, at most 4 + 269. -/
def placeByte (p : Position) (b : Byte) (s : State) : State :=
  match p with
  | .hdr0 => { s with input := .holds (b :: zeros 3), scan := some (Scan.start .msgDec) }
  | .hdrCode => { s with
      input := .holds (0 :: b :: zeros 2)
      scan := some { Scan.start .msgDec with place := .hdrCode, pos := 1 } }
  | .optStart => { s.bootInput .prev with
      input := .holds (b :: zeros 273)
      scan := some (Scan.start .optDec) }
  | .seqStart | .cmd | .hdrMid | .nibble => { s with
      input := .holds (zeros 4 ++ b :: zeros 273)
      scan := some { Scan.start .msgDec with place := .seqStart, pos := 4 } }

/-- The unit of code `u` of an instruction at the position `p`, put where the next step fetches it: a
word in CMD, an element of the wire grammar in IN under a walk that stands at it, a nibble in ARG. -/
def placeUnit (i : Instr) (u : CodeUnit) (s : State) : State :=
  match u with
  | .word w => { (commandInputs i).foldl State.bootInput s with cmd := some w, scan := none }
  | .byte b => placeByte i.position b s
  | .half h => { s with
      input := .holds [0, 0, h.extractLsb' 8 8, h.extractLsb' 0 8]
      scan := some { Scan.start .msgDec with place := .hdrMid, pos := 2 } }
  | .nibble n => { s with
      arg := .holds (zext32 n)
      input := .holds (zeros 2)
      scan := some (Scan.start .nibDec) }

end Sys2Proof.Machine
end

