-- ==== Sys2Proof/Machine/Step.lean ====
section
/-! DEFINITION. One step of the machine: it runs what `fetch` finds next. -/

namespace Sys2Proof.Machine

open Sys2Proof

/-- One step: an element of a walk, a command (one atomic step, 10_state.md R21), or a host line; with
none of them the block holds its state (60_exceptions.md R221, 70_reset_and_hazards.md R241). -/
def step (s : State) : Host.Outcome State Fault Refusal :=
  match fetch s with
  | .run i t => exec i t
  | .line l t => hostStep l t
  | .ended o => o
  | .idle => .next s

/-- `s` with the table word put where the next step fetches it (log 10). -/
def State.withFetchWord (s : State) (nbits w : Nat) : State :=
  match decodeTableWord nbits w with
  | some i => placeUnit i (encode i) s
  | none => s

end Sys2Proof.Machine
end

