-- ==== Sys2Proof/Safety.lean ====
section
/-! DEFINITION. What counts as a good state and a safe run, in the terms the statements use. -/

namespace Sys2Proof.Machine

open Sys2Proof

/-- A property of the value an entry holds; an unwritten entry has it. -/
def Entry.all {α : Type} (p : α → Bool) : Entry α → Bool
  | .unwritten => true
  | .holds v => p v

/-- A bounded instance has MAX_BUF at least 4 (00_scope.md R7). -/
def capacityLegal (c : Config.Capacity) : Bool := fitsBuf c 4

/-- The well-formedness of the block's memory, its byte stores and option list: each is within the
instance's capacity (00_scope.md R7; 10_state.md R23), what a walk has read so far included. -/
def Memory.wf (s : State) : Bool :=
  s.input.all (fun b => fitsBuf s.cap b.length) &&
  s.out.all (fun b => fitsBuf s.cap b.length) &&
  s.token.all (fun b => fitsBuf s.cap b.length) &&
  s.payload.all (fun b => fitsBuf s.cap b.length) &&
  s.opts.all (optsFit s.cap) &&
  match s.scan with
  | none => true
  | some sc => fitsBuf s.cap sc.token.length && optsFit s.cap sc.opts

/-- The "pos" column of 60_exceptions.md R202, where it is one number: the ERR_POS every command records
with this cause. The other causes record an offset in IN or an index in the sorted options. -/
def Cause.fixedPos : Cause → Option Nat
  | .vVersion | .vType | .vCode | .vMid | .vTkl | .vDeltaNeg | .vRaw | .vNibble | .vClass | .vDetail => some 0
  | .fTkl | .fNib15 | .tHeader | .tOptHdr | .tExt => some 0
  | .tToken => some 4
  | .cOut | .xRsvdBits | .xOpcode => some 0
  | .vVlen | .vDelta => none
  | .fDnib15 | .fLnib15 | .fEmptyPayload | .fNumOvf | .tDext | .tLext | .tValue | .cOpts => none

/-- A position is one that R202 lets the cause record. -/
def Cause.posLegal (c : Cause) (pos : Nat) : Prop := ∀ p, c.fixedPos = some p → pos = p

/-- STATUS and ERR_POS are what reset, a success or one of the causes of 60_exceptions.md R202 leaves:
10_state.md R28's combinations, and ERR_POS is 0 but after an error (R29), where it is the position the
cause fixes, if it fixes one. -/
def State.statusLegal (s : State) : Prop :=
  ((s.status = 0 ∨ s.status = statusDone) ∧ s.errPos = 0) ∨
    ∃ c : Cause, s.status = c.status ∧ c.posLegal s.errPos

/-- A walk in progress stands where the command that walks can stand: POS is the offset of the element
at its place, and at an option start it is within IN (10_state.md R43). -/
def State.scanLegal (s : State) : Prop :=
  match s.scan with
  | none => True
  | some sc =>
    match sc.place with
    | .cmd => False
    | .hdr0 => (sc.walk = .hdrDec ∨ sc.walk = .msgDec) ∧ sc.pos = 0
    | .hdrCode => (sc.walk = .hdrDec ∨ sc.walk = .msgDec) ∧ sc.pos = 1
    | .hdrMid => (sc.walk = .hdrDec ∨ sc.walk = .msgDec) ∧ sc.pos = 2
    | .seqStart => sc.walk = .msgDec ∧ ∃ inp, s.input = .holds inp ∧ sc.pos ≤ inp.length
    | .optStart => sc.walk = .optDec ∧ sc.pos = 0
    | .nibble => sc.walk = .nibDec

/-- `n` steps in a row, ending at the first fault or refusal. -/
def runSteps : Nat → State → Host.Outcome State Fault Refusal
  | 0, s => .next s
  | n + 1, s =>
    match step s with
    | .next t => runSteps n t
    | .fault f => .fault f
    | .refused r => .refused r

/-- Every input of the command is written (70_reset_and_hazards.md R244). -/
def inputsWritten (i : Instr) (s : State) : Prop := ∀ e ∈ commandInputs i, s.entry e ≠ .unwritten

end Sys2Proof.Machine
end

