-- ==== Sys2Proof/Certificates/Slice0/Obligations.lean ====
section
/-! DEFINITION. The statements about the block, for the provers: encodings, the result of every command
and every element, the round trips, the frames, the invariants, and that the walk of a decode command
over IN equals the command. Each docstring names the rules of spec/ it rests on. -/

open Sys2Proof Sys2Proof.Machine

/-! ### Reset and the encodings -/

/-- Reset (70_reset_and_hazards.md R240): STATUS and ERR_POS are 0, every other entry of R23 is
unwritten, and no hidden state exists. -/
def Obligations.ResetState : Prop :=
  State.reset.status = 0 ∧ State.reset.errPos = 0 ∧
  (∀ e : EntryName, e ≠ .status → e ≠ .errPos → State.reset.entry e = .unwritten) ∧
  State.reset.scan = none

/-- The opcode assignment (30_encoding.md R71, R72): a command word selects a command exactly when it is
the command's word of the table, `zext_32(OPC)`. -/
def Obligations.CommandWordsDecode : Prop :=
  ∀ w : Word,
    (decodeCmd w = .nibEnc ↔ w = 0x00000001) ∧ (decodeCmd w = .nibDec ↔ w = 0x00000002) ∧
    (decodeCmd w = .optEnc ↔ w = 0x00000003) ∧ (decodeCmd w = .optDec ↔ w = 0x00000004) ∧
    (decodeCmd w = .hdrEnc ↔ w = 0x00000005) ∧ (decodeCmd w = .hdrDec ↔ w = 0x00000006) ∧
    (decodeCmd w = .msgEnc ↔ w = 0x00000007) ∧ (decodeCmd w = .msgDec ↔ w = 0x00000008) ∧
    (decodeCmd w = .codeSplit ↔ w = 0x00000009) ∧ (decodeCmd w = .codeSetClass ↔ w = 0x0000000A) ∧
    (decodeCmd w = .codeSetDetail ↔ w = 0x0000000B)

/-- Reserved command words (30_encoding.md R73; 60_exceptions.md R206): bits 31:8 not all 0 raise
X_RSVD_BITS, checked first; else OPC 0x00 or 0x0C to 0xFF raises X_OPCODE. No input is read and only
STATUS and ERR_POS are written. So says every such word's instruction, and every reserved row. -/
def Obligations.ReservedWordsRaise : Prop :=
  ∀ s : State,
    (∀ w : Word, 256 ≤ w.toNat → exec (decodeCmd w) s = .next { s with status := 0x15, errPos := 0 }) ∧
    (∀ w : Word, w.toNat = 0 ∨ (12 ≤ w.toNat ∧ w.toNat < 256) →
      exec (decodeCmd w) s = .next { s with status := 0x25, errPos := 0 }) ∧
    (∀ r o, exec (.reservedRsv r o) s = .next { s with status := 0x15, errPos := 0 }) ∧
    exec .reservedOpc00 s = .next { s with status := 0x25, errPos := 0 } ∧
    (∀ o, exec (.reservedOpc0C0F o) s = .next { s with status := 0x25, errPos := 0 }) ∧
    (∀ o, exec (.reservedOpc101F o) s = .next { s with status := 0x25, errPos := 0 }) ∧
    (∀ o, exec (.reservedOpc203F o) s = .next { s with status := 0x25, errPos := 0 }) ∧
    (∀ o, exec (.reservedOpc407F o) s = .next { s with status := 0x25, errPos := 0 }) ∧
    ∀ o, exec (.reservedOpc80FF o) s = .next { s with status := 0x25, errPos := 0 }

/-- Decode and encode agree: the unit of code of every well-formed row decodes, at the row's position,
to that row with every field (spec/opcode_table.json; 30_encoding.md R71-R84). -/
def Obligations.DecodeEncode : Prop :=
  ∀ i : Instr, i.wellFormed = true → decode i.position (encode i) = .ok i

/-- No bit is dropped: whatever a unit decodes to at a position is well formed and encodes back to that
unit, so no two units of a position decode alike (30_encoding.md R71-R85). -/
def Obligations.EncodeDecode : Prop :=
  ∀ (p : Position) (u : CodeUnit) (i : Instr), decode p u = .ok i → i.wellFormed = true ∧ encode i = u

/-- Words written out from the encodings of the spec decode to the rows they stand for: two command
words (R72), three reserved words (R73; CW2, CW4), header bytes (R75-R77; S1, MD15), option bytes
(R79, R84; S1, MD17), the marker (R82) and the nibbles (R80). -/
def Obligations.DecodeWords : Prop :=
  decode .cmd (.word 0x00000007) = .ok .msgEnc ∧
  decode .cmd (.word 0x0000000B) = .ok .codeSetDetail ∧
  decode .cmd (.word 0x0000000C) = .ok (.reservedOpc0C0F 0) ∧
  decode .cmd (.word 0x000000FF) = .ok (.reservedOpc80FF 0x7F) ∧
  decode .cmd (.word 0x00000107) = .ok (.reservedRsv 0x000001 0x07) ∧
  decode .hdr0 (.byte 0x62) = .ok (.wireHdrByte0 1 2 2) ∧
  decode .hdr0 (.byte 0x49) = .ok (.wireHdrTklRsvd9 1 0) ∧
  decode .hdrCode (.byte 0x45) = .ok (.wireHdrCode 2 5) ∧
  decode .hdrMid (.half 0x1234) = .ok (.wireHdrMid 0x1234) ∧
  decode .seqStart (.byte 0xB1) = .ok (.wireOpt 11 1) ∧
  decode .seqStart (.byte 0xFE) = .ok (.wireOptDnib15 14) ∧
  decode .seqStart (.byte 0xFF) = .ok .wireMarker ∧
  decode .optStart (.byte 0xFF) = .ok (.wireOptDnib15 15) ∧
  decode .seqStart (.byte 0xDF) = .ok (.wireOptLnib15 13) ∧
  decode .nibble (.nibble 12) = .ok (.nibbleDirect 12) ∧
  decode .nibble (.nibble 14) = .ok .nibbleExt2

/-- A step runs what stands next: the element of a walk decoded at POS by its position (10_state.md R43;
30_encoding.md R83), else the command of the word in CMD, which CMD then no longer holds (R21, R26), else
the host's next line (R87; a write of CMD leaves the word for the block's next step, R88), else nothing
(60_exceptions.md R221). -/
def Obligations.StepRunsNext : Prop :=
  ∀ s : State,
    (∀ sc inp, s.scan = some sc → s.input = .holds inp →
      (sc.place = .hdr0 → 4 ≤ inp.length → step s = exec (decodeHdr0 (byteAt inp sc.pos)) s) ∧
      (sc.place = .hdrCode → 4 ≤ inp.length → step s = exec (decodeHdrCode (byteAt inp sc.pos)) s) ∧
      (sc.place = .hdrMid → 4 ≤ inp.length →
        step s = exec (.wireHdrMid (byteAt inp sc.pos ++ byteAt inp (sc.pos + 1))) s) ∧
      (sc.place = .seqStart → sc.pos < inp.length →
        step s = exec (decodeSeqStart (byteAt inp sc.pos)) s) ∧
      (∀ p, sc.place = .optStart → s.prev = .holds p → sc.pos < inp.length →
        step s = exec (decodeOptStart (byteAt inp sc.pos)) s)) ∧
    (∀ sc a, s.scan = some sc → sc.place = .nibble → s.arg = .holds a → a.toNat ≤ 15 →
      step s = exec (decodeNibble (a.setWidth 4)) s) ∧
    (∀ w, s.scan = none → s.cmd = some w → step s = exec (decodeCmd w) { s with cmd := none }) ∧
    (∀ l ls, s.scan = none → s.cmd = none → s.host = l :: ls →
      step s = hostStep l { s with host := ls }) ∧
    (∀ w ls, s.scan = none → s.cmd = none → s.host = .wrCmd w :: ls →
      step s = .next { s with host := ls, cmd := some w }) ∧
    (s.scan = none → s.cmd = none → s.host = [] → step s = .next s)

/-! ### The variable-length integer code -/

/-- NIB_ENC (41_varint.md R104, with R101): the nibble in RES and the extension bytes in OUT, or V_RAW;
nothing else but STATUS and ERR_POS changes. -/
def Obligations.NibEncResult : Prop :=
  decodeCmd 0x00000001 = .nibEnc ∧ ∀ (s : State) (a : Word), s.arg = .holds a →
    (a.toNat ≤ 12 → exec .nibEnc s = .next { s with
      res := .holds a, out := .holds [], status := 0x100, errPos := 0 }) ∧
    (13 ≤ a.toNat → a.toNat ≤ 268 → exec .nibEnc s = .next { s with
      res := .holds 13, out := .holds [BitVec.ofNat 8 (a.toNat - 13)], status := 0x100, errPos := 0 }) ∧
    (269 ≤ a.toNat → a.toNat ≤ 65804 → exec .nibEnc s = .next { s with
      res := .holds 14
      out := .holds [BitVec.ofNat 8 ((a.toNat - 269) / 256), BitVec.ofNat 8 ((a.toNat - 269) % 256)]
      status := 0x100, errPos := 0 }) ∧
    (65804 < a.toNat → exec .nibEnc s = .next { s with
      res := .unwritten, out := .holds [], status := 0x91, errPos := 0 })

/-- NIB_DEC (R105, with R100, R102): the raw value in RES and the extension's length in CONSUMED, or
V_NIBBLE, F_NIB15 or T_EXT; a nibble 0 to 12 does not read IN, unwritten or not. -/
def Obligations.NibDecResult : Prop :=
  decodeCmd 0x00000002 = .nibDec ∧ ∀ (s : State) (a : Word), s.arg = .holds a →
    (a.toNat ≤ 12 → exec .nibDec s = .next { s with
      res := .holds a, consumed := .holds 0, status := 0x100, errPos := 0 }) ∧
    (∀ b rest, a = 13 → s.input = .holds (b :: rest) → exec .nibDec s = .next { s with
      res := .holds (BitVec.ofNat 32 (b.toNat + 13)), consumed := .holds 1
      status := 0x100, errPos := 0 }) ∧
    (∀ b c rest, a = 14 → s.input = .holds (b :: c :: rest) → exec .nibDec s = .next { s with
      res := .holds (BitVec.ofNat 32 (b.toNat * 256 + c.toNat + 269)), consumed := .holds 2
      status := 0x100, errPos := 0 }) ∧
    (15 < a.toNat → exec .nibDec s = .next { s with
      res := .unwritten, consumed := .unwritten, status := 0xA1, errPos := 0 }) ∧
    (a = 15 → exec .nibDec s = .next { s with
      res := .unwritten, consumed := .unwritten, status := 0x62, errPos := 0 }) ∧
    (∀ inp, s.input = .holds inp → (a = 13 ∧ inp.length < 1) ∨ (a = 14 ∧ inp.length < 2) →
      exec .nibDec s = .next { s with
        res := .unwritten, consumed := .unwritten, status := 0x73, errPos := 0 })

/-- The nibble code is a bijection (R103): between the raw values 0 to 65804 and the nibbles 0 to 14 with
their extension bytes, nibbles 0 to 12, 13 and 14 covering 0 to 12, 13 to 268 and 269 to 65804. -/
def Obligations.NibBijection : Prop :=
  (∀ raw, raw ≤ 65804 →
    (nibEncode raw).1 ≠ 15 ∧ (nibEncode raw).2.length = extLen (nibEncode raw).1 ∧
    nibDecode (nibEncode raw).1 (nibEncode raw).2 = raw ∧
    (nibEncode raw).2.length = if raw ≤ 12 then 0 else if raw ≤ 268 then 1 else 2) ∧
  (∀ (n : Nibble) (e : Bytes), n ≠ 15 → e.length = extLen n →
    nibEncode (nibDecode n e) = (n, e) ∧
    (n.toNat ≤ 12 → nibDecode n e = n.toNat) ∧
    (n = 13 → 13 ≤ nibDecode n e ∧ nibDecode n e ≤ 268) ∧
    (n = 14 → 269 ≤ nibDecode n e ∧ nibDecode n e ≤ 65804))

/-! ### The option codec -/

/-- OPT_ENC (42_option.md R128, R121, R120): the option's bytes in OUT, or the first error of R211's
order, with OUT empty; nothing else but STATUS and ERR_POS changes, PREV included. -/
def Obligations.OptEncResult : Prop :=
  decodeCmd 0x00000003 = .optEnc ∧ ∀ (s : State) (n p : Word) (v : Bytes), s.num = .holds n → s.prev = .holds p → s.input = .holds v →
    let d := nibEncode (n.toNat - p.toNat)
    let l := nibEncode v.length
    let bytes := (d.1 ++ l.1) :: (d.2 ++ l.2 ++ v)
    exec .optEnc s = .next
      (if n.toNat < p.toNat then { s with out := .holds [], status := 0x81, errPos := 0 }
      else if 65804 < n.toNat - p.toNat then { s with out := .holds [], status := 0x71, errPos := 0 }
      else if 65804 < v.length then { s with out := .holds [], status := 0x61, errPos := 0 }
      else if fitsBuf s.cap bytes.length = false then
        { s with out := .holds [], status := 0x14, errPos := 0 }
      else { s with out := .holds bytes, status := 0x100, errPos := 0 })

/-- Single-option round trip (R130): the bytes of an option, whatever follows them, decode to its number,
its value and their length; and a decoded option is re-encoded to the bytes it was read from. -/
def Obligations.OptRoundTrip : Prop :=
  (∀ (num prev : Word) (val tail : Bytes) (i : Nat),
    prev.toNat ≤ num.toNat → num.toNat - prev.toNat ≤ 65804 → val.length ≤ 65804 →
    ∃ bs, optEncode num prev val i = .ok bs ∧
      optDecodeAt (bs ++ tail) 0 prev = .ok (num, val, bs.length)) ∧
  ∀ (inp : Bytes) (p : Nat) (prev num : Word) (val : Bytes) (n i : Nat),
    optDecodeAt inp p prev = .ok (num, val, n) →
    1 ≤ n ∧ p + n ≤ inp.length ∧ optEncode num prev val i = .ok (memRead inp p n)

/-- OPT_DEC (42_option.md R124, with R129): the delta extension directly after the first byte, then the
length extension, then the value; bytes after it are ignored. NUM, OUT, CONSUMED, STATUS and ERR_POS
alone are written. -/
def Obligations.OptDecResult : Prop :=
  ∀ (s : State) (p : Word) (dn ln : Nibble) (dx lx val rest : Bytes),
    dn ≠ 15 → ln ≠ 15 → dx.length = extLen dn → lx.length = extLen ln →
    val.length = nibDecode ln lx → p.toNat + nibDecode dn dx < 2 ^ 32 →
    s.prev = .holds p → s.input = .holds ((dn ++ ln) :: (dx ++ lx ++ val ++ rest)) →
    exec .optDec s = .next { s with
      num := .holds (BitVec.ofNat 32 (p.toNat + nibDecode dn dx))
      out := .holds val
      consumed := .holds (BitVec.ofNat 32 (1 + extLen dn + extLen ln + val.length))
      status := 0x100, errPos := 0 }

/-- OPT_DEC is `opt_dec_at(0, PREV)` (R129): it writes the number, the value and the byte count, or, on an
error, NUM and CONSUMED are unwritten and OUT is empty. -/
def Obligations.OptDecCommand : Prop :=
  decodeCmd 0x00000004 = .optDec ∧
  ∀ (s : State) (p : Word) (inp : Bytes), s.prev = .holds p → s.input = .holds inp →
    (∀ num val n, optDecodeAt inp 0 p = .ok (num, val, n) → exec .optDec s = .next { s with
      num := .holds num, out := .holds val, consumed := .holds (BitVec.ofNat 32 n)
      status := 0x100, errPos := 0 }) ∧
    ∀ c pos, optDecodeAt inp 0 p = .error (.err c pos) → exec .optDec s = .next { s with
      num := .unwritten, out := .holds [], consumed := .unwritten, status := c.status, errPos := pos }

/-- Nibble value 15 (R123): the delta nibble is checked first and the length nibble second, before any
extension byte is read; 0xFF is an option's first byte with delta nibble 15 for `opt_dec_at`, and the
marker for the message sequencer, which tests it before. -/
def Obligations.OptDecNibble15 : Prop :=
  (∀ (inp : Bytes) (p : Nat) (prev : Word) (b : Byte), inp[p]? = some b →
    (b.toNat / 16 = 15 → optDecodeAt inp p prev = .error (.err .fDnib15 p)) ∧
    (b.toNat / 16 ≠ 15 → b.toNat % 16 = 15 → optDecodeAt inp p prev = .error (.err .fLnib15 p))) ∧
  (∀ (cap : Config.Capacity) (inp : Bytes) (left p : Nat) (acc : Word) (os : List OptEntry),
    inp[p]? = some 0xFF → p + 1 < inp.length →
    seqDecode cap inp (left + 1) p acc os = .ok (os, inp.drop (p + 1)))

/-- Truncation (R125, with R122): each part is checked to be present before it is read; the cause names
the part that is short and the position is the offset where it starts. -/
def Obligations.OptDecTruncation : Prop :=
  ∀ (inp : Bytes) (p : Nat) (prev : Word),
    (inp.length ≤ p → optDecodeAt inp p prev = .error (.err .tOptHdr p)) ∧
    ∀ b : Byte, inp[p]? = some b →
      let dn := b.extractLsb' 4 4
      let ln := b.extractLsb' 0 4
      let q := p + 1 + extLen dn
      let r := q + extLen ln
      dn ≠ 15 → ln ≠ 15 →
      (inp.length < q → optDecodeAt inp p prev = .error (.err .tDext (p + 1))) ∧
      (q ≤ inp.length → prev.toNat + nibDecode dn (memRead inp (p + 1) (extLen dn)) < 2 ^ 32 →
        (inp.length < r → optDecodeAt inp p prev = .error (.err .tLext q)) ∧
        (r ≤ inp.length → inp.length < r + nibDecode ln (memRead inp q (extLen ln)) →
          optDecodeAt inp p prev = .error (.err .tValue r)))

/-- Number reconstruction (R126): a decoded number is the previous one plus the decoded delta, exactly as
naturals; the delta is 0 to 65804, so decoded numbers never decrease. -/
def Obligations.OptDecNumber : Prop :=
  ∀ (inp : Bytes) (p : Nat) (prev num : Word) (val : Bytes) (n : Nat),
    optDecodeAt inp p prev = .ok (num, val, n) →
    let dn := (byteAt inp p).extractLsb' 4 4
    let delta := nibDecode dn (memRead inp (p + 1) (extLen dn))
    num.toNat = prev.toNat + delta ∧ delta ≤ 65804 ∧ prev.toNat ≤ num.toNat

/-- Option number width (R127): a number above 2^32 - 1 raises F_NUM_OVF at the option's first byte,
after the delta is known and before the length extension is read. -/
def Obligations.OptDecOverflow : Prop :=
  ∀ (inp : Bytes) (p : Nat) (prev : Word) (b : Byte), inp[p]? = some b →
    b.extractLsb' 4 4 ≠ 15 → b.extractLsb' 0 4 ≠ 15 →
    p + 1 + extLen (b.extractLsb' 4 4) ≤ inp.length →
    2 ^ 32 ≤ prev.toNat +
      nibDecode (b.extractLsb' 4 4) (memRead inp (p + 1) (extLen (b.extractLsb' 4 4))) →
    optDecodeAt inp p prev = .error (.err .fNumOvf p)

/-! ### The fixed header -/

/-- HDR_ENC (43_header.md R144, R140, R141): the four header bytes in OUT, or the first field out of
range in R141's order, with OUT empty. -/
def Obligations.HdrEncResult : Prop :=
  decodeCmd 0x00000005 = .hdrEnc ∧
  ∀ (s : State) (ver typ code mid : Word) (token : Bytes), s.ver = .holds ver → s.typ = .holds typ →
    s.code = .holds code → s.mid = .holds mid → s.token = .holds token →
    exec .hdrEnc s = .next
      (if 3 < ver.toNat then { s with out := .holds [], status := 0x11, errPos := 0 }
      else if 3 < typ.toNat then { s with out := .holds [], status := 0x21, errPos := 0 }
      else if 255 < code.toNat then { s with out := .holds [], status := 0x31, errPos := 0 }
      else if 65535 < mid.toNat then { s with out := .holds [], status := 0x41, errPos := 0 }
      else if 8 < token.length then { s with out := .holds [], status := 0x51, errPos := 0 }
      else { s with
        out := .holds [BitVec.ofNat 8 (ver.toNat * 64 + typ.toNat * 16 + token.length),
          BitVec.ofNat 8 code.toNat, BitVec.ofNat 8 (mid.toNat / 256), BitVec.ofNat 8 (mid.toNat % 256)]
        status := 0x100, errPos := 0 })

/-- HDR_DEC (R145, R142, R143, R146): version, type, code and message ID are written unchecked and RES is
the token length; fewer than four bytes raise T_HEADER, then a token length 9 to 15 raises F_TKL. -/
def Obligations.HdrDecResult : Prop :=
  decodeCmd 0x00000006 = .hdrDec ∧ ∀ (s : State) (inp : Bytes), s.input = .holds inp →
    (inp.length < 4 → exec .hdrDec s = .next { s with
      ver := .unwritten, typ := .unwritten, code := .unwritten, mid := .unwritten, res := .unwritten
      status := 0x13, errPos := 0 }) ∧
    (∀ b c h l rest, inp = b :: c :: h :: l :: rest → exec .hdrDec s = .next
      (if 8 < b.toNat % 16 then { s with
        ver := .unwritten, typ := .unwritten, code := .unwritten, mid := .unwritten, res := .unwritten
        status := 0x42, errPos := 0 }
      else { s with
        ver := .holds (BitVec.ofNat 32 (b.toNat / 64)), typ := .holds (BitVec.ofNat 32 (b.toNat / 16 % 4))
        code := .holds (BitVec.ofNat 32 c.toNat), mid := .holds (BitVec.ofNat 32 (h.toNat * 256 + l.toNat))
        res := .holds (BitVec.ofNat 32 (b.toNat % 16)), status := 0x100, errPos := 0 }))

/-- A header that HDR_ENC packs is unpacked by HDR_DEC to the same fields, RES being |TOKEN| (R140, R142,
R144, R145). -/
def Obligations.HdrRoundTrip : Prop :=
  ∀ (s t : State) (token : Bytes), s.token = .holds token → exec .hdrEnc s = .next t →
    t.status = statusDone →
    exec .hdrDec { t with input := t.out } =
      .next { t with input := t.out, res := .holds (BitVec.ofNat 32 token.length) }

/-! ### The code accessors -/

/-- CODE_SPLIT (45_code.md R191). -/
def Obligations.CodeSplitResult : Prop :=
  decodeCmd 0x00000009 = .codeSplit ∧ ∀ (s : State) (c : Word), s.code = .holds c →
    (c.toNat ≤ 255 → exec .codeSplit s = .next { s with
      cls := .holds (BitVec.ofNat 32 (c.toNat / 32)), detail := .holds (BitVec.ofNat 32 (c.toNat % 32))
      status := 0x100, errPos := 0 }) ∧
    (255 < c.toNat → exec .codeSplit s = .next { s with
      cls := .unwritten, detail := .unwritten, status := 0x31, errPos := 0 })

/-- CODE_SET_CLASS (R192): the old CODE keeps bits 4:0 only, whatever it held, and is not read when the
CLASS check fails. -/
def Obligations.CodeSetClassResult : Prop :=
  decodeCmd 0x0000000A = .codeSetClass ∧ ∀ (s : State) (k : Word), s.cls = .holds k →
    (∀ c, s.code = .holds c → k.toNat ≤ 7 → exec .codeSetClass s = .next { s with
      code := .holds (BitVec.ofNat 32 (k.toNat * 32 + c.toNat % 32)), status := 0x100, errPos := 0 }) ∧
    (7 < k.toNat → exec .codeSetClass s = .next { s with
      code := .unwritten, status := 0xB1, errPos := 0 })

/-- CODE_SET_DETAIL (R193): the old CODE keeps bits 7:5 only, whatever it held. -/
def Obligations.CodeSetDetailResult : Prop :=
  decodeCmd 0x0000000B = .codeSetDetail ∧ ∀ (s : State) (d : Word), s.detail = .holds d →
    (∀ c, s.code = .holds c → d.toNat ≤ 31 → exec .codeSetDetail s = .next { s with
      code := .holds (BitVec.ofNat 32 (c.toNat / 32 % 8 * 32 + d.toNat)), status := 0x100, errPos := 0 }) ∧
    (31 < d.toNat → exec .codeSetDetail s = .next { s with
      code := .unwritten, status := 0xC1, errPos := 0 })

/-- Class and detail of a code (R190): splitting and recombining are inverse to each other. -/
def Obligations.CodeFields : Prop :=
  (∀ c : Word, c.toNat ≤ 255 →
    (codeClass c).toNat = c.toNat / 32 ∧ (codeClass c).toNat ≤ 7 ∧
    (codeDetail c).toNat = c.toNat % 32 ∧ (codeDetail c).toNat ≤ 31 ∧
    codeJoin (codeClass c) (codeDetail c) = c) ∧
  (∀ k d : Word, k.toNat ≤ 7 → d.toNat ≤ 31 →
    codeClass (codeJoin k d) = k ∧ codeDetail (codeJoin k d) = d)

/-- The two setters commute when both succeed, and each leaves the other field as it was (R194): in either
order CODE is `(k << 5) | d`. -/
def Obligations.CodeSettersCommute : Prop :=
  ∀ (s : State) (k d c : Word), s.cls = .holds k → s.detail = .holds d → s.code = .holds c →
    k.toNat ≤ 7 → d.toNat ≤ 31 →
    ∃ t u v, exec .codeSetClass s = .next t ∧ exec .codeSetDetail t = .next v ∧
      exec .codeSetDetail s = .next u ∧ exec .codeSetClass u = .next v ∧
      v.code = .holds (k <<< 5 ||| d) ∧
      (∃ x, t.code = .holds x ∧ codeDetail x = codeDetail c) ∧
      ∃ y, u.code = .holds y ∧ codeClass y = codeClass c

/-! ### The message codec -/

/-- The stable sort (00_scope.md R13): a permutation in ascending order of number, in which the entries
of one number keep their order. -/
def Obligations.SortStable : Prop :=
  ∀ l : List OptEntry,
    (sortOpts l).Perm l ∧ (sortOpts l).Pairwise (fun a b => a.num.toNat ≤ b.num.toNat) ∧
    ∀ n : Word, (sortOpts l).filter (fun o => o.num == n) = l.filter (fun o => o.num == n)

/-- `opts_validate` (44_message.md R167): it reports the first option, in sorted order, whose delta or
value is too large, and the delta before the value length; it passes when there is none. -/
def Obligations.OptsValidateFirst : Prop :=
  ∀ l : List OptEntry,
    let delta (i : Nat) (o : OptEntry) : Nat :=
      o.num.toNat - ((((⟨0, []⟩ : OptEntry) :: l)[i]?).elim 0 fun q => q.num.toNat)
    let good (i : Nat) (o : OptEntry) : Prop := delta i o ≤ 65804 ∧ o.val.length ≤ 65804
    (optsValidate 0 0 l = .ok () ↔ ∀ i o, l[i]? = some o → good i o) ∧
    ∀ i o, l[i]? = some o → (∀ j q, j < i → l[j]? = some q → good j q) →
      (65804 < delta i o → optsValidate 0 0 l = .error (.err .vDelta i)) ∧
      (delta i o ≤ 65804 → 65804 < o.val.length → optsValidate 0 0 l = .error (.err .vVlen i))

/-- Once the sorted options have passed `opts_validate`, no `opt_enc` of `seq_enc` raises an error
(R161, R167). -/
def Obligations.SeqEncodeNeverFails : Prop :=
  ∀ l : List OptEntry, optsValidate 0 0 (sortOpts l) = .ok () →
    ∃ body, seqEncode 0 0 (sortOpts l) = .ok body

/-- MSG_ENC completes (44_message.md R166, R170): when the header is in range, the token has at most 8
bytes, every sorted delta and every value length is at most 65804 and the output fits MAX_BUF, OUT is the
header, the token, the options and, if there is a payload, the marker and it. OPTS keeps its order. -/
def Obligations.MsgEncResult : Prop :=
  ∀ (s : State) (ver typ code mid : Word) (token payload body : Bytes) (opts : List OptEntry),
    s.ver = .holds ver → s.typ = .holds typ → s.code = .holds code → s.mid = .holds mid →
    s.token = .holds token → s.opts = .holds opts → s.payload = .holds payload →
    ver.toNat ≤ 3 → typ.toNat ≤ 3 → code.toNat ≤ 255 → mid.toNat ≤ 65535 → token.length ≤ 8 →
    optsValidate 0 0 (sortOpts opts) = .ok () → seqEncode 0 0 (sortOpts opts) = .ok body →
    let tail : Bytes := if payload = [] then [] else 0xFF :: payload
    let bytes : Bytes :=
      [BitVec.ofNat 8 (ver.toNat * 64 + typ.toNat * 16 + token.length), BitVec.ofNat 8 code.toNat,
        BitVec.ofNat 8 (mid.toNat / 256), BitVec.ofNat 8 (mid.toNat % 256)] ++ token ++ body ++ tail
    exec .msgEnc s = .next
      (if fitsBuf s.cap bytes.length = true then
        { s with out := .holds bytes, status := 0x100, errPos := 0 }
      else { s with out := .holds [], status := 0x14, errPos := 0 })

/-- When MSG_ENC succeeds (R170's four conditions), for a descriptor whose seven parts are written. -/
def Obligations.MsgEncSucceedsExactly : Prop :=
  ∀ (s : State) (ver typ code mid : Word) (token payload : Bytes) (opts : List OptEntry),
    s.ver = .holds ver → s.typ = .holds typ → s.code = .holds code → s.mid = .holds mid →
    s.token = .holds token → s.opts = .holds opts → s.payload = .holds payload →
    ((∃ t, exec .msgEnc s = .next t ∧ t.status = 0x100) ↔
      (ver.toNat ≤ 3 ∧ typ.toNat ≤ 3 ∧ code.toNat ≤ 255 ∧ mid.toNat ≤ 65535) ∧ token.length ≤ 8 ∧
      ((∀ o ∈ opts, o.val.length ≤ 65804) ∧
        List.IsChain (fun a b => b.num.toNat ≤ a.num.toNat + 65804)
          ((⟨0, []⟩ : OptEntry) :: sortOpts opts)) ∧
      ∀ body, seqEncode 0 0 (sortOpts opts) = .ok body →
        fitsBuf s.cap (4 + token.length + body.length +
          if payload = [] then 0 else payload.length + 1) = true)

/-- The order of MSG_ENC's errors (60_exceptions.md R211; R166): the header's in R141's order, whatever
the options hold, then the first of the sorted options with its index, before anything is emitted. That
ERR_POS holds an index above MAX_BUF exactly is the model's choice (log 16). -/
def Obligations.MsgEncErrors : Prop :=
  ∀ (s : State) (ver typ code mid : Word) (token : Bytes), s.ver = .holds ver → s.typ = .holds typ →
    s.code = .holds code → s.mid = .holds mid → s.token = .holds token →
    (3 < ver.toNat → exec .msgEnc s = .next { s with out := .holds [], status := 0x11, errPos := 0 }) ∧
    (ver.toNat ≤ 3 → 3 < typ.toNat →
      exec .msgEnc s = .next { s with out := .holds [], status := 0x21, errPos := 0 }) ∧
    (ver.toNat ≤ 3 → typ.toNat ≤ 3 → 255 < code.toNat →
      exec .msgEnc s = .next { s with out := .holds [], status := 0x31, errPos := 0 }) ∧
    (ver.toNat ≤ 3 → typ.toNat ≤ 3 → code.toNat ≤ 255 → 65535 < mid.toNat →
      exec .msgEnc s = .next { s with out := .holds [], status := 0x41, errPos := 0 }) ∧
    (ver.toNat ≤ 3 → typ.toNat ≤ 3 → code.toNat ≤ 255 → mid.toNat ≤ 65535 → 8 < token.length →
      exec .msgEnc s = .next { s with out := .holds [], status := 0x51, errPos := 0 }) ∧
    (∀ opts c i, ver.toNat ≤ 3 → typ.toNat ≤ 3 → code.toNat ≤ 255 → mid.toNat ≤ 65535 →
      token.length ≤ 8 → s.opts = .holds opts → optsValidate 0 0 (sortOpts opts) = .error (.err c i) →
      exec .msgEnc s = .next { s with out := .holds [], status := c.status, errPos := i })

/-- MSG_DEC completes (R168, R162, R165, R82): on a header with a token length up to 8, its token, the
bytes of options in non-decreasing order, and a payload after the marker or nothing, it writes the seven
parts of the descriptor and STATUS and ERR_POS. -/
def Obligations.MsgDecResult : Prop :=
  ∀ (s : State) (v t : BitVec 2) (k : BitVec 4) (c : Byte) (m : BitVec 16) (token body payload : Bytes)
    (opts : List OptEntry),
    token.length = k.toNat → k.toNat ≤ 8 → seqEncode 0 0 opts = .ok body →
    fitsOpts s.cap opts.length = true →
    s.input = .holds ([v ++ t ++ k, c, m.extractLsb' 8 8, m.extractLsb' 0 8] ++ token ++ body ++
      if payload = [] then [] else 0xFF :: payload) →
    exec .msgDec s = .next { s with
      ver := .holds (v.setWidth 32), typ := .holds (t.setWidth 32), code := .holds (c.setWidth 32)
      mid := .holds (m.setWidth 32), token := .holds token, opts := .holds opts
      payload := .holds payload, status := 0x100, errPos := 0 }

/-- Encode then decode (R170): if MSG_ENC succeeds and the host writes IN <- OUT, MSG_DEC succeeds and
writes the descriptor back, the options in sorted order. The premise is the invariant that the stores
fit the instance (StepKeepsMemory). -/
def Obligations.EncodeThenDecode : Prop :=
  ∀ (s t : State) (opts : List OptEntry), Memory.wf s = true → s.opts = .holds opts →
    exec .msgEnc s = .next t → t.status = statusDone →
    exec .msgDec { t with input := t.out } =
      .next { t with input := t.out, opts := .holds (sortOpts opts) }

/-- Decode then encode (R171): if MSG_DEC succeeds on IN, MSG_ENC of the descriptor it wrote succeeds and
OUT is IN, byte for byte. The premise is the invariant that the stores fit the instance. -/
def Obligations.DecodeThenEncode : Prop :=
  ∀ s t : State, Memory.wf s = true → exec .msgDec s = .next t → t.status = statusDone →
    exec .msgEnc t = .next { t with out := t.input }

/-- The options MSG_DEC writes are in non-decreasing order, each number the previous one plus a delta of
0 to 65804, the first number being its own delta (R169). -/
def Obligations.DecodedOptionsOrdered : Prop :=
  ∀ (s t : State) (opts : List OptEntry), exec .msgDec s = .next t → t.status = statusDone →
    t.opts = .holds opts →
    List.IsChain (fun a b => a.num.toNat ≤ b.num.toNat ∧ b.num.toNat ≤ a.num.toNat + 65804)
      ((⟨0, []⟩ : OptEntry) :: opts)

/-- A marker with nothing after it (R163): F_EMPTY_PAYLOAD at the marker's offset, the whole descriptor
unwritten (60_exceptions.md R204). -/
def Obligations.EmptyPayload : Prop :=
  ∀ (s : State) (v t : BitVec 2) (k : BitVec 4) (c h l : Byte) (token body : Bytes)
    (opts : List OptEntry),
    token.length = k.toNat → k.toNat ≤ 8 → seqEncode 0 0 opts = .ok body →
    fitsOpts s.cap opts.length = true →
    s.input = .holds ([v ++ t ++ k, c, h, l] ++ token ++ body ++ [0xFF]) →
    exec .msgDec s = .next { s with
      ver := .unwritten, typ := .unwritten, code := .unwritten, mid := .unwritten
      token := .unwritten, opts := .unwritten, payload := .unwritten
      status := 0x32, errPos := 4 + token.length + body.length }

/-- The first errors of MSG_DEC in reading order (60_exceptions.md R210): T_HEADER, F_TKL, T_TOKEN; no
part of the message is returned. -/
def Obligations.MsgDecHeaderErrors : Prop :=
  ∀ (s : State) (inp : Bytes), s.input = .holds inp →
    (inp.length < 4 → exec .msgDec s = .next { s with
      ver := .unwritten, typ := .unwritten, code := .unwritten, mid := .unwritten
      token := .unwritten, opts := .unwritten, payload := .unwritten, status := 0x13, errPos := 0 }) ∧
    (4 ≤ inp.length → ∀ b, inp[0]? = some b →
      (8 < b.toNat % 16 → exec .msgDec s = .next { s with
        ver := .unwritten, typ := .unwritten, code := .unwritten, mid := .unwritten
        token := .unwritten, opts := .unwritten, payload := .unwritten, status := 0x42, errPos := 0 }) ∧
      (b.toNat % 16 ≤ 8 → inp.length < 4 + b.toNat % 16 → exec .msgDec s = .next { s with
        ver := .unwritten, typ := .unwritten, code := .unwritten, mid := .unwritten
        token := .unwritten, opts := .unwritten, payload := .unwritten, status := 0x23, errPos := 4 }))

/-! ### Completion, errors and frames of all commands -/

/-- The STATUS of each cause (60_exceptions.md R201, R202, R204; 10_state.md R27): KIND and CAUSE can be
read from it, VALID and the reserved bits are 0, no two causes share a value, and the values are those of
95_test_vectors.md's table ST; success sets VALID. -/
def Obligations.StatusFields : Prop :=
  (∀ c : Cause, statusKind c.status = c.kind.code.setWidth 3 ∧ statusCause c.status = c.code.setWidth 4 ∧
    statusValid c.status = false ∧ c.status.toNat / 512 = 0 ∧ c.status.getLsbD 3 = false) ∧
  (∀ c d : Cause, c.status = d.status → c = d) ∧
  [Cause.vVersion, .vType, .vCode, .vMid, .vTkl, .vVlen, .vDelta, .vDeltaNeg, .vRaw, .vNibble, .vClass,
      .vDetail].map Cause.status =
    [0x11, 0x21, 0x31, 0x41, 0x51, 0x61, 0x71, 0x81, 0x91, 0xA1, 0xB1, 0xC1] ∧
  [Cause.fDnib15, .fLnib15, .fEmptyPayload, .fTkl, .fNumOvf, .fNib15].map Cause.status =
    [0x12, 0x22, 0x32, 0x42, 0x52, 0x62] ∧
  [Cause.tHeader, .tToken, .tOptHdr, .tDext, .tLext, .tValue, .tExt].map Cause.status =
    [0x13, 0x23, 0x33, 0x43, 0x53, 0x63, 0x73] ∧
  [Cause.cOut, .cOpts, .xRsvdBits, .xOpcode].map Cause.status = [0x14, 0x24, 0x15, 0x25] ∧
  statusKind statusDone = 0 ∧ statusCause statusDone = 0 ∧ statusValid statusDone = true ∧
  statusDone.toNat = 0x100

/-- Every command ends in one of two ways (60_exceptions.md R203, R204, R213): it succeeds, with STATUS
0x100 and ERR_POS 0, or it raises one error and the state is the one before it with that error's
changes. -/
def Obligations.CommandOutcome : Prop :=
  ∀ (i : Instr) (s t : State), i.position = .cmd → exec i s = .next t →
    (t.status = 0x100 ∧ t.errPos = 0) ∨ ∃ c pos, t = s.raiseError (commandOutputs i) c pos

/-- What an error writes (R204): STATUS is `(c << 4) | K`, ERR_POS the position, OUT the empty sequence
if it is an output, every other output unwritten; nothing else changes. -/
def Obligations.ErrorWrites : Prop :=
  ∀ (i : Instr) (s : State) (c : Cause) (pos : Nat),
    let t := s.raiseError (commandOutputs i) c pos
    t.status = BitVec.ofNat 32 (c.code.toNat * 16 + c.kind.code.toNat) ∧ t.errPos = pos ∧
    (.out ∈ commandOutputs i → t.out = .holds []) ∧
    (∀ e ∈ commandOutputs i, e ≠ .out → t.entry e = .unwritten) ∧
    (∀ e, e ∉ commandOutputs i → e ≠ .status → e ≠ .errPos → (e = .outLen → .out ∉ commandOutputs i) →
      t.entry e = s.entry e) ∧
    t.cmd = s.cmd ∧ t.scan = s.scan ∧ t.cap = s.cap ∧ t.host = s.host ∧ t.reads = s.reads

/-- The frame of every command (30_encoding.md R89; R203, R204): it writes only its outputs, STATUS and
ERR_POS (and OUT_LEN follows OUT, 10_state.md R23). -/
def Obligations.CommandFrame : Prop :=
  ∀ (i : Instr) (s t : State), i.position = .cmd → exec i s = .next t →
    (∀ e, e ∉ commandOutputs i → e ≠ .status → e ≠ .errPos → (e = .outLen → .out ∉ commandOutputs i) →
      t.entry e = s.entry e) ∧
    t.cmd = s.cmd ∧ t.scan = s.scan ∧ t.cap = s.cap ∧ t.host = s.host ∧ t.reads = s.reads

/-- A command reads only its inputs (R89): two states of one instance that agree on them give the same
STATUS, ERR_POS and outputs. -/
def Obligations.CommandReadsOnlyInputs : Prop :=
  ∀ (i : Instr) (s s' t : State), i.position = .cmd → s.cap = s'.cap →
    (∀ e ∈ commandInputs i, s.entry e = s'.entry e) → exec i s = .next t →
    ∃ t', exec i s' = .next t' ∧ t'.status = t.status ∧ t'.errPos = t.errPos ∧
      ∀ e ∈ commandOutputs i, t'.entry e = t.entry e

/-- A command whose inputs the host has written (70_reset_and_hazards.md R244) always answers a next
state: neither a fault nor a refusal. -/
def Obligations.CommandsComplete : Prop :=
  ∀ (i : Instr) (s : State), i.position = .cmd → inputsWritten i s → ∃ t, exec i s = .next t

/-- No instruction writes IN, PREV or ARG (20_memory.md R67; 10_state.md R30, R32, R34), nor the
instance's capacities, the host's lines or what it has read. -/
def Obligations.InputsUntouched : Prop :=
  ∀ (i : Instr) (s t : State), exec i s = .next t →
    t.input = s.input ∧ t.prev = s.prev ∧ t.arg = s.arg ∧ t.cap = s.cap ∧ t.host = s.host ∧
    t.reads = s.reads

/-- A decode command can be issued again on the same IN with the same result (R59): the second run
changes nothing. -/
def Obligations.DecodeIdempotent : Prop :=
  ∀ (i : Instr) (s t : State), i ∈ [Instr.nibDec, .optDec, .hdrDec, .msgDec] →
    exec i s = .next t → exec i t = .next t

/-- A fault arises only from reading unwritten state (60_exceptions.md R200; 10_state.md R25): it names
an entry that is unwritten. And a command that reads an unwritten input does fault (R25;
70_reset_and_hazards.md R244; 93_implementation_defined.md I9), naming one: an input an earlier failed
check keeps from being read does not fault (30_encoding.md R89), and the arguments of a pseudocode
function are read at its call, which is the model's reading (log 8). -/
def Obligations.StepFaultsOnlyUnwritten : Prop :=
  (∀ (s : State) (f : Fault), step s = .fault f →
    ∃ e, (f = .unwrittenInput e ∨ f = .unwrittenRead e) ∧ s.entry e = .unwritten) ∧
  ∀ s : State,
    let faults (i : Instr) (es : List EntryName) : Prop :=
      ∃ e ∈ es, s.entry e = .unwritten ∧ exec i s = .fault (.unwrittenInput e)
    let anyOf (i : Instr) (es : List EntryName) : Prop :=
      (∃ e ∈ es, s.entry e = .unwritten) → faults i es
    anyOf .nibEnc [.arg] ∧ anyOf .nibDec [.arg] ∧
    (∀ a, s.arg = .holds a → a = 13 ∨ a = 14 → anyOf .nibDec [.input]) ∧
    anyOf .optEnc [.num, .prev, .input] ∧ anyOf .optDec [.input, .prev] ∧
    anyOf .hdrEnc [.ver, .typ, .code, .mid, .token] ∧ anyOf .hdrDec [.input] ∧
    anyOf .msgEnc [.ver, .typ, .code, .mid, .token] ∧
    (∀ ver typ code mid token, s.ver = .holds ver → s.typ = .holds typ → s.code = .holds code →
      s.mid = .holds mid → s.token = .holds token →
      ver.toNat ≤ 3 → typ.toNat ≤ 3 → code.toNat ≤ 255 → mid.toNat ≤ 65535 → token.length ≤ 8 →
      anyOf .msgEnc [.opts] ∧
      ∀ opts, s.opts = .holds opts → optsValidate 0 0 (sortOpts opts) = .ok () →
        anyOf .msgEnc [.payload]) ∧
    anyOf .msgDec [.input] ∧ anyOf .codeSplit [.code] ∧
    anyOf .codeSetClass [.cls] ∧
    (∀ k, s.cls = .holds k → k.toNat ≤ 7 → anyOf .codeSetClass [.code]) ∧
    anyOf .codeSetDetail [.detail] ∧
    ∀ d, s.detail = .holds d → d.toNat ≤ 31 → anyOf .codeSetDetail [.code]

/-- A run is rejected only for a refused host access (R200; 10_state.md R26; 70_reset_and_hazards.md
R243): a read of CMD, or a write beyond a capacity. The premise is the invariant StepKeepsScan. -/
def Obligations.StepRefusesOnlyHostAccess : Prop :=
  ∀ (s : State) (r : Refusal), s.scanLegal → step s = .refused r →
    s.scan = none ∧ s.cmd = none ∧ ∃ l ls, s.host = l :: ls ∧
      ((l = .rd .cmd ∧ r = .cmdRead) ∨
        (∃ b v, l = .wrStore b v ∧ fitsBuf s.cap v.length = false ∧ r = .beyondCapacity b.entry) ∨
        ∃ os, l = .wrOpts os ∧ optsFit s.cap os = false ∧ r = .beyondCapacity .opts)

/-! ### Invariants -/

/-- Every step keeps STATUS and ERR_POS legal (10_state.md R28, R29; 60_exceptions.md R202): after an
error ERR_POS is the one position R202 gives its cause, for the causes it gives one (0, or 4 for
T_TOKEN). The premise on the walk is the invariant StepKeepsScan, which T_OPTHDR's position rests on. -/
def Obligations.StepKeepsStatus : Prop :=
  ∀ s t : State, s.statusLegal → s.scanLegal → step s = .next t → t.statusLegal

/-- Every step keeps every store within the instance's capacity, in a legal instance (00_scope.md R7;
10_state.md R23). -/
def Obligations.StepKeepsMemory : Prop :=
  ∀ s t : State, capacityLegal s.cap = true → Memory.wf s = true → step s = .next t →
    capacityLegal t.cap = true ∧ Memory.wf t = true

/-- Every step keeps the hidden state of a walk legal: POS stands at the element of its place and stays
within IN (10_state.md R43). -/
def Obligations.StepKeepsScan : Prop :=
  ∀ s t : State, s.scanLegal → step s = .next t → t.scanLegal

/-- The invariants hold at reset (70_reset_and_hazards.md R240). -/
def Obligations.ResetInvariants : Prop :=
  State.reset.statusLegal ∧ capacityLegal State.reset.cap = true ∧ Memory.wf State.reset = true ∧
  State.reset.scanLegal

/-! ### The host -/

/-- What the host may do (10_state.md R24-R26, R42; 70_reset_and_hazards.md R243; 20_memory.md R59): a
write of a RW entry changes that entry alone, a RW store or OPTS within its capacity; a write of a RO
entry changes nothing; a read changes nothing but what the host has read, faults on an unwritten entry
and is refused of CMD. -/
def Obligations.HostAccess : Prop :=
  ∀ s : State,
    (∀ v, hostStep (.wrReg .num v) s = .next { s with num := .holds v } ∧
      hostStep (.wrReg .arg v) s = .next { s with arg := .holds v } ∧
      hostStep (.wrReg .prev v) s = .next { s with prev := .holds v } ∧
      hostStep (.wrReg .cls v) s = .next { s with cls := .holds v } ∧
      hostStep (.wrReg .detail v) s = .next { s with detail := .holds v } ∧
      hostStep (.wrReg .ver v) s = .next { s with ver := .holds v } ∧
      hostStep (.wrReg .typ v) s = .next { s with typ := .holds v } ∧
      hostStep (.wrReg .code v) s = .next { s with code := .holds v } ∧
      hostStep (.wrReg .mid v) s = .next { s with mid := .holds v }) ∧
    (∀ v : Bytes, fitsBuf s.cap v.length = true →
      hostStep (.wrStore .input v) s = .next { s with input := .holds v } ∧
      hostStep (.wrStore .token v) s = .next { s with token := .holds v } ∧
      hostStep (.wrStore .payload v) s = .next { s with payload := .holds v }) ∧
    (∀ (b : StoreName) (v : Bytes), fitsBuf s.cap v.length = false →
      hostStep (.wrStore b v) s = .refused (.beyondCapacity b.entry)) ∧
    (∀ l, optsFit s.cap l = true → hostStep (.wrOpts l) s = .next { s with opts := .holds l }) ∧
    (∀ l, optsFit s.cap l = false → hostStep (.wrOpts l) s = .refused (.beyondCapacity .opts)) ∧
    (∀ e v, hostStep (.wrRo e v) s = .next s) ∧
    hostStep (.rd .cmd) s = .refused .cmdRead ∧
    (∀ e v, e ≠ .cmd → s.entry e = .holds v →
      hostStep (.rd e) s = .next { s with reads := s.reads ++ [(e, v)] }) ∧
    (∀ e, e ≠ .cmd → s.entry e = .unwritten → hostStep (.rd e) s = .fault (.unwrittenRead e))

/-- A reset between two steps (70_reset_and_hazards.md R240, R241) leaves the block in the reset state,
its instance being as it was. -/
def Obligations.HostReset : Prop :=
  ∀ (s : State) (ls : List HostLine), s.scan = none → s.cmd = none → s.host = .reset :: ls →
    ∃ t, step s = .next t ∧ t.status = 0 ∧ t.errPos = 0 ∧
      (∀ e : EntryName, e ≠ .status → e ≠ .errPos → t.entry e = .unwritten) ∧
      t.cmd = none ∧ t.scan = none ∧ t.cap = s.cap ∧ t.host = ls ∧ t.reads = s.reads

/-! ### The walk of a decode command -/

/-- A decode command equals its walk (10_state.md R21, R43, R44; 44_message.md R162): from the start of
its walk, running one element of IN a step, the machine answers what the atomic command answers, faults
included, within one step more than IN has bytes (70_reset_and_hazards.md R250). -/
def Obligations.WalkEqualsCommand : Prop :=
  ∀ (w : Walk) (s : State), s.scan = none →
    ∃ n, n ≤ (match s.input with | .holds inp => inp.length | .unwritten => 0) + 1 ∧
      runSteps n { s with scan := some (Scan.start w) } = exec w.command s

/-- The elements of header byte 0 (30_encoding.md R75; 43_header.md R142, R143): where the four header
bytes are present, a token length up to 8 is taken and the walk goes on at the code; 9 to 15 end the
walk with F_TKL and its command's outputs unwritten. Below four bytes every one of them ends the walk
with T_HEADER. -/
def Obligations.WireHdrByte0Result : Prop :=
  ∀ (s : State) (sc : Scan) (inp : Bytes) (v t : BitVec 2), s.scan = some sc → sc.place = .hdr0 →
    s.input = .holds inp →
    let ends (c : Cause) : Host.Outcome State Fault Refusal :=
      .next (State.raiseError { s with scan := none } (commandOutputs sc.walk.command) c 0)
    (4 ≤ inp.length →
      (∀ k : BitVec 4, k.toNat ≤ 8 → exec (.wireHdrByte0 v t k) s = .next { s with
        scan := some { sc with place := .hdrCode, pos := sc.pos + 1, ver := v, typ := t, tkl := k } }) ∧
      exec (.wireHdrTklRsvd9 v t) s = ends .fTkl ∧
      (∀ k, exec (.wireHdrTklRsvd1011 v t k) s = ends .fTkl) ∧
      ∀ k, exec (.wireHdrTklRsvd1215 v t k) s = ends .fTkl) ∧
    (inp.length < 4 →
      (∀ k, exec (.wireHdrByte0 v t k) s = ends .tHeader) ∧
      exec (.wireHdrTklRsvd9 v t) s = ends .tHeader ∧
      (∀ k, exec (.wireHdrTklRsvd1011 v t k) s = ends .tHeader) ∧
      ∀ k, exec (.wireHdrTklRsvd1215 v t k) s = ends .tHeader)

/-- The elements of header bytes 1 to 3 (30_encoding.md R76, R77): the code is class and detail side by
side; at the message ID HDR_DEC ends with the header written and the token length in RES, and MSG_DEC
takes the token and stands at the first option start with ACC 0, or ends with T_TOKEN. -/
def Obligations.WireHdrRestResult : Prop :=
  ∀ (s : State) (sc : Scan), s.scan = some sc →
    (∀ c d, sc.place = .hdrCode → exec (.wireHdrCode c d) s = .next { s with
      scan := some { sc with place := .hdrMid, pos := sc.pos + 1, code := c ++ d } }) ∧
    (∀ m, sc.place = .hdrMid → sc.walk = .hdrDec → exec (.wireHdrMid m) s = .next { s with
      scan := none, ver := .holds (sc.ver.setWidth 32), typ := .holds (sc.typ.setWidth 32)
      code := .holds (sc.code.setWidth 32), mid := .holds (m.setWidth 32)
      res := .holds (sc.tkl.setWidth 32), status := 0x100, errPos := 0 }) ∧
    (∀ m inp, sc.place = .hdrMid → sc.walk = .msgDec → s.input = .holds inp →
      (4 + sc.tkl.toNat ≤ inp.length → exec (.wireHdrMid m) s = .next { s with
        scan := some { sc with
          place := .seqStart, pos := 4 + sc.tkl.toNat, acc := 0, mid := m
          token := (inp.drop 4).take sc.tkl.toNat, opts := [] } }) ∧
      (inp.length < 4 + sc.tkl.toNat → exec (.wireHdrMid m) s =
        .next (State.raiseError { s with scan := none } (commandOutputs .msgDec) .tToken 4)))

/-- The marker (30_encoding.md R82; 44_message.md R162, R163): MSG_DEC ends with the rest of IN as the
payload and what it has read so far, or, if nothing is left, with F_EMPTY_PAYLOAD at the marker. -/
def Obligations.WireMarkerResult : Prop :=
  ∀ (s : State) (sc : Scan) (inp : Bytes), s.scan = some sc → sc.place = .seqStart → sc.walk = .msgDec →
    s.input = .holds inp →
    (sc.pos + 1 < inp.length → exec .wireMarker s = .next { s with
      scan := none, ver := .holds (sc.ver.setWidth 32), typ := .holds (sc.typ.setWidth 32)
      code := .holds (sc.code.setWidth 32), mid := .holds (sc.mid.setWidth 32)
      token := .holds sc.token, opts := .holds sc.opts, payload := .holds (inp.drop (sc.pos + 1))
      status := 0x100, errPos := 0 }) ∧
    (sc.pos + 1 = inp.length → exec .wireMarker s = .next
      (State.raiseError { s with scan := none } (commandOutputs .msgDec) .fEmptyPayload sc.pos))

/-- An option's first byte (42_option.md R122, R123; 44_message.md R162): in MSG_DEC's walk the option is
appended, ACC becomes its number and POS moves past it, or the list is full (C_OPTS); in OPT_DEC's walk
the command ends with it; an option that fails ends the walk with its error, a nibble 15 with F_DNIB15
or F_LNIB15 at the byte. -/
def Obligations.WireOptResult : Prop :=
  ∀ (s : State) (sc : Scan) (inp : Bytes) (p : Word), s.scan = some sc → s.input = .holds inp →
    (sc.place = .seqStart ∧ p = sc.acc) ∨ (sc.place = .optStart ∧ s.prev = .holds p) →
    let ends (c : Cause) (pos : Nat) : Host.Outcome State Fault Refusal :=
      .next (State.raiseError { s with scan := none } (commandOutputs sc.walk.command) c pos)
    (∀ d l num val n, optFields inp sc.pos p d l = .ok (num, val, n) →
      (sc.place = .seqStart → exec (.wireOpt d l) s =
        if fitsOpts s.cap (sc.opts.length + 1) = true then .next { s with
          scan := some { sc with pos := sc.pos + n, acc := num, opts := sc.opts ++ [⟨num, val⟩] } }
        else ends .cOpts sc.pos) ∧
      (sc.place = .optStart → exec (.wireOpt d l) s = .next { s with
        scan := none, num := .holds num, out := .holds val, consumed := .holds (BitVec.ofNat 32 n)
        status := 0x100, errPos := 0 })) ∧
    (∀ d l c pos, optFields inp sc.pos p d l = .error (.err c pos) →
      exec (.wireOpt d l) s = ends c pos) ∧
    (∀ l, exec (.wireOptDnib15 l) s = ends .fDnib15 sc.pos) ∧
    ∀ d, d ≠ 15 → exec (.wireOptLnib15 d) s = ends .fLnib15 sc.pos

/-- The nibbles (41_varint.md R100, R102, R105): each ends NIB_DEC's walk with the raw value it stands
for, F_NIB15 for 15, or T_EXT where its extension bytes are missing. -/
def Obligations.NibbleRowsResult : Prop :=
  ∀ (s : State) (sc : Scan), s.scan = some sc → sc.place = .nibble → sc.walk = .nibDec →
    (∀ n : BitVec 4, n.toNat ≤ 12 → exec (.nibbleDirect n) s = .next { s with
      scan := none, res := .holds (n.setWidth 32), consumed := .holds 0, status := 0x100, errPos := 0 }) ∧
    (∀ b rest, s.input = .holds (b :: rest) → exec .nibbleExt1 s = .next { s with
      scan := none, res := .holds (BitVec.ofNat 32 (b.toNat + 13)), consumed := .holds 1
      status := 0x100, errPos := 0 }) ∧
    (∀ b c rest, s.input = .holds (b :: c :: rest) → exec .nibbleExt2 s = .next { s with
      scan := none, res := .holds (BitVec.ofNat 32 (b.toNat * 256 + c.toNat + 269))
      consumed := .holds 2, status := 0x100, errPos := 0 }) ∧
    exec .nibbleRsvd s = .next { s with
      scan := none, res := .unwritten, consumed := .unwritten, status := 0x62, errPos := 0 } ∧
    (s.input = .holds [] → exec .nibbleExt1 s = .next { s with
      scan := none, res := .unwritten, consumed := .unwritten, status := 0x73, errPos := 0 }) ∧
    (∀ inp, s.input = .holds inp → inp.length < 2 → exec .nibbleExt2 s = .next { s with
      scan := none, res := .unwritten, consumed := .unwritten, status := 0x73, errPos := 0 })
end

