-- ==== Sys2Proof/Laws/Calc.lean ====
section
/-! SUPPORT. What a check, an operand read and the end of a command can do, said once. -/

namespace Sys2Proof.Machine

open Sys2Proof

/-- A computation that completes is its first part completing and then the rest. -/
theorem Calc.bind_eq_ok {α β : Type} {x : Calc α} {f : α → Calc β} {b : β} :
    (x >>= f) = .ok b ↔ ∃ a, x = .ok a ∧ f a = .ok b := by
  cases x <;> simp [bind, Except.bind]

@[simp] theorem Calc.ok_bind {α β : Type} (a : α) (f : α → Calc β) :
    ((Except.ok a : Calc α) >>= f) = f a := rfl

@[simp] theorem Calc.error_bind {α β : Type} (e : Stop) (f : α → Calc β) :
    ((Except.error e : Calc α) >>= f) = .error e := rfl

/-- A computation that stops stops in its first part, or after it. -/
theorem Calc.bind_eq_error {α β : Type} {x : Calc α} {f : α → Calc β} {e : Stop} :
    (x >>= f) = .error e ↔ x = .error e ∨ ∃ a, x = .ok a ∧ f a = .error e := by
  cases x <;> simp [bind, Except.bind]

/-- A check passes exactly when its condition holds. -/
@[simp] theorem need_eq_ok {p : Prop} [Decidable p] {c : Cause} {pos : Nat} {u : Unit} :
    need p c pos = .ok u ↔ p := by
  unfold need; split <;> simp_all

/-- A check stops exactly when its condition fails, with its own error. -/
@[simp] theorem need_eq_error {p : Prop} [Decidable p] {c : Cause} {pos : Nat} {e : Stop} :
    need p c pos = .error e ↔ ¬ p ∧ e = .err c pos := by
  unfold need; split <;> simp_all [eq_comm]

/-- A check before the rest: the rest if it holds, its error if not. -/
@[simp] theorem need_bind {p : Prop} [Decidable p] {c : Cause} {pos : Nat} {α : Type}
    (f : Unit → Calc α) : (need p c pos >>= f) = if p then f () else .error (.err c pos) := by
  unfold need; split <;> rfl

theorem need_of {p : Prop} [Decidable p] (h : p) (c : Cause) (pos : Nat) : need p c pos = .ok () := by
  simp [h]

theorem need_of_not {p : Prop} [Decidable p] (h : ¬ p) (c : Cause) (pos : Nat) :
    need p c pos = .error (.err c pos) := by
  simp [h]

@[simp] theorem Entry.get_holds {α : Type} (e : EntryName) (v : α) : (Entry.holds v).get e = .ok v := rfl

@[simp] theorem Entry.get_unwritten {α : Type} (e : EntryName) :
    (Entry.unwritten : Entry α).get e = .error (.fault (.unwrittenInput e)) := rfl

/-- A read gives the value the entry holds. -/
@[simp] theorem Entry.get_eq_ok {α : Type} {e : EntryName} {x : Entry α} {v : α} :
    x.get e = .ok v ↔ x = .holds v := by
  cases x <;> simp [Entry.get]

/-- A read of an unwritten entry is the only read that stops. -/
@[simp] theorem Entry.get_eq_error {α : Type} {e : EntryName} {x : Entry α} {r : Stop} :
    x.get e = .error r ↔ x = .unwritten ∧ r = .fault (.unwrittenInput e) := by
  cases x <;> simp [Entry.get, eq_comm]

/-- A command that answers a next state succeeded or raised an error (60_exceptions.md R200). -/
theorem finish_eq_next {outs : List EntryName} {s t : State} {r : Calc State} :
    finish outs s r = .next t ↔
      (∃ u, r = .ok u ∧ t = u.succeed) ∨ ∃ c pos, r = .error (.err c pos) ∧ t = s.raiseError outs c pos := by
  rcases r with (⟨c, pos⟩ | f) | u <;> simp [finish, eq_comm]

theorem finish_eq_fault {outs : List EntryName} {s : State} {r : Calc State} {f : Fault} :
    finish outs s r = .fault f ↔ r = .error (.fault f) := by
  rcases r with (⟨c, pos⟩ | g) | u <;> simp [finish]

theorem finish_ne_refused {outs : List EntryName} {s : State} {r : Calc State} {x : Refusal} :
    finish outs s r ≠ .refused x := by
  rcases r with (⟨c, pos⟩ | g) | u <;> simp [finish]

@[simp] theorem finish_ok (outs : List EntryName) (s u : State) :
    finish outs s (.ok u) = .next u.succeed := rfl

@[simp] theorem finish_err (outs : List EntryName) (s : State) (c : Cause) (pos : Nat) :
    finish outs s (.error (.err c pos)) = .next (s.raiseError outs c pos) := rfl

@[simp] theorem finish_fault (outs : List EntryName) (s : State) (f : Fault) :
    finish outs s (.error (.fault f)) = .fault f := rfl

/-- An element that answers a next state moved the walk on or raised the walking command's error. -/
theorem advance_eq_next {sc : Scan} {s t : State} {r : Calc Scan} :
    advance sc s r = .next t ↔
      (∃ sc', r = .ok sc' ∧ t = { s with scan := some sc' }) ∨
      ∃ c pos, r = .error (.err c pos) ∧ t = s.endScan.raiseError sc.walk.outputs c pos := by
  rcases r with (⟨c, pos⟩ | f) | u <;> simp [advance, eq_comm]

@[simp] theorem advance_ok (sc sc' : Scan) (s : State) :
    advance sc s (.ok sc') = .next { s with scan := some sc' } := rfl

@[simp] theorem advance_err (sc : Scan) (s : State) (c : Cause) (pos : Nat) :
    advance sc s (.error (.err c pos)) = .next (s.endScan.raiseError sc.walk.outputs c pos) := rfl

@[simp] theorem advance_fault (sc : Scan) (s : State) (f : Fault) :
    advance sc s (.error (.fault f)) = .fault f := rfl

/-- An element runs only where a walk stands at its position. -/
theorem atPlace_eq_next {ps : List Position} {s t : State} {f : Scan → Host.Outcome State Fault Refusal} :
    atPlace ps s f = .next t ↔ ∃ sc, s.scan = some sc ∧ sc.place ∈ ps ∧ f sc = .next t := by
  unfold atPlace
  cases s.scan with
  | none => simp
  | some sc => by_cases h : sc.place ∈ ps <;> simp [h]

theorem atPlace_some {ps : List Position} {s : State} {sc : Scan}
    {f : Scan → Host.Outcome State Fault Refusal} (h : s.scan = some sc) (hp : sc.place ∈ ps) :
    atPlace ps s f = f sc := by
  simp [atPlace, h, hp]

end Sys2Proof.Machine
end

