-- ==== Sys2Proof/Laws/Encoding.lean ====
section
/-! SUPPORT. Splitting and joining the fields of a command word and of a byte (30_encoding.md R71, R79). -/

namespace Sys2Proof

/-- A command word is its RSV field and its OPC field (R71). -/
theorem cmdWord_split (w : BitVec 32) : w.extractLsb' 8 24 ++ w.extractLsb' 0 8 = w := by
  apply BitVec.eq_of_getLsbD_eq
  intro i hi
  refine BitVec.getLsbD_append.trans ?_
  by_cases hlt : i < 8
  · simp [hlt]
  · have h1 : 8 + (i - 8) = i := by omega
    have h2 : i - 8 < 24 := by omega
    simp [hlt, h1, h2]

/-- A command word with RSV 0 is its low byte, zero-extended (R71). -/
theorem cmdWord_of_rsv {w : BitVec 32} (h : w.extractLsb' 8 24 = 0) :
    (0 : BitVec 24) ++ w.extractLsb' 0 8 = w := by
  rw [← h]; exact cmdWord_split w

theorem extract_high_append (a : BitVec 24) (b : BitVec 8) : (a ++ b : BitVec 32).extractLsb' 8 24 = a := by
  apply BitVec.eq_of_getLsbD_eq
  intro i hi
  rw [BitVec.getLsbD_extractLsb']
  have h1 : 8 + i - 8 = i := by omega
  have := BitVec.getLsbD_append (x := a) (y := b) (i := 8 + i)
  simp only [h1, Nat.not_lt.mpr (Nat.le_add_right 8 i), if_false] at this
  simpa [hi] using this

theorem extract_low_append (a : BitVec 24) (b : BitVec 8) : (a ++ b : BitVec 32).extractLsb' 0 8 = b := by
  apply BitVec.eq_of_getLsbD_eq
  intro i hi
  rw [BitVec.getLsbD_extractLsb']
  have := BitVec.getLsbD_append (x := a) (y := b) (i := i)
  simp only [hi, if_true] at this
  simpa [hi] using this

/-- The two nibbles of an option's first byte (R79). -/
theorem nibbles_append (a b : BitVec 4) :
    (a ++ b : BitVec 8).extractLsb' 4 4 = a ∧ (a ++ b : BitVec 8).extractLsb' 0 4 = b := by
  revert a b; decide

theorem nibbles_split (b : BitVec 8) : b.extractLsb' 4 4 ++ b.extractLsb' 0 4 = b := by
  revert b; decide

end Sys2Proof
end

