-- ==== Sys2Proof/Laws/Codec.lean ====
section
/-! SUPPORT. The small facts of the codec functions: reading IN, the nibble code's lengths and ranges, and
what a decoded option is (41_varint.md, 42_option.md). -/

namespace Sys2Proof.Machine

open Sys2Proof

section MemRead

variable (a b c : Bytes) (n p : Nat)

@[simp] theorem memRead_length (h : p + n ≤ a.length) : (memRead a p n).length = n := by
  simp [memRead]; omega

@[simp] theorem memRead_zero : memRead a p 0 = [] := by simp [memRead]

/-- Reading the middle of a sequence gives the middle. -/
theorem memRead_middle (hp : p = a.length) (hn : n = b.length) : memRead (a ++ b ++ c) p n = b := by
  subst hp hn; simp [memRead]

/-- Two adjacent reads are one. -/
theorem memRead_add (m : Nat) : memRead a p (n + m) = memRead a p n ++ memRead a (p + n) m := by
  simp [memRead, List.take_add]

/-- One byte read at an offset within IN. -/
theorem memRead_one (h : p < a.length) : memRead a p 1 = [byteAt a p] := by
  simp [memRead, byteAt, List.take_one, List.head?_drop, h]

theorem byteAt_middle (x : Byte) (hp : p = a.length) : byteAt (a ++ x :: c) p = x := by
  subst hp; simp [byteAt]

end MemRead

section Nibbles

variable (raw : Nat) (n : Nibble) (e : Bytes)

theorem nibble_cases (h : n ≠ 15) : n.toNat ≤ 12 ∨ n = 13 ∨ n = 14 := by
  revert n; decide

/-- The nibble and extension of a raw value in each of the three ranges (R80). -/
theorem nibEncode_direct (h : raw ≤ 12) : nibEncode raw = (BitVec.ofNat 4 raw, []) := by
  simp [nibEncode, h]

theorem nibEncode_one (h : 13 ≤ raw) (h' : raw ≤ 268) :
    nibEncode raw = (13, [BitVec.ofNat 8 (raw - 13)]) := by
  simp [nibEncode, h', show ¬ raw ≤ 12 by omega]

theorem nibEncode_two (h : 269 ≤ raw) : nibEncode raw = (14, be16 (raw - 269)) := by
  simp [nibEncode, show ¬ raw ≤ 12 by omega, show ¬ raw ≤ 268 by omega]

theorem extLen_le : extLen n ≤ 2 := by unfold extLen; split <;> [omega; split <;> omega]

end Nibbles

section Options

/-- `opt_enc` (R121) answers exactly when its three checks pass, and then with these bytes. -/
theorem optEncode_ok {num prev : Word} {val bs : Bytes} {i : Nat} :
    optEncode num prev val i = .ok bs ↔
      prev.toNat ≤ num.toNat ∧ num.toNat - prev.toNat ≤ 65804 ∧ val.length ≤ 65804 ∧
      bs = ((nibEncode (num.toNat - prev.toNat)).1 ++ (nibEncode val.length).1) ::
        (nibEncode (num.toNat - prev.toNat)).2 ++ (nibEncode val.length).2 ++ val := by
  unfold optEncode
  simp only [need_bind]
  constructor
  · intro h
    split at h <;> [skip; simp at h]
    split at h <;> [skip; simp at h]
    split at h <;> [skip; simp at h]
    refine ⟨‹_›, ‹_›, ‹_›, by simpa using h.symm⟩
  · rintro ⟨h1, h2, h3, rfl⟩
    simp only [h1, h2, h3, if_true]

/-- `opt_dec_at` from the nibbles on (R122) answers exactly when its six checks pass, and then with this
number, value and byte count. -/
theorem optFields_ok {inp : Bytes} {p : Nat} {prev : Word} {dn ln : Nibble} {r : Word × Bytes × Nat} :
    optFields inp p prev dn ln = .ok r ↔
      dn ≠ 15 ∧ ln ≠ 15 ∧ p + 1 + extLen dn ≤ inp.length ∧
      prev.toNat + nibDecode dn (memRead inp (p + 1) (extLen dn)) < 4294967296 ∧
      p + 1 + extLen dn + extLen ln ≤ inp.length ∧
      p + 1 + extLen dn + extLen ln +
        nibDecode ln (memRead inp (p + 1 + extLen dn) (extLen ln)) ≤ inp.length ∧
      r = (BitVec.ofNat 32 (prev.toNat + nibDecode dn (memRead inp (p + 1) (extLen dn))),
        memRead inp (p + 1 + extLen dn + extLen ln)
          (nibDecode ln (memRead inp (p + 1 + extLen dn) (extLen ln))),
        1 + extLen dn + extLen ln + nibDecode ln (memRead inp (p + 1 + extLen dn) (extLen ln))) := by
  unfold optFields
  simp only [need_bind]
  constructor
  · intro h
    split at h <;> [skip; simp at h]
    split at h <;> [skip; simp at h]
    split at h <;> [skip; simp at h]
    split at h <;> [skip; simp at h]
    split at h <;> [skip; simp at h]
    split at h <;> [skip; simp at h]
    refine ⟨‹_›, ‹_›, ‹_›, ‹_›, ‹_›, ‹_›, ?_⟩
    simp only [Except.ok.injEq] at h
    rw [← h]
    simp
    omega
  · rintro ⟨h1, h2, h3, h4, h5, h6, rfl⟩
    simp only [h1, h2, h3, h4, h5, h6, if_true, ne_eq, not_false_eq_true]
    simp
    omega

/-- `opt_dec_at` (R122) needs its first byte and goes on with its nibbles. -/
theorem optDecodeAt_ok {inp : Bytes} {p : Nat} {prev : Word} {r : Word × Bytes × Nat} :
    optDecodeAt inp p prev = .ok r ↔
      p + 1 ≤ inp.length ∧
      optFields inp p prev ((byteAt inp p).extractLsb' 4 4) ((byteAt inp p).extractLsb' 0 4) = .ok r := by
  unfold optDecodeAt
  simp only [need_bind]
  split <;> simp [*]

end Options

section Messages

/-- `hdr_validate` (R141) passes exactly when all five fields are in range. -/
theorem hdrValidate_ok {ver typ code mid : Word} {tkl : Nat} :
    hdrValidate ver typ code mid tkl = .ok () ↔
      ver.toNat ≤ 3 ∧ typ.toNat ≤ 3 ∧ code.toNat ≤ 255 ∧ mid.toNat ≤ 65535 ∧ tkl ≤ 8 := by
  unfold hdrValidate
  simp only [need_bind]
  split <;> [skip; simp [*]]
  split <;> [skip; simp [*]]
  split <;> [skip; simp [*]]
  split <;> simp [*]

/-- `hdr_unpack` (R142) answers exactly when four bytes are there and the token length is at most 8. -/
theorem hdrUnpack_ok {inp : Bytes} {f : HdrFields} :
    hdrUnpack inp = .ok f ↔ 4 ≤ inp.length ∧ ((byteAt inp 0).extractLsb' 0 4).toNat ≤ 8 ∧
      f = ⟨(byteAt inp 0).extractLsb' 6 2, (byteAt inp 0).extractLsb' 4 2, (byteAt inp 0).extractLsb' 0 4,
        byteAt inp 1, byteAt inp 2 ++ byteAt inp 3⟩ := by
  unfold hdrUnpack hdrPresent hdrMid
  simp only [need_bind]
  split <;> [skip; simp [*]]
  split <;> simp_all [eq_comm]

theorem tokenAt4_ok {inp tk : Bytes} {tkl : Nat} :
    tokenAt4 inp tkl = .ok tk ↔ 4 + tkl ≤ inp.length ∧ tk = memRead inp 4 tkl := by
  unfold tokenAt4
  simp only [need_bind]
  split <;> simp [*, eq_comm]

theorem payloadAfter_ok {inp pl : Bytes} {p : Nat} :
    payloadAfter inp p = .ok pl ↔
      p + 1 ≠ inp.length ∧ pl = memRead inp (p + 1) (inp.length - p - 1) := by
  unfold payloadAfter
  simp only [need_bind]
  split <;> simp_all [eq_comm]

theorem pushOpt_ok {cap : Config.Capacity} {p : Nat} {os os' : List OptEntry} {num : Word} {val : Bytes} :
    pushOpt cap p os num val = .ok os' ↔
      fitsOpts cap (os.length + 1) = true ∧ os' = os ++ [⟨num, val⟩] := by
  unfold pushOpt
  simp only [need_bind]
  split <;> simp [*, eq_comm]

/-- `opts_validate` (R167) on one option and the rest. -/
theorem optsValidate_cons_ok {acc : Word} {i : Nat} {o : OptEntry} {os : List OptEntry} :
    optsValidate acc i (o :: os) = .ok () ↔
      o.num.toNat - acc.toNat ≤ 65804 ∧ o.val.length ≤ 65804 ∧ optsValidate o.num (i + 1) os = .ok () := by
  simp only [optsValidate, need_bind, Config.maxRaw, Config.maxVlen]
  split <;> [split; skip] <;> simp_all

/-- `seq_enc` (R161) on one option and the rest. -/
theorem seqEncode_cons_ok {acc : Word} {i : Nat} {o : OptEntry} {os : List OptEntry} {bs : Bytes} :
    seqEncode acc i (o :: os) = .ok bs ↔
      ∃ b rest, optEncode o.num acc o.val i = .ok b ∧ seqEncode o.num (i + 1) os = .ok rest ∧
        bs = b ++ rest := by
  rw [seqEncode]
  simp only [Calc.bind_eq_ok]
  constructor
  · rintro ⟨b, hb, rest, hr, h⟩
    exact ⟨b, rest, hb, hr, by simpa using h.symm⟩
  · rintro ⟨b, rest, hb, hr, rfl⟩
    exact ⟨b, hb, rest, hr, rfl⟩

/-- One pass of `seq_dec`'s loop (R162) at an option start that is neither the end nor the marker. -/
theorem seqDecode_option {cap : Config.Capacity} {inp : Bytes} {left p : Nat} {acc : Word}
    {os : List OptEntry} (he : p ≠ inp.length) (hm : byteAt inp p ≠ 0xFF) :
    seqDecode cap inp (left + 1) p acc os = (do
      let r ← optDecodeAt inp p acc
      let os' ← pushOpt cap p os r.1 r.2.1
      seqDecode cap inp left (p + r.2.2) r.1 os') := by
  rw [seqDecode, if_neg he, if_neg hm]

theorem seqDecode_end {cap : Config.Capacity} {inp : Bytes} {left : Nat} {acc : Word}
    {os : List OptEntry} : seqDecode cap inp left inp.length acc os = .ok (os, []) := by
  cases left <;> simp [seqDecode]

theorem seqDecode_marker {cap : Config.Capacity} {inp : Bytes} {left p : Nat} {acc : Word}
    {os : List OptEntry} (he : p ≠ inp.length) (hm : byteAt inp p = 0xFF) :
    seqDecode cap inp (left + 1) p acc os = (do
      let payload ← payloadAfter inp p
      .ok (os, payload)) := by
  rw [seqDecode, if_neg he, if_pos hm]

/-- What a decoded option consumes: at least one byte, and no byte past IN. -/
theorem optDecodeAt_count {inp : Bytes} {p : Nat} {prev : Word} {r : Word × Bytes × Nat}
    (h : optDecodeAt inp p prev = .ok r) : 1 ≤ r.2.2 ∧ p + r.2.2 ≤ inp.length := by
  obtain ⟨-, -, -, -, -, h6, rfl⟩ := optFields_ok.mp (optDecodeAt_ok.mp h).2
  simp only
  omega

end Messages

end Sys2Proof.Machine
end

