-- ==== Sys2Proof/Laws/State.lean ====
section
/-! SUPPORT. What each named update of the state does to each field: one lemma per field per update,
true by rfl, so that no proof unfolds a record update. -/

namespace Sys2Proof.Machine

open Sys2Proof

section Updates

variable (s : State) (h : HdrFields) (r : Word × Bytes × Nat) (tk pl : Bytes) (os : List OptEntry)

@[simp] theorem State.succeed_status : s.succeed.status = statusDone := rfl
@[simp] theorem State.succeed_errPos : s.succeed.errPos = 0 := rfl
@[simp] theorem State.succeed_input : s.succeed.input = s.input := rfl
@[simp] theorem State.succeed_out : s.succeed.out = s.out := rfl
@[simp] theorem State.succeed_arg : s.succeed.arg = s.arg := rfl
@[simp] theorem State.succeed_num : s.succeed.num = s.num := rfl
@[simp] theorem State.succeed_prev : s.succeed.prev = s.prev := rfl
@[simp] theorem State.succeed_res : s.succeed.res = s.res := rfl
@[simp] theorem State.succeed_consumed : s.succeed.consumed = s.consumed := rfl
@[simp] theorem State.succeed_cls : s.succeed.cls = s.cls := rfl
@[simp] theorem State.succeed_detail : s.succeed.detail = s.detail := rfl
@[simp] theorem State.succeed_ver : s.succeed.ver = s.ver := rfl
@[simp] theorem State.succeed_typ : s.succeed.typ = s.typ := rfl
@[simp] theorem State.succeed_code : s.succeed.code = s.code := rfl
@[simp] theorem State.succeed_mid : s.succeed.mid = s.mid := rfl
@[simp] theorem State.succeed_token : s.succeed.token = s.token := rfl
@[simp] theorem State.succeed_opts : s.succeed.opts = s.opts := rfl
@[simp] theorem State.succeed_payload : s.succeed.payload = s.payload := rfl
@[simp] theorem State.succeed_cmd : s.succeed.cmd = s.cmd := rfl
@[simp] theorem State.succeed_scan : s.succeed.scan = s.scan := rfl
@[simp] theorem State.succeed_cap : s.succeed.cap = s.cap := rfl
@[simp] theorem State.succeed_host : s.succeed.host = s.host := rfl
@[simp] theorem State.succeed_reads : s.succeed.reads = s.reads := rfl

@[simp] theorem State.endScan_status : s.endScan.status = s.status := rfl
@[simp] theorem State.endScan_errPos : s.endScan.errPos = s.errPos := rfl
@[simp] theorem State.endScan_input : s.endScan.input = s.input := rfl
@[simp] theorem State.endScan_out : s.endScan.out = s.out := rfl
@[simp] theorem State.endScan_arg : s.endScan.arg = s.arg := rfl
@[simp] theorem State.endScan_num : s.endScan.num = s.num := rfl
@[simp] theorem State.endScan_prev : s.endScan.prev = s.prev := rfl
@[simp] theorem State.endScan_res : s.endScan.res = s.res := rfl
@[simp] theorem State.endScan_consumed : s.endScan.consumed = s.consumed := rfl
@[simp] theorem State.endScan_cls : s.endScan.cls = s.cls := rfl
@[simp] theorem State.endScan_detail : s.endScan.detail = s.detail := rfl
@[simp] theorem State.endScan_ver : s.endScan.ver = s.ver := rfl
@[simp] theorem State.endScan_typ : s.endScan.typ = s.typ := rfl
@[simp] theorem State.endScan_code : s.endScan.code = s.code := rfl
@[simp] theorem State.endScan_mid : s.endScan.mid = s.mid := rfl
@[simp] theorem State.endScan_token : s.endScan.token = s.token := rfl
@[simp] theorem State.endScan_opts : s.endScan.opts = s.opts := rfl
@[simp] theorem State.endScan_payload : s.endScan.payload = s.payload := rfl
@[simp] theorem State.endScan_cmd : s.endScan.cmd = s.cmd := rfl
@[simp] theorem State.endScan_scan : s.endScan.scan = none := rfl
@[simp] theorem State.endScan_cap : s.endScan.cap = s.cap := rfl
@[simp] theorem State.endScan_host : s.endScan.host = s.host := rfl
@[simp] theorem State.endScan_reads : s.endScan.reads = s.reads := rfl

@[simp] theorem State.putOption_status : (s.putOption r).status = s.status := rfl
@[simp] theorem State.putOption_errPos : (s.putOption r).errPos = s.errPos := rfl
@[simp] theorem State.putOption_input : (s.putOption r).input = s.input := rfl
@[simp] theorem State.putOption_out : (s.putOption r).out = .holds r.2.1 := rfl
@[simp] theorem State.putOption_arg : (s.putOption r).arg = s.arg := rfl
@[simp] theorem State.putOption_num : (s.putOption r).num = .holds r.1 := rfl
@[simp] theorem State.putOption_prev : (s.putOption r).prev = s.prev := rfl
@[simp] theorem State.putOption_res : (s.putOption r).res = s.res := rfl
@[simp] theorem State.putOption_consumed : (s.putOption r).consumed = .holds (BitVec.ofNat 32 r.2.2) := rfl
@[simp] theorem State.putOption_cls : (s.putOption r).cls = s.cls := rfl
@[simp] theorem State.putOption_detail : (s.putOption r).detail = s.detail := rfl
@[simp] theorem State.putOption_ver : (s.putOption r).ver = s.ver := rfl
@[simp] theorem State.putOption_typ : (s.putOption r).typ = s.typ := rfl
@[simp] theorem State.putOption_code : (s.putOption r).code = s.code := rfl
@[simp] theorem State.putOption_mid : (s.putOption r).mid = s.mid := rfl
@[simp] theorem State.putOption_token : (s.putOption r).token = s.token := rfl
@[simp] theorem State.putOption_opts : (s.putOption r).opts = s.opts := rfl
@[simp] theorem State.putOption_payload : (s.putOption r).payload = s.payload := rfl
@[simp] theorem State.putOption_cmd : (s.putOption r).cmd = s.cmd := rfl
@[simp] theorem State.putOption_scan : (s.putOption r).scan = s.scan := rfl
@[simp] theorem State.putOption_cap : (s.putOption r).cap = s.cap := rfl
@[simp] theorem State.putOption_host : (s.putOption r).host = s.host := rfl
@[simp] theorem State.putOption_reads : (s.putOption r).reads = s.reads := rfl

@[simp] theorem State.putHeader_status : (s.putHeader h).status = s.status := rfl
@[simp] theorem State.putHeader_errPos : (s.putHeader h).errPos = s.errPos := rfl
@[simp] theorem State.putHeader_input : (s.putHeader h).input = s.input := rfl
@[simp] theorem State.putHeader_out : (s.putHeader h).out = s.out := rfl
@[simp] theorem State.putHeader_arg : (s.putHeader h).arg = s.arg := rfl
@[simp] theorem State.putHeader_num : (s.putHeader h).num = s.num := rfl
@[simp] theorem State.putHeader_prev : (s.putHeader h).prev = s.prev := rfl
@[simp] theorem State.putHeader_res : (s.putHeader h).res = s.res := rfl
@[simp] theorem State.putHeader_consumed : (s.putHeader h).consumed = s.consumed := rfl
@[simp] theorem State.putHeader_cls : (s.putHeader h).cls = s.cls := rfl
@[simp] theorem State.putHeader_detail : (s.putHeader h).detail = s.detail := rfl
@[simp] theorem State.putHeader_ver : (s.putHeader h).ver = .holds (zext32 h.ver) := rfl
@[simp] theorem State.putHeader_typ : (s.putHeader h).typ = .holds (zext32 h.typ) := rfl
@[simp] theorem State.putHeader_code : (s.putHeader h).code = .holds (zext32 h.code) := rfl
@[simp] theorem State.putHeader_mid : (s.putHeader h).mid = .holds (zext32 h.mid) := rfl
@[simp] theorem State.putHeader_token : (s.putHeader h).token = s.token := rfl
@[simp] theorem State.putHeader_opts : (s.putHeader h).opts = s.opts := rfl
@[simp] theorem State.putHeader_payload : (s.putHeader h).payload = s.payload := rfl
@[simp] theorem State.putHeader_cmd : (s.putHeader h).cmd = s.cmd := rfl
@[simp] theorem State.putHeader_scan : (s.putHeader h).scan = s.scan := rfl
@[simp] theorem State.putHeader_cap : (s.putHeader h).cap = s.cap := rfl
@[simp] theorem State.putHeader_host : (s.putHeader h).host = s.host := rfl
@[simp] theorem State.putHeader_reads : (s.putHeader h).reads = s.reads := rfl

@[simp] theorem State.putHdrDec_status : (s.putHdrDec h).status = s.status := rfl
@[simp] theorem State.putHdrDec_errPos : (s.putHdrDec h).errPos = s.errPos := rfl
@[simp] theorem State.putHdrDec_input : (s.putHdrDec h).input = s.input := rfl
@[simp] theorem State.putHdrDec_out : (s.putHdrDec h).out = s.out := rfl
@[simp] theorem State.putHdrDec_arg : (s.putHdrDec h).arg = s.arg := rfl
@[simp] theorem State.putHdrDec_num : (s.putHdrDec h).num = s.num := rfl
@[simp] theorem State.putHdrDec_prev : (s.putHdrDec h).prev = s.prev := rfl
@[simp] theorem State.putHdrDec_res : (s.putHdrDec h).res = .holds (zext32 h.tkl) := rfl
@[simp] theorem State.putHdrDec_consumed : (s.putHdrDec h).consumed = s.consumed := rfl
@[simp] theorem State.putHdrDec_cls : (s.putHdrDec h).cls = s.cls := rfl
@[simp] theorem State.putHdrDec_detail : (s.putHdrDec h).detail = s.detail := rfl
@[simp] theorem State.putHdrDec_ver : (s.putHdrDec h).ver = .holds (zext32 h.ver) := rfl
@[simp] theorem State.putHdrDec_typ : (s.putHdrDec h).typ = .holds (zext32 h.typ) := rfl
@[simp] theorem State.putHdrDec_code : (s.putHdrDec h).code = .holds (zext32 h.code) := rfl
@[simp] theorem State.putHdrDec_mid : (s.putHdrDec h).mid = .holds (zext32 h.mid) := rfl
@[simp] theorem State.putHdrDec_token : (s.putHdrDec h).token = s.token := rfl
@[simp] theorem State.putHdrDec_opts : (s.putHdrDec h).opts = s.opts := rfl
@[simp] theorem State.putHdrDec_payload : (s.putHdrDec h).payload = s.payload := rfl
@[simp] theorem State.putHdrDec_cmd : (s.putHdrDec h).cmd = s.cmd := rfl
@[simp] theorem State.putHdrDec_scan : (s.putHdrDec h).scan = s.scan := rfl
@[simp] theorem State.putHdrDec_cap : (s.putHdrDec h).cap = s.cap := rfl
@[simp] theorem State.putHdrDec_host : (s.putHdrDec h).host = s.host := rfl
@[simp] theorem State.putHdrDec_reads : (s.putHdrDec h).reads = s.reads := rfl

@[simp] theorem State.putMessage_status : (s.putMessage h tk os pl).status = s.status := rfl
@[simp] theorem State.putMessage_errPos : (s.putMessage h tk os pl).errPos = s.errPos := rfl
@[simp] theorem State.putMessage_input : (s.putMessage h tk os pl).input = s.input := rfl
@[simp] theorem State.putMessage_out : (s.putMessage h tk os pl).out = s.out := rfl
@[simp] theorem State.putMessage_arg : (s.putMessage h tk os pl).arg = s.arg := rfl
@[simp] theorem State.putMessage_num : (s.putMessage h tk os pl).num = s.num := rfl
@[simp] theorem State.putMessage_prev : (s.putMessage h tk os pl).prev = s.prev := rfl
@[simp] theorem State.putMessage_res : (s.putMessage h tk os pl).res = s.res := rfl
@[simp] theorem State.putMessage_consumed : (s.putMessage h tk os pl).consumed = s.consumed := rfl
@[simp] theorem State.putMessage_cls : (s.putMessage h tk os pl).cls = s.cls := rfl
@[simp] theorem State.putMessage_detail : (s.putMessage h tk os pl).detail = s.detail := rfl
@[simp] theorem State.putMessage_ver : (s.putMessage h tk os pl).ver = .holds (zext32 h.ver) := rfl
@[simp] theorem State.putMessage_typ : (s.putMessage h tk os pl).typ = .holds (zext32 h.typ) := rfl
@[simp] theorem State.putMessage_code : (s.putMessage h tk os pl).code = .holds (zext32 h.code) := rfl
@[simp] theorem State.putMessage_mid : (s.putMessage h tk os pl).mid = .holds (zext32 h.mid) := rfl
@[simp] theorem State.putMessage_token : (s.putMessage h tk os pl).token = .holds tk := rfl
@[simp] theorem State.putMessage_opts : (s.putMessage h tk os pl).opts = .holds os := rfl
@[simp] theorem State.putMessage_payload : (s.putMessage h tk os pl).payload = .holds pl := rfl
@[simp] theorem State.putMessage_cmd : (s.putMessage h tk os pl).cmd = s.cmd := rfl
@[simp] theorem State.putMessage_scan : (s.putMessage h tk os pl).scan = s.scan := rfl
@[simp] theorem State.putMessage_cap : (s.putMessage h tk os pl).cap = s.cap := rfl
@[simp] theorem State.putMessage_host : (s.putMessage h tk os pl).host = s.host := rfl
@[simp] theorem State.putMessage_reads : (s.putMessage h tk os pl).reads = s.reads := rfl

end Updates

section RaiseError

variable (s : State) (outs : List EntryName) (c : Cause) (pos : Nat)

/-- A field that spoiling no output touches is as before after spoiling any list of outputs. -/
theorem State.foldl_spoil_field {α : Type} (f : State → α) (hf : ∀ s e, f (State.spoil s e) = f s) :
    f (outs.foldl State.spoil s) = f s := by
  induction outs generalizing s with
  | nil => rfl
  | cons e es ih => rw [List.foldl_cons, ih, hf]

@[simp] theorem State.raiseError_status : (s.raiseError outs c pos).status = c.status := rfl
@[simp] theorem State.raiseError_errPos : (s.raiseError outs c pos).errPos = pos := rfl

@[simp] theorem State.raiseError_input : (s.raiseError outs c pos).input = s.input :=
  State.foldl_spoil_field s outs State.input (fun _ e => by cases e <;> rfl)

@[simp] theorem State.raiseError_arg : (s.raiseError outs c pos).arg = s.arg :=
  State.foldl_spoil_field s outs State.arg (fun _ e => by cases e <;> rfl)

@[simp] theorem State.raiseError_prev : (s.raiseError outs c pos).prev = s.prev :=
  State.foldl_spoil_field s outs State.prev (fun _ e => by cases e <;> rfl)

@[simp] theorem State.raiseError_cmd : (s.raiseError outs c pos).cmd = s.cmd :=
  State.foldl_spoil_field s outs State.cmd (fun _ e => by cases e <;> rfl)

@[simp] theorem State.raiseError_scan : (s.raiseError outs c pos).scan = s.scan :=
  State.foldl_spoil_field s outs State.scan (fun _ e => by cases e <;> rfl)

@[simp] theorem State.raiseError_cap : (s.raiseError outs c pos).cap = s.cap :=
  State.foldl_spoil_field s outs State.cap (fun _ e => by cases e <;> rfl)

@[simp] theorem State.raiseError_host : (s.raiseError outs c pos).host = s.host :=
  State.foldl_spoil_field s outs State.host (fun _ e => by cases e <;> rfl)

@[simp] theorem State.raiseError_reads : (s.raiseError outs c pos).reads = s.reads :=
  State.foldl_spoil_field s outs State.reads (fun _ e => by cases e <;> rfl)

end RaiseError

end Sys2Proof.Machine
end

