-- ==== Sys2Proof/Laws/Dispatch.lean ====
section
/-! SUPPORT. The arms of `exec` as equations, what a step does at each place of a walk, and what the element
decoded at a place does whatever row its byte belongs to. Cite these; never unfold `exec` or `step`. -/

namespace Sys2Proof.Machine

open Sys2Proof

section Arms

variable (s : State)

@[simp] theorem exec_nibEnc : exec (.nibEnc) s = execNibEnc s := rfl
@[simp] theorem exec_nibDec : exec (.nibDec) s = execNibDec s := rfl
@[simp] theorem exec_optEnc : exec (.optEnc) s = execOptEnc s := rfl
@[simp] theorem exec_optDec : exec (.optDec) s = execOptDec s := rfl
@[simp] theorem exec_hdrEnc : exec (.hdrEnc) s = execHdrEnc s := rfl
@[simp] theorem exec_hdrDec : exec (.hdrDec) s = execHdrDec s := rfl
@[simp] theorem exec_msgEnc : exec (.msgEnc) s = execMsgEnc s := rfl
@[simp] theorem exec_msgDec : exec (.msgDec) s = execMsgDec s := rfl
@[simp] theorem exec_codeSplit : exec (.codeSplit) s = execCodeSplit s := rfl
@[simp] theorem exec_codeSetClass : exec (.codeSetClass) s = execCodeSetClass s := rfl
@[simp] theorem exec_codeSetDetail : exec (.codeSetDetail) s = execCodeSetDetail s := rfl
@[simp] theorem exec_reservedRsv (r : _) (o : _) : exec (.reservedRsv r o) s = execReservedRsv s := rfl
@[simp] theorem exec_reservedOpc00 : exec (.reservedOpc00) s = execReservedOpc00 s := rfl
@[simp] theorem exec_reservedOpc0C0F (o : _) : exec (.reservedOpc0C0F o) s = execReservedOpc0C0F s := rfl
@[simp] theorem exec_reservedOpc101F (o : _) : exec (.reservedOpc101F o) s = execReservedOpc101F s := rfl
@[simp] theorem exec_reservedOpc203F (o : _) : exec (.reservedOpc203F o) s = execReservedOpc203F s := rfl
@[simp] theorem exec_reservedOpc407F (o : _) : exec (.reservedOpc407F o) s = execReservedOpc407F s := rfl
@[simp] theorem exec_reservedOpc80FF (o : _) : exec (.reservedOpc80FF o) s = execReservedOpc80FF s := rfl
@[simp] theorem exec_wireHdrByte0 (v : _) (t : _) (k : _) : exec (.wireHdrByte0 v t k) s = execWireHdrByte0 v t k s := rfl
@[simp] theorem exec_wireHdrTklRsvd9 (v : _) (t : _) : exec (.wireHdrTklRsvd9 v t) s = execWireHdrTklRsvd9 v t s := rfl
@[simp] theorem exec_wireHdrTklRsvd1011 (v : _) (t : _) (k : _) : exec (.wireHdrTklRsvd1011 v t k) s = execWireHdrTklRsvd1011 v t k s := rfl
@[simp] theorem exec_wireHdrTklRsvd1215 (v : _) (t : _) (k : _) : exec (.wireHdrTklRsvd1215 v t k) s = execWireHdrTklRsvd1215 v t k s := rfl
@[simp] theorem exec_wireHdrCode (c : _) (d : _) : exec (.wireHdrCode c d) s = execWireHdrCode c d s := rfl
@[simp] theorem exec_wireHdrMid (m : _) : exec (.wireHdrMid m) s = execWireHdrMid m s := rfl
@[simp] theorem exec_wireMarker : exec (.wireMarker) s = execWireMarker s := rfl
@[simp] theorem exec_wireOptDnib15 (l : _) : exec (.wireOptDnib15 l) s = execWireOptDnib15 l s := rfl
@[simp] theorem exec_wireOptLnib15 (d : _) : exec (.wireOptLnib15 d) s = execWireOptLnib15 d s := rfl
@[simp] theorem exec_wireOpt (d : _) (l : _) : exec (.wireOpt d l) s = execWireOpt d l s := rfl
@[simp] theorem exec_nibbleDirect (n : _) : exec (.nibbleDirect n) s = execNibbleDirect n s := rfl
@[simp] theorem exec_nibbleExt1 : exec (.nibbleExt1) s = execNibbleExt1 s := rfl
@[simp] theorem exec_nibbleExt2 : exec (.nibbleExt2) s = execNibbleExt2 s := rfl
@[simp] theorem exec_nibbleRsvd : exec (.nibbleRsvd) s = execNibbleRsvd s := rfl

end Arms

/-- A step of a walk runs the element that stands next, ends the walk at the end of the input, or raises
the walking command's error. -/
theorem step_scan {s : State} {sc : Scan} (h : s.scan = some sc) :
    step s = match nextElement sc s with
      | .ok (some i) => exec i s
      | .ok none => endOfInput sc s
      | .error e => advance sc s (.error e) := by
  simp only [step, fetch, h, fetchElement]
  rcases nextElement sc s with e | (_ | i) <;> rfl

theorem step_cmd {s : State} {w : Word} (h : s.scan = none) (h' : s.cmd = some w) :
    step s = exec (decodeCmd w) { s with cmd := none } := by
  simp only [step, fetch, h, h']

theorem step_host {s : State} {l : HostLine} {ls : List HostLine} (h : s.scan = none)
    (h' : s.cmd = none) (h'' : s.host = l :: ls) : step s = hostStep l { s with host := ls } := by
  simp only [step, fetch, h, h', h'']

theorem step_idle {s : State} (h : s.scan = none) (h' : s.cmd = none) (h'' : s.host = []) :
    step s = .next s := by
  simp only [step, fetch, h, h', h'']

/-- The element an option's first byte decodes to reads its two nibbles, whichever of the three rows of
R84 it is: a row with a nibble 15 ends as the general rule of R123 does. -/
theorem exec_decodeOptStart (b : Byte) (s : State) :
    ∃ dn ln, exec (decodeOptStart b) s = optElement dn ln s ∧
      ∀ inp p prev, optFields inp p prev dn ln =
        optFields inp p prev (b.extractLsb' 4 4) (b.extractLsb' 0 4) := by
  unfold decodeOptStart
  split
  · rename_i h; exact ⟨15, _, rfl, fun _ _ _ => by rw [h]⟩
  split
  · rename_i h; exact ⟨_, 15, rfl, fun _ _ _ => by rw [h]⟩
  · exact ⟨_, _, rfl, fun _ _ _ => rfl⟩

/-- The element a nibble decodes to is NIB_DEC from that nibble on, whichever of the four rows it is. -/
theorem exec_decodeNibble (n : Nibble) (s : State) : exec (decodeNibble n) s = nibbleElement n s := by
  unfold decodeNibble
  split
  · rfl
  split
  · rename_i h; subst h; rfl
  split
  · rename_i h; subst h; rfl
  · have : n = 15 := by revert n; decide
    subst this; rfl

/-- The element header byte 0 decodes to reads its three fields, whichever of the four rows it is. -/
theorem exec_decodeHdr0 (b : Byte) (s : State) : exec (decodeHdr0 b) s =
    hdr0Element (b.extractLsb' 6 2) (b.extractLsb' 4 2) (b.extractLsb' 0 4) s := by
  have x1 : ∀ b : Byte, b.extractLsb' 0 4 ≠ 9 → ¬ (b.extractLsb' 0 4).toNat ≤ 8 →
      (b.extractLsb' 0 4).toNat ≤ 11 → (5#3 ++ b.extractLsb' 0 1 : BitVec 4) = b.extractLsb' 0 4 := by
    decide
  have x2 : ∀ b : Byte, ¬ (b.extractLsb' 0 4).toNat ≤ 11 →
      (3#2 ++ b.extractLsb' 0 2 : BitVec 4) = b.extractLsb' 0 4 := by decide
  unfold decodeHdr0
  split
  · rfl
  split
  · rename_i h; simp only [exec_wireHdrTklRsvd9, execWireHdrTklRsvd9]; rw [h]; rfl
  split
  · simp only [exec_wireHdrTklRsvd1011, execWireHdrTklRsvd1011]; rw [x1 b ‹_› ‹_› ‹_›]
  · simp only [exec_wireHdrTklRsvd1215, execWireHdrTklRsvd1215]; rw [x2 b ‹_›]

/-- A walk's state without the walk, when no walk was there. -/
theorem endScan_of_none {s : State} (h : s.scan = none) (x : Option Scan) :
    State.endScan { s with scan := x } = s := by
  cases s; simp_all [State.endScan]

end Sys2Proof.Machine
end

