-- ==== Sys2Proof/Laws/Memory.lean ====
section
/-! SUPPORT. The memory operations keep the stores within the instance's capacities (`Memory.wf`): taking
an error, completing, the writes of the decode commands, and the host's writes. -/

namespace Sys2Proof.Machine

open Sys2Proof

section Fits

variable {cap : Config.Capacity}

/-- A shorter sequence fits where a longer one does. -/
theorem fitsBuf_mono {m n : Nat} (h : fitsBuf cap n = true) (hle : m ≤ n) : fitsBuf cap m = true := by
  revert h; unfold fitsBuf; cases cap.maxBuf <;> simp; omega

theorem fitsBuf_zero : fitsBuf cap 0 = true := by unfold fitsBuf; cases cap.maxBuf <;> simp

theorem fitsOpts_zero : fitsOpts cap 0 = true := by unfold fitsOpts; cases cap.maxOpts <;> simp

theorem optsFit_nil : optsFit cap [] = true := by simp [optsFit, fitsOpts_zero]

/-- One more option fits when the list has room and the option's value fits. -/
theorem optsFit_snoc {l : List OptEntry} {o : OptEntry} (hl : optsFit cap l = true)
    (hn : fitsOpts cap (l.length + 1) = true) (ho : fitsBuf cap o.val.length = true) :
    optsFit cap (l ++ [o]) = true := by
  simp only [optsFit, Bool.and_eq_true, List.all_append, List.all_cons, List.all_nil,
    List.length_append, List.length_cons, List.length_nil] at hl ⊢
  exact ⟨hn, hl.2, ho, trivial⟩

/-- What is read from a sequence that fits fits. -/
theorem fitsBuf_memRead {inp : Bytes} {p n : Nat} (h : fitsBuf cap inp.length = true) :
    fitsBuf cap (memRead inp p n).length = true :=
  fitsBuf_mono h (by simp [memRead])

end Fits

/-- The six clauses of the form. -/
theorem Memory.wf_iff {s : State} : Memory.wf s = true ↔
    (s.input.all (fun b => fitsBuf s.cap b.length) = true ∧
      s.out.all (fun b => fitsBuf s.cap b.length) = true ∧
      s.token.all (fun b => fitsBuf s.cap b.length) = true ∧
      s.payload.all (fun b => fitsBuf s.cap b.length) = true ∧
      s.opts.all (optsFit s.cap) = true) ∧
    ∀ sc, s.scan = some sc → fitsBuf s.cap sc.token.length = true ∧ optsFit s.cap sc.opts = true := by
  unfold Memory.wf
  cases s.scan <;> simp [and_assoc]

theorem Memory.wf_reset : Memory.wf State.reset = true := rfl

section Keeps

variable {s : State} (h : Memory.wf s = true)
include h

theorem Memory.wf_succeed : Memory.wf s.succeed = true := h

theorem Memory.wf_endScan : Memory.wf s.endScan = true := by
  have := (Memory.wf_iff.mp h).1
  exact Memory.wf_iff.mpr ⟨this, fun _ h => by simp at h⟩

/-- Spoiling an output empties it. -/
theorem Memory.wf_spoil (e : EntryName) : Memory.wf (s.spoil e) = true := by
  have h' := Memory.wf_iff.mp h
  refine Memory.wf_iff.mpr ?_
  cases e <;> simp_all [State.spoil, Entry.all, fitsBuf_zero]

/-- Taking an error keeps the form (60_exceptions.md R204). -/
theorem Memory.wf_raiseError (outs : List EntryName) (c : Cause) (pos : Nat) :
    Memory.wf (s.raiseError outs c pos) = true := by
  have : Memory.wf (outs.foldl State.spoil s) = true := by
    induction outs generalizing s with
    | nil => exact h
    | cons e es ih => exact ih (Memory.wf_spoil h e)
  exact this

/-- A host write of a register keeps the form. -/
theorem Memory.wf_setReg (r : RegName) (v : Word) : Memory.wf (s.setReg r v) = true := by
  cases r <;> exact h

/-- A host write of a store that fits keeps the form (70_reset_and_hazards.md R243). -/
theorem Memory.wf_setStore {v : Bytes} (hv : fitsBuf s.cap v.length = true) (b : StoreName) :
    Memory.wf (s.setStore b v) = true := by
  have h' := Memory.wf_iff.mp h
  refine Memory.wf_iff.mpr ?_
  cases b <;> simp_all [State.setStore, Entry.all]

/-- The host's write of OPTS, when it fits (R243). -/
theorem Memory.wf_writeOpts {l : List OptEntry} (hl : optsFit s.cap l = true) :
    Memory.wf { s with opts := .holds l } = true := by
  have h' := Memory.wf_iff.mp h
  refine Memory.wf_iff.mpr ?_
  simp_all [Entry.all]

/-- A write of OUT that fits. -/
theorem Memory.wf_writeOut {b : Bytes} (hb : fitsBuf s.cap b.length = true) :
    Memory.wf { s with out := .holds b } = true := by
  have h' := Memory.wf_iff.mp h
  refine Memory.wf_iff.mpr ?_
  simp_all [Entry.all]

/-- The writes of OPT_DEC (42_option.md R129), the value fitting. -/
theorem Memory.wf_putOption {r : Word × Bytes × Nat} (hr : fitsBuf s.cap r.2.1.length = true) :
    Memory.wf (s.putOption r) = true := by
  have h' := Memory.wf_iff.mp h
  refine Memory.wf_iff.mpr ?_
  simp_all [Entry.all]

theorem Memory.wf_putHeader (f : HdrFields) : Memory.wf (s.putHeader f) = true := h

/-- The writes of MSG_DEC (44_message.md R168), all three stores fitting. -/
theorem Memory.wf_putMessage (f : HdrFields) {tk pl : Bytes} {os : List OptEntry}
    (ht : fitsBuf s.cap tk.length = true) (hp : fitsBuf s.cap pl.length = true)
    (ho : optsFit s.cap os = true) : Memory.wf (s.putMessage f tk os pl) = true := by
  have h' := Memory.wf_iff.mp h
  refine Memory.wf_iff.mpr ?_
  simp_all [Entry.all]

/-- A walk that moves on, what it has read so far fitting. -/
theorem Memory.wf_setScan {sc : Scan} (ht : fitsBuf s.cap sc.token.length = true)
    (ho : optsFit s.cap sc.opts = true) : Memory.wf { s with scan := some sc } = true := by
  have h' := Memory.wf_iff.mp h
  refine Memory.wf_iff.mpr ?_
  simp_all

end Keeps

/-- What `opt_dec_at` reads from a sequence that fits fits. -/
theorem fitsBuf_optFields {cap : Config.Capacity} {inp : Bytes} {p : Nat} {prev : Word} {dn ln : Nibble}
    {r : Word × Bytes × Nat} (h : fitsBuf cap inp.length = true) (hr : optFields inp p prev dn ln = .ok r) :
    fitsBuf cap r.2.1.length = true := by
  obtain ⟨-, -, -, -, -, -, rfl⟩ := optFields_ok.mp hr
  exact fitsBuf_memRead h

/-- A host's write of a store answers with the store written, or refuses it (R243). -/
theorem hostWrStore_next {b : StoreName} {v : Bytes} {s t : State} (h : hostWrStore b v s = .next t) :
    fitsBuf s.cap v.length = true ∧ t = s.setStore b v := by
  unfold hostWrStore at h
  split at h <;> cases h
  exact ⟨‹_›, rfl⟩

theorem hostWrOpts_next {l : List OptEntry} {s t : State} (h : hostWrOpts l s = .next t) :
    optsFit s.cap l = true ∧ t = { s with opts := .holds l } := by
  unfold hostWrOpts at h
  split at h <;> cases h
  exact ⟨‹_›, rfl⟩

end Sys2Proof.Machine
end

