-- ==== Sys2Proof/Laws/PerInstr.lean ====
section
/-! SUPPORT. Per instruction: its unit of code has the width of its row of spec/opcode_table.json and
the row's mask and match hold of it. -/

namespace Sys2Proof.Laws.Rows

open Sys2Proof

/-- The encoding of `i` matches the row of the opcode table that `i` stands for. -/
def Statement (i : Instr) : Prop :=
  (encode i).width = i.row.1 ∧ (encode i).bits &&& i.row.2.1 = i.row.2.2

theorem nibEnc : Statement (.nibEnc) := ⟨rfl, by decide⟩
theorem nibDec : Statement (.nibDec) := ⟨rfl, by decide⟩
theorem optEnc : Statement (.optEnc) := ⟨rfl, by decide⟩
theorem optDec : Statement (.optDec) := ⟨rfl, by decide⟩
theorem hdrEnc : Statement (.hdrEnc) := ⟨rfl, by decide⟩
theorem hdrDec : Statement (.hdrDec) := ⟨rfl, by decide⟩
theorem msgEnc : Statement (.msgEnc) := ⟨rfl, by decide⟩
theorem msgDec : Statement (.msgDec) := ⟨rfl, by decide⟩
theorem codeSplit : Statement (.codeSplit) := ⟨rfl, by decide⟩
theorem codeSetClass : Statement (.codeSetClass) := ⟨rfl, by decide⟩
theorem codeSetDetail : Statement (.codeSetDetail) := ⟨rfl, by decide⟩
theorem reservedRsv (r : _) (o : _) : Statement (.reservedRsv r o) := by
  simp [Statement, encode, Instr.row, CodeUnit.width, CodeUnit.bits]
theorem reservedOpc00 : Statement (.reservedOpc00) := ⟨rfl, by decide⟩
theorem reservedOpc0C0F (o : _) : Statement (.reservedOpc0C0F o) := by
  revert o; unfold Statement; decide
theorem reservedOpc101F (o : _) : Statement (.reservedOpc101F o) := by
  revert o; unfold Statement; decide
theorem reservedOpc203F (o : _) : Statement (.reservedOpc203F o) := by
  revert o; unfold Statement; decide
theorem reservedOpc407F (o : _) : Statement (.reservedOpc407F o) := by
  revert o; unfold Statement; decide
theorem reservedOpc80FF (o : _) : Statement (.reservedOpc80FF o) := by
  revert o; unfold Statement; decide
theorem wireHdrByte0 (v : _) (t : _) (k : _) : Statement (.wireHdrByte0 v t k) := by
  simp [Statement, encode, Instr.row, CodeUnit.width, CodeUnit.bits]
theorem wireHdrTklRsvd9 (v : _) (t : _) : Statement (.wireHdrTklRsvd9 v t) := by
  revert v t; unfold Statement; decide
theorem wireHdrTklRsvd1011 (v : _) (t : _) (k : _) : Statement (.wireHdrTklRsvd1011 v t k) := by
  revert v t k; unfold Statement; decide
theorem wireHdrTklRsvd1215 (v : _) (t : _) (k : _) : Statement (.wireHdrTklRsvd1215 v t k) := by
  revert v t k; unfold Statement; decide
theorem wireHdrCode (c : _) (d : _) : Statement (.wireHdrCode c d) := by
  simp [Statement, encode, Instr.row, CodeUnit.width, CodeUnit.bits]
theorem wireHdrMid (m : _) : Statement (.wireHdrMid m) := by
  simp [Statement, encode, Instr.row, CodeUnit.width, CodeUnit.bits]
theorem wireMarker : Statement (.wireMarker) := ⟨rfl, by decide⟩
theorem wireOptDnib15 (l : _) : Statement (.wireOptDnib15 l) := by
  revert l; unfold Statement; decide
theorem wireOptLnib15 (d : _) : Statement (.wireOptLnib15 d) := by
  revert d; unfold Statement; decide
theorem wireOpt (d : _) (l : _) : Statement (.wireOpt d l) := by
  simp [Statement, encode, Instr.row, CodeUnit.width, CodeUnit.bits]
theorem nibbleDirect (n : _) : Statement (.nibbleDirect n) := by
  simp [Statement, encode, Instr.row, CodeUnit.width, CodeUnit.bits]
theorem nibbleExt1 : Statement (.nibbleExt1) := ⟨rfl, by decide⟩
theorem nibbleExt2 : Statement (.nibbleExt2) := ⟨rfl, by decide⟩
theorem nibbleRsvd : Statement (.nibbleRsvd) := ⟨rfl, by decide⟩

end Sys2Proof.Laws.Rows
end

