-- ==== Sys2Proof/Laws/Status.lean ====
section
/-! SUPPORT. When STATUS and ERR_POS are legal: after a success, after an error at a position its cause may
record, and so at the end of a command and of an element whose errors are such (60_exceptions.md R202). -/

namespace Sys2Proof.Machine

open Sys2Proof

/-- A cause whose position depends on the input may record any. -/
theorem Cause.posLegal_of_none {c : Cause} (h : c.fixedPos = none) (pos : Nat) : c.posLegal pos :=
  fun p hp => by rw [h] at hp; cases hp

/-- A cause with one position may record that one. -/
theorem Cause.posLegal_of_some {c : Cause} {pos : Nat} (h : c.fixedPos = some pos) : c.posLegal pos :=
  fun p hp => by rw [h] at hp; cases hp; rfl

theorem State.statusLegal_succeed (s : State) : s.succeed.statusLegal := .inl ⟨.inr rfl, rfl⟩

theorem State.statusLegal_raiseError (s : State) (outs : List EntryName) {c : Cause} {pos : Nat}
    (h : c.posLegal pos) : (s.raiseError outs c pos).statusLegal := .inr ⟨c, rfl, h⟩

/-- A command leaves a legal status if the error it may raise has a legal position. -/
theorem statusLegal_finish {outs : List EntryName} {s t : State} {r : Calc State}
    (hr : ∀ c pos, r = .error (.err c pos) → c.posLegal pos) (h : finish outs s r = .next t) :
    t.statusLegal := by
  rcases finish_eq_next.mp h with ⟨u, -, rfl⟩ | ⟨c, pos, he, rfl⟩
  · exact u.statusLegal_succeed
  · exact s.statusLegal_raiseError outs (hr c pos he)

/-- An element that moves the walk on keeps the status, and one that ends it leaves a legal one. -/
theorem statusLegal_advance {sc : Scan} {s t : State} {r : Calc Scan} (hs : s.statusLegal)
    (hr : ∀ c pos, r = .error (.err c pos) → c.posLegal pos) (h : advance sc s r = .next t) :
    t.statusLegal := by
  rcases advance_eq_next.mp h with ⟨sc', -, rfl⟩ | ⟨c, pos, he, rfl⟩
  · exact hs
  · exact s.endScan.statusLegal_raiseError sc.walk.outputs (hr c pos he)

end Sys2Proof.Machine
end

