-- ==== Sys2Proof/Tests/Slice0.lean ====
section
/-! SUPPORT. The model's own tests: the well-formedness smoke, one word of every row decoded and encoded,
single steps checked against spec/95_test_vectors.md, and for every statement with hypotheses a state and
operands that meet them. Every expected value is the spec's. -/

namespace Sys2Proof.Tests

open Sys2Proof Sys2Proof.Machine

/-! ### Well-formedness: a term each check refuses -/

theorem test_illFormed_reservedRsv : (Instr.reservedRsv 0 7).wellFormed = false := by decide
theorem test_illFormed_wireHdrByte0 : (Instr.wireHdrByte0 1 0 9).wellFormed = false := by decide
theorem test_illFormed_wireOptLnib15 : (Instr.wireOptLnib15 15).wellFormed = false := by decide
theorem test_illFormed_wireOpt_delta : (Instr.wireOpt 15 0).wellFormed = false := by decide
theorem test_illFormed_wireOpt_length : (Instr.wireOpt 0 15).wellFormed = false := by decide
theorem test_illFormed_nibbleDirect : (Instr.nibbleDirect 13).wellFormed = false := by decide
theorem test_wellFormed : (Instr.wireHdrByte0 3 3 8).wellFormed = true ∧
    (Instr.nibbleDirect 12).wellFormed = true ∧ (Instr.wireOpt 14 14).wellFormed = true := by decide

/-! ### Decoding and encoding: one unit of every row, written from 30_encoding.md -/

/-- A unit decodes, at a position, to a row, and the row encodes to the unit. -/
abbrev reads (p : Position) (u : CodeUnit) (i : Instr) : Prop :=
  decode p u = .ok i ∧ encode i = u ∧ i.wellFormed = true

theorem test_decode_nibEnc : reads .cmd (.word 0x00000001) .nibEnc := ⟨rfl, rfl, rfl⟩
theorem test_decode_nibDec : reads .cmd (.word 0x00000002) .nibDec := ⟨rfl, rfl, rfl⟩
theorem test_decode_optEnc : reads .cmd (.word 0x00000003) .optEnc := ⟨rfl, rfl, rfl⟩
theorem test_decode_optDec : reads .cmd (.word 0x00000004) .optDec := ⟨rfl, rfl, rfl⟩
theorem test_decode_hdrEnc : reads .cmd (.word 0x00000005) .hdrEnc := ⟨rfl, rfl, rfl⟩
theorem test_decode_hdrDec : reads .cmd (.word 0x00000006) .hdrDec := ⟨rfl, rfl, rfl⟩
theorem test_decode_msgEnc : reads .cmd (.word 0x00000007) .msgEnc := ⟨rfl, rfl, rfl⟩
theorem test_decode_msgDec : reads .cmd (.word 0x00000008) .msgDec := ⟨rfl, rfl, rfl⟩
theorem test_decode_codeSplit : reads .cmd (.word 0x00000009) .codeSplit := ⟨rfl, rfl, rfl⟩
theorem test_decode_codeSetClass : reads .cmd (.word 0x0000000A) .codeSetClass := ⟨rfl, rfl, rfl⟩
theorem test_decode_codeSetDetail : reads .cmd (.word 0x0000000B) .codeSetDetail := ⟨rfl, rfl, rfl⟩
/-- CW4, CW5 and CW6: RSV is tested before OPC. -/
theorem test_decode_reservedRsv : reads .cmd (.word 0x00000107) (.reservedRsv 1 7) ∧
    reads .cmd (.word 0x00000100) (.reservedRsv 1 0) ∧
    reads .cmd (.word 0x80000001) (.reservedRsv 0x800000 1) := by decide
theorem test_decode_reservedOpc00 : reads .cmd (.word 0x00000000) .reservedOpc00 := ⟨rfl, rfl, rfl⟩
theorem test_decode_reservedOpc0C0F : reads .cmd (.word 0x0000000C) (.reservedOpc0C0F 0) ∧
    reads .cmd (.word 0x0000000F) (.reservedOpc0C0F 3) := by decide
theorem test_decode_reservedOpc101F : reads .cmd (.word 0x00000010) (.reservedOpc101F 0) ∧
    reads .cmd (.word 0x0000001F) (.reservedOpc101F 15) := by decide
theorem test_decode_reservedOpc203F : reads .cmd (.word 0x00000020) (.reservedOpc203F 0) ∧
    reads .cmd (.word 0x0000003F) (.reservedOpc203F 31) := by decide
theorem test_decode_reservedOpc407F : reads .cmd (.word 0x00000040) (.reservedOpc407F 0) ∧
    reads .cmd (.word 0x0000007F) (.reservedOpc407F 63) := by decide
theorem test_decode_reservedOpc80FF : reads .cmd (.word 0x00000080) (.reservedOpc80FF 0) ∧
    reads .cmd (.word 0x000000FF) (.reservedOpc80FF 127) := by decide
/-- Bit by bit from R75: 0b01_00_0000 (S1) and 0b11_11_1000 (HD3). -/
theorem test_decode_wireHdrByte0 : reads .hdr0 (.byte 0b01000000) (.wireHdrByte0 1 0 0) ∧
    reads .hdr0 (.byte 0b11111000) (.wireHdrByte0 3 3 8) := by decide
theorem test_decode_wireHdrTklRsvd9 : reads .hdr0 (.byte 0b01001001) (.wireHdrTklRsvd9 1 0) := ⟨rfl, rfl, rfl⟩
theorem test_decode_wireHdrTklRsvd1011 : reads .hdr0 (.byte 0b10011010) (.wireHdrTklRsvd1011 2 1 0) ∧
    reads .hdr0 (.byte 0b10011011) (.wireHdrTklRsvd1011 2 1 1) := by decide
theorem test_decode_wireHdrTklRsvd1215 : reads .hdr0 (.byte 0b00001100) (.wireHdrTklRsvd1215 0 0 0) ∧
    reads .hdr0 (.byte 0b00001111) (.wireHdrTklRsvd1215 0 0 3) := by decide
/-- Code 2.05 is 0b010_00101 (R76; CS1). -/
theorem test_decode_wireHdrCode : reads .hdrCode (.byte 0b01000101) (.wireHdrCode 2 5) := ⟨rfl, rfl, rfl⟩
theorem test_decode_wireHdrMid : reads .hdrMid (.half 0x1234) (.wireHdrMid 0x1234) := ⟨rfl, rfl, rfl⟩
theorem test_decode_wireMarker : reads .seqStart (.byte 0xFF) .wireMarker := ⟨rfl, rfl, rfl⟩
/-- MD17, and OD12: OPT_DEC reads 0xFF as an option's first byte. -/
theorem test_decode_wireOptDnib15 : reads .seqStart (.byte 0xFE) (.wireOptDnib15 14) ∧
    reads .optStart (.byte 0xFF) (.wireOptDnib15 15) := by decide
theorem test_decode_wireOptLnib15 : reads .seqStart (.byte 0xEF) (.wireOptLnib15 14) := ⟨rfl, rfl, rfl⟩
/-- S1: delta 11, length 1. -/
theorem test_decode_wireOpt : reads .seqStart (.byte 0b10110001) (.wireOpt 11 1) := ⟨rfl, rfl, rfl⟩
theorem test_decode_nibbleDirect : reads .nibble (.nibble 0b1100) (.nibbleDirect 12) := ⟨rfl, rfl, rfl⟩
theorem test_decode_nibbleExt1 : reads .nibble (.nibble 0b1101) .nibbleExt1 := ⟨rfl, rfl, rfl⟩
theorem test_decode_nibbleExt2 : reads .nibble (.nibble 0b1110) .nibbleExt2 := ⟨rfl, rfl, rfl⟩
theorem test_decode_nibbleRsvd : reads .nibble (.nibble 0b1111) .nibbleRsvd := ⟨rfl, rfl, rfl⟩
/-- A unit of another width than its position reads is rejected by name. -/
theorem test_decode_wrongWidth : decode .cmd (.byte 0) = .error (.wrongWidth .cmd) := rfl

/-! ### Single steps, against the vectors of 95_test_vectors.md -/

/-- The next state of an outcome meets a test; a fault and a refusal do not. -/
abbrev after (o : Host.Outcome State Fault Refusal) (p : State → Prop) [DecidablePred p] : Bool :=
  match o with
  | .next t => decide (p t)
  | .fault _ => false
  | .refused _ => false

/-- The outcome is this fault. -/
abbrev stopsWith (o : Host.Outcome State Fault Refusal) (f : Fault) : Bool :=
  match o with
  | .fault g => decide (f = g)
  | .next _ | .refused _ => false

/-- STATUS and ERR_POS after success. -/
abbrev ok (t : State) : Prop := t.status = 0x100 ∧ t.errPos = 0

/-- ARG and IN. -/
abbrev nib (a : Word) (inp : Bytes) : State := { State.reset with arg := .holds a, input := .holds inp }

/-- NUM, PREV and IN. -/
abbrev opt (n p : Word) (inp : Bytes) : State :=
  { State.reset with num := .holds n, prev := .holds p, input := .holds inp }

/-- IN alone. -/
abbrev buf (inp : Bytes) : State := { State.reset with input := .holds inp }

/-- A descriptor. -/
abbrev msg (v t c m : Word) (tok : Bytes) (os : List OptEntry) (pl : Bytes) : State :=
  { State.reset with
    ver := .holds v, typ := .holds t, code := .holds c, mid := .holds m, token := .holds tok
    opts := .holds os, payload := .holds pl }

/-- NV7. -/
theorem test_nibEnc_300 : after (exec .nibEnc (nib 300 [])) (fun t =>
    t.res = .holds 14 ∧ t.out = .holds [0x00, 0x1F] ∧ ok t) = true := by decide
/-- NV11. -/
theorem test_nibEnc_vRaw : after (exec .nibEnc (nib 65805 [])) (fun t =>
    t.res = .unwritten ∧ t.out = .holds [] ∧ t.status = 0x91) = true := by decide
/-- ND8. -/
theorem test_nibDec_ext2 : after (exec .nibDec (nib 14 [0xFF, 0xFF])) (fun t =>
    t.res = .holds 65804 ∧ t.consumed = .holds 2 ∧ ok t) = true := by decide
/-- ND1: a direct nibble reads no byte of IN, so an unwritten IN is no fault. -/
theorem test_nibDec_unwritten : after (exec .nibDec { State.reset with arg := .holds 0 }) (fun t =>
    t.res = .holds 0 ∧ t.consumed = .holds 0 ∧ ok t) = true := by decide
/-- OE6. -/
theorem test_optEnc_ext : after (exec .optEnc (opt 15 2 (List.replicate 13 0xAA))) (fun t =>
    t.out = .holds (0xDD :: 0x00 :: 0x00 :: List.replicate 13 0xAA) ∧ ok t) = true := by decide
/-- OE12. -/
theorem test_optEnc_negative : after (exec .optEnc (opt 3 5 [0x78])) (fun t =>
    t.out = .holds [] ∧ t.status = 0x81 ∧ t.errPos = 0) = true := by decide
/-- OD4. -/
theorem test_optDec_delta : after (exec .optDec (opt 0 10 [0xD1, 0x02, 0x41])) (fun t =>
    t.num = .holds 25 ∧ t.out = .holds [0x41] ∧ t.consumed = .holds 3 ∧ ok t) = true := by decide
/-- OD23: F_NUM_OVF before T_VALUE. -/
theorem test_optDec_overflow : after (exec .optDec (opt 0 0xFFFF0000 [0xE1, 0xFF, 0xFF])) (fun t =>
    t.num = .unwritten ∧ t.out = .holds [] ∧ t.consumed = .unwritten ∧ t.status = 0x52 ∧
    t.errPos = 0) = true := by decide
/-- HE5. -/
theorem test_hdrEnc : after (exec .hdrEnc (msg 2 1 0x84 0x0100 [7] [] [])) (fun t =>
    t.out = .holds [0x91, 0x84, 0x01, 0x00] ∧ ok t) = true := by decide
/-- HE12: V_CODE is first in order. -/
theorem test_hdrEnc_order : after (exec .hdrEnc (msg 1 0 256 0x10000 (List.replicate 9 0) [] []))
    (fun t => t.out = .holds [] ∧ t.status = 0x31) = true := by decide
/-- HD2. -/
theorem test_hdrDec : after (exec .hdrDec (buf [0x62, 0x45, 0xBE, 0xEF, 0xA1, 0xA2])) (fun t =>
    t.ver = .holds 1 ∧ t.typ = .holds 2 ∧ t.code = .holds 0x45 ∧ t.mid = .holds 0xBEEF ∧
    t.res = .holds 2 ∧ ok t) = true := by decide
/-- HD9: T_HEADER before F_TKL. -/
theorem test_hdrDec_short : after (exec .hdrDec (buf [0xFF, 0x00])) (fun t =>
    t.ver = .unwritten ∧ t.res = .unwritten ∧ t.status = 0x13 ∧ t.errPos = 0) = true := by decide
/-- ME3: the stable sort, a repeated number and OPTS left in its own order. -/
theorem test_msgEnc : after (exec .msgEnc
      (msg 1 1 2 1 [] [⟨11, [0x62]⟩, ⟨3, [0x78]⟩, ⟨11, [0x61]⟩] [])) (fun t =>
    t.out = .holds [0x50, 0x02, 0x00, 0x01, 0x31, 0x78, 0x81, 0x62, 0x01, 0x61] ∧
    t.opts = .holds [⟨11, [0x62]⟩, ⟨3, [0x78]⟩, ⟨11, [0x61]⟩] ∧ ok t) = true := by decide
/-- ME11: the sorted index of the option whose delta is too large. -/
theorem test_msgEnc_vDelta : after (exec .msgEnc (msg 1 0 1 0 [] [⟨1, []⟩, ⟨65806, []⟩] [])) (fun t =>
    t.out = .holds [] ∧ t.status = 0x71 ∧ t.errPos = 1) = true := by decide
/-- MD4. -/
theorem test_msgDec : after (exec .msgDec
      (buf [0x62, 0x45, 0xBE, 0xEF, 0xA1, 0xA2, 0xC1, 0x00, 0xFF, 0x48, 0x69])) (fun t =>
    t.ver = .holds 1 ∧ t.typ = .holds 2 ∧ t.code = .holds 0x45 ∧ t.mid = .holds 0xBEEF ∧
    t.token = .holds [0xA1, 0xA2] ∧ t.opts = .holds [⟨12, [0x00]⟩] ∧
    t.payload = .holds [0x48, 0x69] ∧ ok t) = true := by decide
/-- MD22: the second option raises, and the whole descriptor is unwritten. -/
theorem test_msgDec_dnib15 : after (exec .msgDec
      (buf [0x40, 0x01, 0x00, 0x00, 0xB1, 0x61, 0xF0, 0xFF])) (fun t =>
    t.opts = .unwritten ∧ t.ver = .unwritten ∧ t.status = 0x12 ∧ t.errPos = 6) = true := by decide
/-- CS4. -/
theorem test_codeSplit : after (exec .codeSplit { State.reset with code := .holds 0x84 }) (fun t =>
    t.cls = .holds 4 ∧ t.detail = .holds 4 ∧ t.code = .holds 0x84 ∧ ok t) = true := by decide
/-- CS9: bits 31:8 of an out-of-range CODE are dropped. -/
theorem test_codeSetClass : after
    (exec .codeSetClass { State.reset with cls := .holds 0, code := .holds 0xFFFFFFFF }) (fun t =>
    t.code = .holds 0x1F ∧ ok t) = true := by decide
/-- CS11. -/
theorem test_codeSetClass_vClass : after
    (exec .codeSetClass { State.reset with cls := .holds 8, code := .holds 0x45 }) (fun t =>
    t.code = .unwritten ∧ t.cls = .holds 8 ∧ t.status = 0xB1) = true := by decide
/-- CS14. -/
theorem test_codeSetDetail : after
    (exec .codeSetDetail { State.reset with detail := .holds 0, code := .holds 0x1FF }) (fun t =>
    t.code = .holds 0xE0 ∧ ok t) = true := by decide
/-- CS15. -/
theorem test_codeSetDetail_vDetail : after
    (exec .codeSetDetail { State.reset with detail := .holds 32, code := .holds 0x40 }) (fun t =>
    t.code = .unwritten ∧ t.status = 0xC1) = true := by decide
/-- CAP1, CAP3: a bounded instance with MAX_BUF 6 and MAX_OPTS 1. -/
theorem test_capacity : after (exec .msgEnc { msg 1 2 0x45 0xBEEF [0xA1, 0xA2] [⟨12, [0]⟩] [0x48, 0x69] with
      cap := ⟨some 6, some 1⟩ }) (fun t => t.out = .holds [] ∧ t.status = 0x14) = true ∧
    after (exec .msgDec { buf [0x40, 0x01, 0x00, 0x00, 0x10, 0x00] with cap := ⟨some 6, some 1⟩ }) (fun t =>
      t.opts = .unwritten ∧ t.status = 0x24 ∧ t.errPos = 5) = true := by decide
/-- P4's end: a command that reads an unwritten input faults (R25). -/
theorem test_unwritten : stopsWith (exec .codeSplit State.reset) (.unwrittenInput .code) = true := by decide

/-- CW1 to CW6, one reserved row each: only STATUS and ERR_POS are written; OUT stays. -/
theorem test_reserved : [Instr.reservedRsv 1 7, .reservedOpc00, .reservedOpc0C0F 0, .reservedOpc101F 0,
      .reservedOpc203F 0, .reservedOpc407F 0, .reservedOpc80FF 127].map
      (fun i => after (exec i { State.reset with out := .holds [1] }) (fun t =>
        t = { State.reset with
          out := .holds [1], status := if i = .reservedRsv 1 7 then 0x15 else 0x25 })) =
    List.replicate 7 true := by decide

/-! ### The rows of the wire grammar, each run by the step that fetches it -/

/-- HD2's header byte 0: version 1, type 2, token length 2. -/
theorem test_wireHdrByte0 : after (step { buf [0x62, 0x45, 0xBE, 0xEF] with scan := some (Scan.start .msgDec) })
    (fun t => t.scan = some { Scan.start .msgDec with
      place := .hdrCode, pos := 1, ver := 1, typ := 2, tkl := 2 }) = true := by decide
/-- MD15, and the other reserved token lengths: F_TKL. -/
theorem test_wireHdrTklRsvd : [0x49, 0x4A, 0x4F].map (fun b =>
      after (step { buf [b, 0, 0, 0] with scan := some (Scan.start .hdrDec) })
        (fun t => t.scan = none ∧ t.status = 0x42 ∧ t.ver = .unwritten)) = [true, true, true] := by decide
theorem test_wireHdrCode : after (step { buf [0x40, 0x45, 0x12, 0x34] with
      scan := some { Scan.start .msgDec with place := .hdrCode, pos := 1 } })
    (fun t => t.scan = some { Scan.start .msgDec with place := .hdrMid, pos := 2, code := 0x45 }) = true := by
  decide
/-- S4: the token is short. -/
theorem test_wireHdrMid : after (step { buf [0x44, 0x01, 0x00, 0x00, 0xAA, 0xBB] with
      scan := some { Scan.start .msgDec with place := .hdrMid, pos := 2, tkl := 4 } })
    (fun t => t.scan = none ∧ t.status = 0x23 ∧ t.errPos = 4) = true := by decide
/-- S7, MD5. -/
theorem test_wireMarker : after (step { buf [0x40, 0x01, 0x12, 0x34, 0xFF] with
      scan := some { Scan.start .msgDec with place := .seqStart, pos := 4 } })
      (fun t => t.status = 0x32 ∧ t.errPos = 4) = true ∧
    after (step { buf [0x40, 0x01, 0x12, 0x34, 0xFF, 0x00] with
      scan := some { Scan.start .msgDec with place := .seqStart, pos := 4 } })
      (fun t => t.payload = .holds [0x00] ∧ ok t) = true := by decide
/-- MD17, and OD12 in OPT_DEC. -/
theorem test_wireOptDnib15 : after (step { buf [0x40, 0x01, 0x00, 0x00, 0xFE, 0x00] with
      scan := some { Scan.start .msgDec with place := .seqStart, pos := 4 } })
      (fun t => t.status = 0x12 ∧ t.errPos = 4) = true ∧
    after (step { opt 0 0 [0xFF, 0x00] with scan := some (Scan.start .optDec) })
      (fun t => t.status = 0x12 ∧ t.num = .unwritten) = true := by decide
/-- MD18. -/
theorem test_wireOptLnib15 : after (step { buf [0x40, 0x01, 0x00, 0x00, 0xB1, 0x61, 0x0F] with
      scan := some { Scan.start .msgDec with place := .seqStart, pos := 6, acc := 11 } })
    (fun t => t.status = 0x22 ∧ t.errPos = 6) = true := by decide
/-- ME3's second option in MSG_DEC: delta 8 from ACC 3. -/
theorem test_wireOpt : after (step { buf [0x50, 0x02, 0x00, 0x01, 0x31, 0x78, 0x81, 0x62] with
      scan := some { Scan.start .msgDec with place := .seqStart, pos := 6, acc := 3 } })
    (fun t => t.scan = some { Scan.start .msgDec with
      place := .seqStart, pos := 8, acc := 11, opts := [⟨11, [0x62]⟩] }) = true := by decide
/-- ND3, ND5, ND7 and ND11. -/
theorem test_nibbles : after (step { nib 12 [0xAA] with scan := some (Scan.start .nibDec) })
      (fun t => t.res = .holds 12 ∧ t.consumed = .holds 0) = true ∧
    after (step { nib 13 [0xFF, 0x12] with scan := some (Scan.start .nibDec) })
      (fun t => t.res = .holds 268 ∧ t.consumed = .holds 1) = true ∧
    after (step { nib 14 [0x00, 0x1F] with scan := some (Scan.start .nibDec) })
      (fun t => t.res = .holds 300 ∧ t.consumed = .holds 2) = true ∧
    after (step { nib 15 [0x00, 0x00] with scan := some (Scan.start .nibDec) })
      (fun t => t.status = 0x62 ∧ t.res = .unwritten) = true := by decide

/-! ### The table's words, fetched and run as the first instruction after reset -/

/-- Every command's word completes from reset with its inputs booted (log 10). -/
theorem test_fetch_commands : (List.range 12).map (fun w =>
      after (step (State.reset.withFetchWord 32 w)) (fun t => t.cmd = none ∧ t.status ≠ 0)) =
    List.replicate 12 true := by decide
/-- The byte rows' matches, and the message ID, at their positions. -/
theorem test_fetch_bytes : [0x00, 0x09, 0x0A, 0x0C, 0xFF, 0xF0, 0x0F, 0x0D, 0x0E].map (fun w =>
      after (step (State.reset.withFetchWord 8 w)) (fun t => t.cmd = none)) = List.replicate 9 true ∧
    after (step (State.reset.withFetchWord 16 0)) (fun t => t.cmd = none) = true := by decide +kernel
theorem test_table_words : decodeTableWord 32 7 = some .msgEnc ∧
    decodeTableWord 16 0x1234 = some (.wireHdrMid 0x1234) ∧ decodeTableWord 8 0xFF = some .wireMarker ∧
    decodeTableWord 4 15 = some .nibbleRsvd ∧ decodeTableWord 24 0 = none := by decide

/-- P1's line 8 as the host writes it: a step that writes CMD, then the command's step (R21, R88). -/
theorem test_issue : after (runSteps 2 { msg 1 0 1 0x1234 [] [⟨11, [0x61]⟩] [] with
      host := [.wrCmd 0x00000007, .rd .status] }) (fun t =>
    t.out = .holds [0x40, 0x01, 0x12, 0x34, 0xB1, 0x61] ∧ t.host = [.rd .status]) = true := by decide
/-- P1's line 9. -/
theorem test_host_read : after (step { State.reset with status := 0x100, host := [.rd .status] }) (fun t =>
    t.reads = [(.status, .word 0x100)]) = true := by decide

/-! ### Witnesses: for each statement with hypotheses, states and operands that meet them, clause by clause,
at the ends of the clauses' ranges -/

/-- A walk of MSG_DEC at offset 4 of this IN, its four header bytes read. -/
abbrev atSeq (inp : Bytes) : State := { buf inp with
  scan := some { Scan.start .msgDec with place := .seqStart, pos := 4 } }

/-- A valid descriptor (P1's) and the bytes of its options. -/
abbrev msgP1 : State := msg 1 0 1 0x1234 [] [⟨11, [0x61]⟩] []

theorem test_witness_ResetState : EntryName.out ≠ .status ∧ EntryName.out ≠ .errPos := by decide

theorem test_witness_ReservedWordsRaise : (∀ w ∈ [(0x100 : Word), 0xFFFFFFFF], 256 ≤ w.toNat) ∧
    ∀ w ∈ [(0x00 : Word), 0x0C, 0xFF], w.toNat = 0 ∨ (12 ≤ w.toNat ∧ w.toNat < 256) := by simp

theorem test_witness_DecodeEncode : (Instr.wireHdrByte0 3 3 8).wellFormed = true ∧
    (Instr.wireOptDnib15 15).wellFormed = true := by decide

theorem test_witness_EncodeDecode : decode .seqStart (.byte 0xB1) = .ok (.wireOpt 11 1) ∧
    decode .optStart (.byte 0xFF) = .ok (.wireOptDnib15 15) := ⟨rfl, rfl⟩

theorem test_witness_StepRunsNext_walk :
    (∀ pl ∈ [Position.hdr0, .hdrCode, .hdrMid], ∃ (s : State) (sc : Scan) (inp : Bytes), s.scan = some sc ∧
      s.input = .holds inp ∧ sc.place = pl ∧ 4 ≤ inp.length) ∧
    (∃ (s : State) (sc : Scan) (inp : Bytes), s.scan = some sc ∧ s.input = .holds inp ∧
      sc.place = .seqStart ∧ sc.pos < inp.length) ∧
    (∃ (s : State) (sc : Scan) (inp : Bytes) (p : Word), s.scan = some sc ∧ s.input = .holds inp ∧
      sc.place = .optStart ∧ s.prev = .holds p ∧ sc.pos < inp.length) ∧
    ∃ (s : State) (sc : Scan) (a : Word), s.scan = some sc ∧ sc.place = .nibble ∧ s.arg = .holds a ∧
      a.toNat = 15 :=
  ⟨fun pl _ => ⟨{ buf [0x40, 1, 2, 3] with scan := some { Scan.start .hdrDec with place := pl } }, _, _,
     rfl, rfl, rfl, by decide⟩,
   ⟨atSeq [0x40, 1, 0, 0, 0xFF], _, _, rfl, rfl, rfl, by decide⟩,
   ⟨{ opt 0 7 [0] with scan := some (Scan.start .optDec) }, _, _, _, rfl, rfl, rfl, rfl, by decide⟩,
   ⟨{ nib 15 [] with scan := some (Scan.start .nibDec) }, _, _, rfl, rfl, rfl, rfl⟩⟩

theorem test_witness_StepRunsNext :
    (∃ (s : State) (w : Word), s.scan = none ∧ s.cmd = some w) ∧
    (∀ l ∈ [HostLine.rd .status, .wrCmd 7], ∃ (s : State) (ls : List HostLine), s.scan = none ∧
      s.cmd = none ∧ s.host = l :: ls) ∧
    (State.reset.scan = none ∧ State.reset.cmd = none ∧ State.reset.host = []) :=
  ⟨⟨{ State.reset with cmd := some 7 }, _, rfl, rfl⟩,
   fun l _ => ⟨{ State.reset with host := [l] }, _, rfl, rfl, rfl⟩, rfl, rfl, rfl⟩

theorem test_witness_NibEncResult : ∀ a ∈ [(0 : Word), 12, 13, 268, 269, 65804, 65805, 0xFFFFFFFF],
    ∃ s : State, s.arg = .holds a ∧ (a.toNat ≤ 12 ∨ (13 ≤ a.toNat ∧ a.toNat ≤ 268) ∨
      (269 ≤ a.toNat ∧ a.toNat ≤ 65804) ∨ 65804 < a.toNat) := by
  intro a ha
  exact ⟨nib a [], rfl, by revert a; simp⟩

theorem test_witness_NibDecResult :
    (∃ (s : State) (a : Word), s.arg = .holds a ∧ a.toNat = 12) ∧
    (∃ (s : State) (b : Byte) (r : Bytes), s.arg = .holds 13 ∧ s.input = .holds (b :: r)) ∧
    (∃ (s : State) (b c : Byte) (r : Bytes), s.arg = .holds 14 ∧ s.input = .holds (b :: c :: r)) ∧
    (∃ (s : State) (a : Word), s.arg = .holds a ∧ a.toNat = 16) ∧
    (∃ s : State, s.arg = .holds 15) ∧
    (∃ (s : State) (inp : Bytes), s.arg = .holds 13 ∧ s.input = .holds inp ∧ inp.length < 1) ∧
    (∃ (s : State) (inp : Bytes), s.arg = .holds 14 ∧ s.input = .holds inp ∧ inp.length < 2) :=
  ⟨⟨nib 12 [], _, rfl, rfl⟩, ⟨nib 13 [0xFF], _, _, rfl, rfl⟩, ⟨nib 14 [0xFF, 0xFF], _, _, _, rfl, rfl⟩,
   ⟨nib 16 [], _, rfl, rfl⟩, ⟨nib 15 [], rfl⟩, ⟨nib 13 [], _, rfl, rfl, by decide⟩,
   ⟨nib 14 [1], _, rfl, rfl, by decide⟩⟩

theorem test_witness_NibBijection : 65804 ≤ 65804 ∧ (12 : Nibble) ≠ 15 ∧ ([] : Bytes).length = extLen 12 ∧
    ([0xFF] : Bytes).length = extLen 13 ∧ ([0xFF, 0xFF] : Bytes).length = extLen 14 := by decide

/-- One state for each branch: NUM below PREV, a delta of 65805, a value of 65805 bytes, an output of 7
bytes where MAX_BUF is 6 (CAP4), and an option that fits. -/
theorem test_witness_OptEncResult :
    (∃ (s : State) (n p : Word) (v : Bytes), s.num = .holds n ∧ s.prev = .holds p ∧ s.input = .holds v ∧
      n.toNat < p.toNat) ∧
    (∃ (s : State) (n p : Word) (v : Bytes), s.num = .holds n ∧ s.prev = .holds p ∧ s.input = .holds v ∧
      n.toNat - p.toNat = 65805) ∧
    (∃ (s : State) (n p : Word) (v : Bytes), s.num = .holds n ∧ s.prev = .holds p ∧ s.input = .holds v ∧
      n.toNat - p.toNat = 65804 ∧ v.length = 65805) ∧
    (∃ (s : State) (n p : Word) (v : Bytes), s.num = .holds n ∧ s.prev = .holds p ∧ s.input = .holds v ∧
      v.length = 6 ∧ fitsBuf s.cap 7 = false) ∧
    ∃ (s : State) (n p : Word) (v : Bytes), s.num = .holds n ∧ s.prev = .holds p ∧ s.input = .holds v ∧
      n.toNat - p.toNat = 65804 ∧ v.length = 65804 :=
  ⟨⟨opt 3 4 [], _, _, _, rfl, rfl, rfl, by decide⟩, ⟨opt 65805 0 [], _, _, _, rfl, rfl, rfl, rfl⟩,
   ⟨opt 65804 0 (List.replicate 65805 0), _, _, _, rfl, rfl, rfl, rfl, List.length_replicate⟩,
   ⟨{ opt 0 0 (List.replicate 6 0) with cap := ⟨some 6, some 1⟩ }, _, _, _, rfl, rfl, rfl, rfl, rfl⟩,
   ⟨opt 65804 0 (List.replicate 65804 0), _, _, _, rfl, rfl, rfl, rfl, List.length_replicate⟩⟩

theorem test_witness_OptRoundTrip : (0 : Word).toNat ≤ (65804 : Word).toNat ∧
    (65804 : Word).toNat - (0 : Word).toNat ≤ 65804 ∧ (List.replicate 65804 (0 : Byte)).length ≤ 65804 ∧
    optDecodeAt [0xD1, 0x02, 0x41, 0xFF] 0 10 = .ok (25, [0x41], 3) :=
  ⟨by decide, by decide, by rw [List.length_replicate], rfl⟩

/-- OD4 and OD11. -/
theorem test_witness_OptDecCommand : (∃ (s : State) (p : Word) (inp : Bytes), s.prev = .holds p ∧
      s.input = .holds inp ∧ optDecodeAt inp 0 p = .ok (25, [0x41], 3)) ∧
    ∃ (s : State) (p : Word) (inp : Bytes), s.prev = .holds p ∧ s.input = .holds inp ∧
      optDecodeAt inp 0 p = .error (.err .fDnib15 0) :=
  ⟨⟨opt 0 10 [0xD1, 0x02, 0x41], _, _, rfl, rfl, rfl⟩, opt 0 0 [0xF0], _, _, rfl, rfl, rfl⟩

/-- OD4 and OD9. -/
theorem test_witness_OptDecResult : ∃ (s : State) (p : Word) (dn ln : Nibble) (dx lx val rest : Bytes),
    dn ≠ 15 ∧ ln ≠ 15 ∧ dx.length = extLen dn ∧ lx.length = extLen ln ∧ val.length = nibDecode ln lx ∧
    p.toNat + nibDecode dn dx < 2 ^ 32 ∧ s.prev = .holds p ∧
    s.input = .holds ((dn ++ ln) :: (dx ++ lx ++ val ++ rest)) :=
  ⟨opt 0 0xFFFFFFF0 (0xD1 :: [0x02, 0x41, 0xFF]), 0xFFFFFFF0, 13, 1, [0x02], [], [0x41], [0xFF],
    by decide, by decide, rfl, rfl, rfl, by decide, rfl, rfl⟩

theorem test_witness_OptDecNibble15 : ([0xF0] : Bytes)[0]? = some 0xF0 ∧ (0xF0 : Byte).toNat / 16 = 15 ∧
    (0xDF : Byte).toNat / 16 ≠ 15 ∧ (0xDF : Byte).toNat % 16 = 15 ∧
    ([0xFF, 0x00] : Bytes)[0]? = some 0xFF ∧ 0 + 1 < ([0xFF, 0x00] : Bytes).length := by decide

/-- OD15, OD16, OD18 and OD20. -/
theorem test_witness_OptDecTruncation : ([] : Bytes).length ≤ 0 ∧
    (([0xD0] : Bytes)[0]? = some 0xD0 ∧ ([0xD0] : Bytes).length < 0 + 1 + extLen 13) ∧
    (([0x0E, 0x00] : Bytes)[0]? = some 0x0E ∧ 0 + 1 + extLen 0 ≤ ([0x0E, 0x00] : Bytes).length ∧
      ([0x0E, 0x00] : Bytes).length < 0 + 1 + extLen 0 + extLen 14) ∧
    (([0x02, 0x61] : Bytes)[0]? = some 0x02 ∧ 0 + 1 + extLen 0 + extLen 2 ≤ ([0x02, 0x61] : Bytes).length ∧
      ([0x02, 0x61] : Bytes).length < 0 + 1 + extLen 0 + extLen 2 + nibDecode 2 []) := by decide

theorem test_witness_OptDecNumber : optDecodeAt [0xE0, 0xFF, 0xFF] 0 0 = .ok (65804, [], 3) := rfl

/-- OD22, at the first number too large. -/
theorem test_witness_OptDecOverflow : ([0x10] : Bytes)[0]? = some 0x10 ∧
    (0x10 : Byte).extractLsb' 4 4 ≠ (15 : Nibble) ∧ (0x10 : Byte).extractLsb' 0 4 ≠ (15 : Nibble) ∧
    0 + 1 + extLen ((0x10 : Byte).extractLsb' 4 4) ≤ ([0x10] : Bytes).length ∧
    2 ^ 32 ≤ (0xFFFFFFFF : Word).toNat + nibDecode ((0x10 : Byte).extractLsb' 4 4) [] := by decide

/-- One state for each branch at its boundary, and one that succeeds (HE3). -/
theorem test_witness_HdrEncResult : ∀ q ∈ [((4 : Word), (0 : Word), (0 : Word), (0 : Word), (0 : Nat)), (3, 4, 0, 0, 0),
      (3, 3, 256, 0, 0), (3, 3, 255, 65536, 0), (3, 3, 255, 65535, 9), (3, 3, 255, 65535, 8)],
    ∃ (s : State) (token : Bytes), s.ver = .holds q.1 ∧ s.typ = .holds q.2.1 ∧ s.code = .holds q.2.2.1 ∧
      s.mid = .holds q.2.2.2.1 ∧ s.token = .holds token ∧ token.length = q.2.2.2.2 :=
  fun q _ => ⟨msg q.1 q.2.1 q.2.2.1 q.2.2.2.1 (List.replicate q.2.2.2.2 0) [] [], _, rfl, rfl, rfl, rfl, rfl,
    List.length_replicate⟩

theorem test_witness_HdrDecResult :
    (∃ (s : State) (inp : Bytes), s.input = .holds inp ∧ inp.length = 3) ∧
    (∃ (s : State) (b c h l : Byte) (rest : Bytes), s.input = .holds (b :: c :: h :: l :: rest) ∧
      b.toNat % 16 = 9) ∧
    ∃ (s : State) (b c h l : Byte) (rest : Bytes), s.input = .holds (b :: c :: h :: l :: rest) ∧
      b.toNat % 16 = 8 :=
  ⟨⟨buf [0x40, 1, 2], _, rfl, rfl⟩, ⟨buf [0x49, 0, 0, 0], _, _, _, _, _, rfl, rfl⟩,
   ⟨buf [0x48, 0, 0, 0], _, _, _, _, _, rfl, rfl⟩⟩

theorem test_witness_HdrRoundTrip : ∃ (s t : State) (token : Bytes), s.token = .holds token ∧
    exec .hdrEnc s = .next t ∧ t.status = statusDone := ⟨msgP1, _, _, rfl, rfl, rfl⟩

theorem test_witness_CodeSplitResult : ∀ c ∈ [(255 : Word), 256], ∃ s : State, s.code = .holds c :=
  fun c _ => ⟨{ State.reset with code := .holds c }, rfl⟩

theorem test_witness_CodeSetClassResult : ∀ k ∈ [(7 : Word), 8], ∃ (s : State) (c : Word),
    s.cls = .holds k ∧ s.code = .holds c :=
  fun k _ => ⟨{ State.reset with cls := .holds k, code := .holds 0x1FF }, _, rfl, rfl⟩

theorem test_witness_CodeSetDetailResult : ∀ d ∈ [(31 : Word), 32], ∃ (s : State) (c : Word),
    s.detail = .holds d ∧ s.code = .holds c :=
  fun d _ => ⟨{ State.reset with detail := .holds d, code := .holds 0x1FF }, _, rfl, rfl⟩

theorem test_witness_CodeFields : (255 : Word).toNat ≤ 255 ∧ (7 : Word).toNat ≤ 7 ∧ (31 : Word).toNat ≤ 31 := by decide

theorem test_witness_CodeSettersCommute : ∃ (s : State) (k d c : Word), s.cls = .holds k ∧ s.detail = .holds d ∧
    s.code = .holds c ∧ k.toNat ≤ 7 ∧ d.toNat ≤ 31 :=
  ⟨{ State.reset with cls := .holds 7, detail := .holds 31, code := .holds 0x1FF }, _, _, _, rfl, rfl, rfl,
    by decide, by decide⟩

/-- ME11's second option is too far from the first; an option that is good stands before it. -/
theorem test_witness_OptsValidateFirst : ([⟨1, []⟩, ⟨65806, []⟩] : List OptEntry)[1]? = some ⟨65806, []⟩ ∧
    65804 < (65806 : Word).toNat - (1 : Word).toNat ∧ (1 : Word).toNat - 0 ≤ 65804 ∧
    65804 < (List.replicate 65805 (0 : Byte)).length :=
  ⟨rfl, by decide, by decide, by rw [List.length_replicate]; decide⟩

theorem test_witness_SeqEncodeNeverFails :
    optsValidate 0 0 (sortOpts [⟨11, [0x62]⟩, ⟨3, [0x78]⟩]) = .ok () := rfl

theorem test_witness_MsgEncResult : ∃ (s : State) (ver typ code mid : Word) (token payload body : Bytes)
    (opts : List OptEntry),
    s.ver = .holds ver ∧ s.typ = .holds typ ∧ s.code = .holds code ∧ s.mid = .holds mid ∧
    s.token = .holds token ∧ s.opts = .holds opts ∧ s.payload = .holds payload ∧
    ver.toNat ≤ 3 ∧ typ.toNat ≤ 3 ∧ code.toNat ≤ 255 ∧ mid.toNat ≤ 65535 ∧ token.length ≤ 8 ∧
    optsValidate 0 0 (sortOpts opts) = .ok () ∧ seqEncode 0 0 (sortOpts opts) = .ok body :=
  ⟨msg 3 3 255 65535 (List.replicate 8 0) [⟨11, [0x61]⟩] [1], _, _, _, _, _, _, [0xB1, 0x61], _, rfl, rfl, rfl,
    rfl, rfl, rfl, rfl, by decide, by decide, by decide, by decide, by decide, rfl, rfl⟩

theorem test_witness_MsgEncSucceedsExactly : ∃ (s : State) (ver typ code mid : Word) (token payload : Bytes)
    (opts : List OptEntry), s.ver = .holds ver ∧ s.typ = .holds typ ∧ s.code = .holds code ∧
    s.mid = .holds mid ∧ s.token = .holds token ∧ s.opts = .holds opts ∧ s.payload = .holds payload :=
  ⟨msgP1, _, _, _, _, _, _, _, rfl, rfl, rfl, rfl, rfl, rfl, rfl⟩

theorem test_witness_MsgEncErrors :
    (∀ q ∈ [((4 : Word), (0 : Word), (0 : Word), (0 : Word), (0 : Nat)), (3, 4, 0, 0, 0), (3, 3, 256, 0, 0),
        (3, 3, 255, 65536, 0), (3, 3, 255, 65535, 9)],
      ∃ (s : State) (token : Bytes), s.ver = .holds q.1 ∧ s.typ = .holds q.2.1 ∧ s.code = .holds q.2.2.1 ∧
        s.mid = .holds q.2.2.2.1 ∧ s.token = .holds token ∧ token.length = q.2.2.2.2) ∧
    optsValidate 0 0 (sortOpts [⟨1, []⟩, ⟨65806, []⟩]) = .error (.err .vDelta 1) :=
  ⟨fun q _ => ⟨msg q.1 q.2.1 q.2.2.1 q.2.2.2.1 (List.replicate q.2.2.2.2 0) [] [], _, rfl, rfl, rfl, rfl, rfl,
    List.length_replicate⟩, rfl⟩

/-- MD4, and MD1 with no payload. -/
theorem test_witness_MsgDecResult : ∀ payload ∈ [([] : Bytes), [0x48, 0x69]],
    ∃ (s : State) (v t : BitVec 2) (k : BitVec 4) (c : Byte) (m : BitVec 16) (token body : Bytes)
    (opts : List OptEntry), token.length = k.toNat ∧ k.toNat ≤ 8 ∧ seqEncode 0 0 opts = .ok body ∧
    fitsOpts s.cap opts.length = true ∧
    s.input = .holds ([v ++ t ++ k, c, m.extractLsb' 8 8, m.extractLsb' 0 8] ++ token ++ body ++
      if payload = [] then [] else 0xFF :: payload) :=
  fun payload _ => ⟨buf ([1#2 ++ 2#2 ++ 2#4, 0x45, (0xBEEF#16).extractLsb' 8 8, (0xBEEF#16).extractLsb' 0 8] ++
      [0xA1, 0xA2] ++ [0xC1, 0x00] ++ if payload = [] then [] else 0xFF :: payload),
    1, 2, 2, 0x45, 0xBEEF, [0xA1, 0xA2], [0xC1, 0x00], [⟨12, [0x00]⟩], rfl, by decide, rfl, rfl, rfl⟩

theorem test_witness_EncodeThenDecode : ∃ (s t : State) (opts : List OptEntry), Memory.wf s = true ∧
    s.opts = .holds opts ∧ exec .msgEnc s = .next t ∧ t.status = statusDone :=
  ⟨msg 1 1 2 1 [] [⟨11, [0x62]⟩, ⟨3, [0x78]⟩, ⟨11, [0x61]⟩] [], _, _, rfl, rfl, rfl, rfl⟩

theorem test_witness_DecodeThenEncode : ∃ s t : State, Memory.wf s = true ∧ exec .msgDec s = .next t ∧
    t.status = statusDone := ⟨buf [0x40, 0x01, 0x12, 0x34, 0xB1, 0x61], _, rfl, rfl, rfl⟩

theorem test_witness_DecodedOptionsOrdered : ∃ (s t : State) (opts : List OptEntry), exec .msgDec s = .next t ∧
    t.status = statusDone ∧ t.opts = .holds opts ∧ opts ≠ [] :=
  ⟨buf [0x40, 0x01, 0x12, 0x34, 0xB1, 0x61], _, [⟨11, [0x61]⟩], rfl, rfl, rfl, by decide⟩

/-- MD12. -/
theorem test_witness_EmptyPayload : ∃ (s : State) (v t : BitVec 2) (k : BitVec 4) (c h l : Byte) (token body : Bytes)
    (opts : List OptEntry), token.length = k.toNat ∧ k.toNat ≤ 8 ∧ seqEncode 0 0 opts = .ok body ∧
    fitsOpts s.cap opts.length = true ∧
    s.input = .holds ([v ++ t ++ k, c, h, l] ++ token ++ body ++ [0xFF]) :=
  ⟨buf [0x40, 0x01, 0x00, 0x00, 0xB1, 0x61, 0xFF], 1, 0, 0, 1, 0, 0, [], [0xB1, 0x61], [⟨11, [0x61]⟩], rfl,
    by decide, rfl, rfl, rfl⟩

/-- MD14, MD15 and MD13. -/
theorem test_witness_MsgDecHeaderErrors : ([0x40, 0x01, 0x12] : Bytes).length < 4 ∧
    (4 ≤ ([0x49, 1, 0, 0] : Bytes).length ∧ ([0x49, 1, 0, 0] : Bytes)[0]? = some 0x49 ∧
      8 < (0x49 : Byte).toNat % 16) ∧
    (([0x44, 1, 0, 0, 0xAA, 0xBB] : Bytes)[0]? = some 0x44 ∧ (0x44 : Byte).toNat % 16 ≤ 8 ∧
      ([0x44, 1, 0, 0, 0xAA, 0xBB] : Bytes).length < 4 + (0x44 : Byte).toNat % 16) := by decide

theorem test_witness_StatusFields : Cause.vVersion.status = Cause.vVersion.status := rfl

/-- One command that succeeds and one that raises an error. -/
theorem test_witness_CommandOutcome : (∃ s t : State, exec .nibEnc s = .next t ∧ t.status = 0x100) ∧
    ∃ s t : State, exec .nibEnc s = .next t ∧ t.status = 0x91 :=
  ⟨⟨nib 300 [], _, rfl, rfl⟩, nib 65805 [], _, rfl, rfl⟩

/-- NUM is an output of OPT_DEC and not OUT; PREV is no output. -/
theorem test_witness_ErrorWrites : EntryName.out ∈ commandOutputs .optDec ∧ EntryName.num ∈ commandOutputs .optDec ∧
    EntryName.prev ∉ commandOutputs .optDec ∧ (Instr.optDec).position = .cmd := by decide

theorem test_witness_CommandFrame : ∃ s t : State, exec .optDec s = .next t ∧ (Instr.optDec).position = .cmd ∧
    EntryName.prev ∉ commandOutputs .optDec := ⟨opt 0 10 [0xD1, 0x02, 0x41], _, rfl, rfl, by decide⟩

/-- Two states that differ in MID, which OPT_DEC does not read. -/
theorem test_witness_CommandReadsOnlyInputs : ∃ s s' t : State, s ≠ s' ∧ s.cap = s'.cap ∧
    (∀ e ∈ commandInputs .optDec, s.entry e = s'.entry e) ∧ exec .optDec s = .next t := by
  refine ⟨opt 0 10 [0xD1, 0x02, 0x41], { opt 0 10 [0xD1, 0x02, 0x41] with mid := .holds 1 }, _, by decide, rfl,
    ?_, rfl⟩
  decide

theorem test_witness_CommandsComplete : inputsWritten .msgEnc msgP1 ∧ inputsWritten .reservedOpc00 State.reset := by
  refine ⟨?_, ?_⟩ <;> intro e he <;> revert e <;> decide

theorem test_witness_InputsUntouched : ∃ s t : State, exec .optDec s = .next t :=
  ⟨opt 0 10 [0xD1, 0x02, 0x41], _, rfl⟩

theorem test_witness_DecodeIdempotent : (∃ s t : State, exec .nibDec s = .next t) ∧
    (∃ s t : State, exec .optDec s = .next t) ∧ (∃ s t : State, exec .hdrDec s = .next t) ∧
    ∃ s t : State, exec .msgDec s = .next t :=
  ⟨⟨nib 14 [0, 0x1F], _, rfl⟩, ⟨opt 0 10 [0xD1, 0x02, 0x41], _, rfl⟩, ⟨buf [0x40, 1, 0x12, 0x34], _, rfl⟩,
   buf [0x40, 1, 0x12, 0x34], _, rfl⟩

theorem test_witness_StepFaultsOnlyUnwritten :
    (∃ s : State, step s = .fault (.unwrittenInput .code)) ∧
    ∃ s : State, step s = .fault (.unwrittenRead .res) :=
  ⟨⟨{ State.reset with cmd := some 9 }, rfl⟩, { State.reset with host := [.rd .res] }, rfl⟩

/-- One state for each clause on a command: at reset every input is unwritten; then the states in which
only the input that is read last is unwritten, every check before it passing at its boundary. -/
theorem test_witness_StepFaultsOnlyUnwritten_commands :
    (∀ e ∈ [EntryName.arg, .num, .prev, .input, .ver, .typ, .code, .mid, .token, .cls, .detail],
      State.reset.entry e = .unwritten) ∧
    (∀ a ∈ [(13 : Word), 14], ∃ s : State, s.arg = .holds a ∧ s.entry .input = .unwritten) ∧
    (∃ (s : State) (n p : Word), s.num = .holds n ∧ s.prev = .holds p ∧ s.entry .input = .unwritten) ∧
    (∃ (s : State) (ver typ code mid : Word) (token : Bytes), s.ver = .holds ver ∧ s.typ = .holds typ ∧
      s.code = .holds code ∧ s.mid = .holds mid ∧ s.token = .holds token ∧ ver.toNat ≤ 3 ∧ typ.toNat ≤ 3 ∧
      code.toNat ≤ 255 ∧ mid.toNat ≤ 65535 ∧ token.length ≤ 8 ∧ s.entry .opts = .unwritten) ∧
    (∃ (s : State) (ver typ code mid : Word) (token : Bytes) (opts : List OptEntry), s.ver = .holds ver ∧
      s.typ = .holds typ ∧ s.code = .holds code ∧ s.mid = .holds mid ∧ s.token = .holds token ∧
      ver.toNat ≤ 3 ∧ typ.toNat ≤ 3 ∧ code.toNat ≤ 255 ∧ mid.toNat ≤ 65535 ∧ token.length ≤ 8 ∧
      s.opts = .holds opts ∧ optsValidate 0 0 (sortOpts opts) = .ok () ∧ s.entry .payload = .unwritten) ∧
    (∃ (s : State) (k : Word), s.cls = .holds k ∧ k.toNat ≤ 7 ∧ s.entry .code = .unwritten) ∧
    ∃ (s : State) (d : Word), s.detail = .holds d ∧ d.toNat ≤ 31 ∧ s.entry .code = .unwritten :=
  ⟨by decide, fun a _ => ⟨{ State.reset with arg := .holds a }, rfl, rfl⟩,
   ⟨{ State.reset with num := .holds 1, prev := .holds 0 }, _, _, rfl, rfl, rfl⟩,
   ⟨{ msg 3 3 255 65535 (List.replicate 8 0) [] [] with opts := .unwritten }, _, _, _, _, _, rfl, rfl, rfl, rfl,
     rfl, by decide, by decide, by decide, by decide, by decide, rfl⟩,
   ⟨{ msg 3 3 255 65535 (List.replicate 8 0) [⟨11, [0x61]⟩] [] with payload := .unwritten }, _, _, _, _, _, _,
     rfl, rfl, rfl, rfl, rfl, by decide, by decide, by decide, by decide, by decide, rfl, rfl, rfl⟩,
   ⟨{ State.reset with cls := .holds 7 }, _, rfl, by decide, rfl⟩,
   ⟨{ State.reset with detail := .holds 31 }, _, rfl, by decide, rfl⟩⟩

/-- R89: an input that a failed check keeps from being read does not fault (V_CLASS with CODE unwritten,
V_VERSION with OPTS and PAYLOAD unwritten), and one that is reached does. -/
theorem test_unread_inputs :
    after (exec .codeSetClass { State.reset with cls := .holds 8 }) (fun t => t.status = 0xB1) = true ∧
    stopsWith (exec .codeSetClass { State.reset with cls := .holds 7 }) (.unwrittenInput .code) = true ∧
    after (exec .msgEnc { msg 4 0 0 0 [] [] [] with opts := .unwritten, payload := .unwritten })
      (fun t => t.status = 0x11) = true := by decide

theorem test_witness_StepRefusesOnlyHostAccess :
    (∃ s : State, s.scanLegal ∧ step s = .refused .cmdRead) ∧
    (∃ s : State, s.scanLegal ∧ step s = .refused (.beyondCapacity .input)) ∧
    ∃ s : State, s.scanLegal ∧ step s = .refused (.beyondCapacity .opts) :=
  ⟨⟨{ State.reset with host := [.rd .cmd] }, trivial, rfl⟩,
   ⟨{ State.reset with cap := ⟨some 4, none⟩, host := [.wrStore .input [1, 2, 3, 4, 5]] }, trivial, rfl⟩,
   { State.reset with cap := ⟨none, some 0⟩, host := [.wrOpts [⟨1, []⟩]] }, trivial, rfl⟩

/-- A command that raises an error, and a walk that raises T_OPTHDR (OD15), which the premise on the walk
is for. -/
theorem test_witness_StepKeepsStatus :
    (∃ s t : State, s.statusLegal ∧ s.scanLegal ∧ step s = .next t ∧ t.status = 0x91 ∧ t.errPos = 0) ∧
    ∃ s t : State, s.statusLegal ∧ s.scanLegal ∧ step s = .next t ∧ t.status = 0x33 ∧ t.errPos = 0 :=
  ⟨⟨{ nib 65805 [] with cmd := some 1 }, _, .inl ⟨.inl rfl, rfl⟩, trivial, rfl, rfl, rfl⟩,
   { opt 0 0 [] with scan := some (Scan.start .optDec) }, _, .inl ⟨.inl rfl, rfl⟩, ⟨rfl, rfl⟩, rfl, rfl, rfl⟩

/-- A state after T_TOKEN with ERR_POS 4 (S4), and one that R202's pos column rules out. -/
theorem test_witness_statusLegal : State.statusLegal { State.reset with status := 0x23, errPos := 4 } ∧
    ¬ Cause.tToken.posLegal 0 :=
  ⟨.inr ⟨.tToken, rfl, fun p h => by simpa [Cause.fixedPos] using h⟩, fun h => by simpa using h 4 rfl⟩

theorem test_witness_StepKeepsMemory : ∃ s t : State, capacityLegal s.cap = true ∧ Memory.wf s = true ∧
    step s = .next t ∧ t.out = .holds [0x40, 0x01, 0x12, 0x34, 0xB1, 0x61] :=
  ⟨{ msgP1 with cmd := some 7, cap := ⟨some 6, some 1⟩ }, _, rfl, rfl, rfl, rfl⟩

theorem test_witness_StepKeepsScan : ∃ s t : State, s.scanLegal ∧ step s = .next t ∧ t.scan ≠ none :=
  ⟨{ buf [0x40, 1, 0x12, 0x34] with scan := some (Scan.start .msgDec) }, _, ⟨.inr rfl, rfl⟩, rfl, by decide⟩

theorem test_witness_HostAccess : fitsBuf ⟨some 4, some 1⟩ 4 = true ∧ fitsBuf ⟨some 4, some 1⟩ 5 = false ∧
    optsFit ⟨some 4, some 1⟩ [⟨1, [0, 0, 0, 0]⟩] = true ∧ optsFit ⟨some 4, some 1⟩ [⟨1, []⟩, ⟨2, []⟩] = false ∧
    optsFit ⟨some 4, some 1⟩ [⟨1, [0, 0, 0, 0, 0]⟩] = false ∧
    State.reset.entry .status = .holds (.word 0) ∧ State.reset.entry .out = .unwritten := by decide

theorem test_witness_HostReset : ∃ (s : State) (ls : List HostLine), s.scan = none ∧ s.cmd = none ∧
    s.host = .reset :: ls ∧ s.arg = .holds 5 :=
  ⟨{ nib 5 [] with host := [.reset] }, _, rfl, rfl, rfl, rfl⟩

/-- MD1, from a state with no walk. -/
theorem test_witness_WalkEqualsCommand : ∃ s : State, s.scan = none ∧ ∃ t, exec Walk.msgDec.command s = .next t ∧
    t.status = statusDone := ⟨buf [0x40, 0x01, 0x12, 0x34, 0xB1, 0x61], rfl, _, rfl, rfl⟩

theorem test_witness_WireHdrByte0Result : ∃ (s : State) (sc : Scan) (inp : Bytes), s.scan = some sc ∧
    sc.place = .hdr0 ∧ s.input = .holds inp ∧ 4 ≤ inp.length ∧ (8#4).toNat ≤ 8 :=
  ⟨{ buf [0x40, 1, 0x12, 0x34] with scan := some (Scan.start .msgDec) }, _, _, rfl, rfl, rfl, by decide, by decide⟩

theorem test_witness_WireHdrByte0Result_short : ∃ (s : State) (sc : Scan) (inp : Bytes), s.scan = some sc ∧
    sc.place = .hdr0 ∧ s.input = .holds inp ∧ inp.length = 3 :=
  ⟨{ buf [0x40, 1, 0x12] with scan := some (Scan.start .msgDec) }, _, _, rfl, rfl, rfl, rfl⟩

theorem test_witness_WireHdrRestResult :
    (∃ (s : State) (sc : Scan), s.scan = some sc ∧ sc.place = .hdrCode) ∧
    (∃ (s : State) (sc : Scan), s.scan = some sc ∧ sc.place = .hdrMid ∧ sc.walk = .hdrDec) ∧
    (∃ (s : State) (sc : Scan) (inp : Bytes), s.scan = some sc ∧ sc.place = .hdrMid ∧ sc.walk = .msgDec ∧
      s.input = .holds inp ∧ 4 + sc.tkl.toNat = inp.length) ∧
    ∃ (s : State) (sc : Scan) (inp : Bytes), s.scan = some sc ∧ sc.place = .hdrMid ∧ sc.walk = .msgDec ∧
      s.input = .holds inp ∧ inp.length < 4 + sc.tkl.toNat :=
  ⟨⟨{ State.reset with scan := some { Scan.start .msgDec with place := .hdrCode } }, _, rfl, rfl⟩,
   ⟨{ State.reset with scan := some { Scan.start .hdrDec with place := .hdrMid } }, _, rfl, rfl, rfl⟩,
   ⟨{ buf [0x41, 1, 0, 0, 0xFF] with scan := some { Scan.start .msgDec with place := .hdrMid, tkl := 1 } },
     _, _, rfl, rfl, rfl, rfl, rfl⟩,
   { buf [0x42, 1, 0, 0, 0xFF] with scan := some { Scan.start .msgDec with place := .hdrMid, tkl := 2 } },
     _, _, rfl, rfl, rfl, rfl, by decide⟩

theorem test_witness_WireMarkerResult : ∀ inp ∈ [([0x40, 1, 0, 0, 0xFF, 0x00] : Bytes), [0x40, 1, 0, 0, 0xFF]],
    ∃ (s : State) (sc : Scan), s.scan = some sc ∧ sc.place = .seqStart ∧ sc.walk = .msgDec ∧
      s.input = .holds inp ∧ (sc.pos + 1 < inp.length ∨ sc.pos + 1 = inp.length) := by
  intro inp h
  exact ⟨atSeq inp, _, rfl, rfl, rfl, rfl, by revert inp; decide⟩

theorem test_witness_WireOptResult :
    (∃ (s : State) (sc : Scan) (inp : Bytes), s.scan = some sc ∧ s.input = .holds inp ∧
      sc.place = .seqStart ∧ optFields inp sc.pos sc.acc 11 1 = .ok (11, [0x61], 2) ∧
      fitsOpts s.cap (sc.opts.length + 1) = true) ∧
    (∃ (s : State) (sc : Scan) (inp : Bytes), s.scan = some sc ∧ s.input = .holds inp ∧
      sc.place = .seqStart ∧ optFields inp sc.pos sc.acc 11 1 = .ok (11, [0x61], 2) ∧
      fitsOpts s.cap (sc.opts.length + 1) = false) ∧
    (∃ (s : State) (sc : Scan) (inp : Bytes), s.scan = some sc ∧ s.input = .holds inp ∧
      sc.place = .seqStart ∧ optFields inp sc.pos sc.acc 11 1 = .error (.err .tValue 5)) ∧
    ∃ (s : State) (sc : Scan) (inp : Bytes) (p : Word), s.scan = some sc ∧ s.input = .holds inp ∧
      sc.place = .optStart ∧ s.prev = .holds p ∧ optFields inp sc.pos p 11 1 = .ok (11, [0x61], 2) :=
  ⟨⟨atSeq [0x40, 1, 0, 0, 0xB1, 0x61], _, _, rfl, rfl, rfl, rfl, rfl⟩,
   ⟨{ atSeq [0x40, 1, 0, 0, 0xB1, 0x61] with cap := ⟨none, some 0⟩ }, _, _, rfl, rfl, rfl, rfl, rfl⟩,
   ⟨atSeq [0x40, 1, 0, 0, 0xB1], _, _, rfl, rfl, rfl, rfl⟩,
   { opt 0 0 [0xB1, 0x61] with scan := some (Scan.start .optDec) }, _, _, _, rfl, rfl, rfl, rfl, rfl⟩

theorem test_witness_NibbleRowsResult : (12#4).toNat ≤ 12 ∧ ∀ inp ∈ [([] : Bytes), [0xFF], [0x00, 0x1F]],
    ∃ (s : State) (sc : Scan), s.scan = some sc ∧ sc.place = .nibble ∧ sc.walk = .nibDec ∧
      s.input = .holds inp :=
  ⟨by decide, fun inp _ => ⟨{ nib 14 inp with scan := some (Scan.start .nibDec) }, _, rfl, rfl, rfl, rfl⟩⟩

end Sys2Proof.Tests
end

section
/-! The stable sort of the options (00_scope.md R13) is the library's insertion sort by `num`, so the
library's facts about that sort hold of it. -/

namespace Sys2Proof.Machine

open Sys2Proof

/-- One option's number is at most another's, as unsigned integers: the order R13 sorts by. -/
abbrev numLe : OptEntry → OptEntry → Prop := (fun o => o.num.toNat) ⁻¹'o (· ≤ ·)

theorem insertOpt_eq_orderedInsert (o : OptEntry) (l : List OptEntry) :
    insertOpt o l = l.orderedInsert numLe o := by
  induction l with
  | nil => rfl
  | cons x xs ih => simp only [insertOpt, ih, List.orderedInsert_cons, Order.Preimage]

theorem sortOpts_eq_insertionSort (l : List OptEntry) : sortOpts l = l.insertionSort numLe := by
  induction l with
  | nil => rfl
  | cons o os ih => rw [sortOpts, ih, insertOpt_eq_orderedInsert, List.insertionSort_cons]

theorem sortOpts_perm (l : List OptEntry) : (sortOpts l).Perm l :=
  sortOpts_eq_insertionSort l ▸ List.perm_insertionSort numLe l

theorem sortOpts_pairwise (l : List OptEntry) : (sortOpts l).Pairwise numLe :=
  sortOpts_eq_insertionSort l ▸ List.pairwise_insertionSort numLe l

/-- The entries of one number are a sublist of the list in ascending order already. -/
theorem filter_num_sublist_sortOpts (l : List OptEntry) (n : Word) :
    (l.filter (fun o => o.num == n)).Sublist (sortOpts l) := by
  have hnum : ∀ o ∈ l.filter (fun o => o.num == n), o.num = n := fun o ho => by
    simpa using List.of_mem_filter ho
  have hasc : (l.filter (fun o => o.num == n)).Pairwise numLe :=
    List.pairwise_of_forall_mem_list fun a ha b hb => by simp [hnum a ha, hnum b hb]
  exact sortOpts_eq_insertionSort l ▸ List.sublist_insertionSort hasc List.filter_sublist

/-- The entries of one number are a sublist of the sorted list, and the sort adds none to them. -/
theorem filter_num_sortOpts (l : List OptEntry) (n : Word) :
    (sortOpts l).filter (fun o => o.num == n) = l.filter (fun o => o.num == n) := by
  have hsub := (filter_num_sublist_sortOpts l n).filter (fun o => o.num == n)
  simp only [List.filter_filter, Bool.and_self] at hsub
  exact (hsub.eq_of_length ((sortOpts_perm l).filter _).length_eq.symm).symm

/-- Settles O27: the sort is the library's insertion sort by `num`. -/
theorem sortStable : Obligations.SortStable := by
  unfold Obligations.SortStable
  exact fun l => ⟨sortOpts_perm l, sortOpts_pairwise l, filter_num_sortOpts l⟩

end Sys2Proof.Machine
end

section
/-! The command words (30_encoding.md R71-R73): every word is the encoding of what it decodes to, and its RSV
field, bits 31:8, is 0 exactly for the words below 256, whose OPC is then the word itself. -/

namespace Sys2Proof.Machine

open Sys2Proof

/-! ### Decoding loses no bit of a command word -/

theorem encode_decodeOpc (o : BitVec 8) : encode (decodeOpc o) = .word ((0 : BitVec 24) ++ o) := by
  revert o; decide

theorem decodeCmd_of_rsv_zero {w : Word} (h : w.extractLsb' 8 24 = 0) :
    decodeCmd w = decodeOpc (w.extractLsb' 0 8) := if_pos h

theorem decodeCmd_of_rsv_ne_zero {w : Word} (h : w.extractLsb' 8 24 ≠ 0) :
    decodeCmd w = .reservedRsv (w.extractLsb' 8 24) (w.extractLsb' 0 8) := if_neg h

theorem encode_decodeCmd (w : Word) : encode (decodeCmd w) = .word w := by
  by_cases h : w.extractLsb' 8 24 = 0
  · rw [decodeCmd_of_rsv_zero h, encode_decodeOpc, cmdWord_of_rsv h]
  · rw [decodeCmd_of_rsv_ne_zero h, encode, cmdWord_split]

theorem decodeCmd_injective : Function.Injective decodeCmd := fun v w h =>
  CodeUnit.word.inj (by rw [← encode_decodeCmd v, h, encode_decodeCmd])

/-- Settles O2: each command's word decodes to it, and `decodeCmd` is injective. -/
theorem commandWordsDecode : Obligations.CommandWordsDecode := by
  unfold Obligations.CommandWordsDecode
  intro w
  and_intros <;> exact decodeCmd_injective.eq_iff' rfl

/-! ### Reserved words raise a CommandError -/

theorem rsv_eq_zero_iff (w : Word) : w.extractLsb' 8 24 = 0 ↔ w.toNat < 256 := by
  rw [← BitVec.toNat_inj, BitVec.extractLsb'_toNat, Nat.shiftRight_eq_div_pow]
  simp only [BitVec.ofNat_eq_ofNat, BitVec.toNat_ofNat]
  omega

theorem opc_toNat {w : Word} (h : w.toNat < 256) : (w.extractLsb' 0 8).toNat = w.toNat := by
  rw [BitVec.extractLsb'_toNat, Nat.shiftRight_zero, Nat.mod_eq_of_lt h]

/-- A CommandError spoils no output: it writes STATUS and ERR_POS only (60_exceptions.md R206). -/
theorem commandError_eq (c : Cause) (s : State) :
    commandError c s = .next { s with status := c.status, errPos := 0 } := rfl

/-- The opcodes past the table all raise X_OPCODE, whichever of the five rows they belong to. -/
theorem exec_decodeOpc_past_table {o : BitVec 8} (h : 12 ≤ o.toNat) (s : State) :
    exec (decodeOpc o) s = commandError .xOpcode s := by
  have hne : ∀ c : BitVec 8, c.toNat < 12 → o ≠ c := fun c hc heq => by subst heq; omega
  simp (disch := decide) only [decodeOpc, hne, if_false]
  split_ifs <;> rfl

theorem exec_decodeCmd_rsv {w : Word} (h : 256 ≤ w.toNat) (s : State) :
    exec (decodeCmd w) s = commandError .xRsvdBits s := by
  have hrsv : w.extractLsb' 8 24 ≠ 0 := (rsv_eq_zero_iff w).not.mpr (Nat.not_lt.mpr h)
  rw [decodeCmd_of_rsv_ne_zero hrsv, exec_reservedRsv, execReservedRsv]

theorem exec_decodeCmd_reserved_opc {w : Word} (h : w.toNat = 0 ∨ (12 ≤ w.toNat ∧ w.toNat < 256))
    (s : State) : exec (decodeCmd w) s = commandError .xOpcode s := by
  rcases h with h0 | ⟨hge, hlt⟩
  · obtain rfl : w = 0 := BitVec.eq_of_toNat_eq h0
    rfl
  · rw [decodeCmd_of_rsv_zero ((rsv_eq_zero_iff w).mpr hlt)]
    exact exec_decodeOpc_past_table ((opc_toNat hlt).symm ▸ hge) s

/-- Settles O3: every reserved word and row runs `commandError`, RSV tested first. -/
theorem reservedWordsRaise : Obligations.ReservedWordsRaise := by
  unfold Obligations.ReservedWordsRaise
  intro s
  have hrsv : commandError .xRsvdBits s = .next { s with status := 0x15, errPos := 0 } :=
    commandError_eq .xRsvdBits s
  have hopc : commandError .xOpcode s = .next { s with status := 0x25, errPos := 0 } :=
    commandError_eq .xOpcode s
  exact ⟨fun _ h => (exec_decodeCmd_rsv h s).trans hrsv,
    fun _ h => (exec_decodeCmd_reserved_opc h s).trans hopc,
    fun _ _ => hrsv, hopc, fun _ => hopc, fun _ => hopc, fun _ => hopc, fun _ => hopc, fun _ => hopc⟩

end Sys2Proof.Machine
end

section
/-! The nibble code (41_varint.md R100-R103): a code word is a nibble with the extension its range needs, and
the two directions meet range by range. NIB_ENC and NIB_DEC (R104, R105) are then one equation per way each
can end. -/

namespace Sys2Proof.Machine

open Sys2Proof

/-! ### Two bytes, most significant first (20_memory.md R52) -/

theorem be16_bytes (b c : Byte) : be16 (b.toNat * 256 + c.toNat) = [b, c] := by
  have hhigh : (b.toNat * 256 + c.toNat) / 256 = b.toNat := by omega
  have hlow : BitVec.ofNat 8 (b.toNat * 256 + c.toNat) = c :=
    BitVec.eq_of_toNat_eq (by rw [BitVec.toNat_ofNat]; omega)
  rw [be16, hhigh, hlow, BitVec.ofNat_toNat, BitVec.setWidth_eq]

theorem be16_eq_div_mod (v : Nat) : be16 v = [BitVec.ofNat 8 (v / 256), BitVec.ofNat 8 (v % 256)] := by
  have hlow : BitVec.ofNat 8 (v % 256) = BitVec.ofNat 8 v := BitVec.eq_of_toNat_eq (by simp)
  rw [be16, hlow]

/-! ### The code in each of its three ranges -/

section Code

variable {n : Nibble} {e : Bytes} {raw : Nat}

theorem ne_fifteen_of_direct (h : n.toNat ≤ 12) : n ≠ 15 := by
  rintro rfl
  exact absurd h (by decide)

theorem extLen_direct (h : n.toNat ≤ 12) : extLen n = 0 := if_pos h

theorem extLen_ne_zero (h : 12 < n.toNat) : extLen n ≠ 0 := by
  rw [extLen, if_neg (Nat.not_le.mpr h)]
  split <;> decide

theorem nibDecode_direct (h : n.toNat ≤ 12) : nibDecode n e = n.toNat := if_pos h

theorem nibDecode_one (b : Byte) : nibDecode 13 [b] = b.toNat + 13 := rfl

theorem nibDecode_two (b c : Byte) : nibDecode 14 [b, c] = b.toNat * 256 + c.toNat + 269 := rfl

/-- A nibble and an extension of its length are a direct nibble, 13 and a byte, or 14 and two bytes. -/
theorem nibbleExt_cases (hn : n ≠ 15) (he : e.length = extLen n) :
    (n.toNat ≤ 12 ∧ e = []) ∨ (n = 13 ∧ ∃ b, e = [b]) ∨ (n = 14 ∧ ∃ b c, e = [b, c]) := by
  rcases nibble_cases n hn with h | rfl | rfl
  · exact .inl ⟨h, List.length_eq_zero_iff.mp (he.trans (extLen_direct h))⟩
  · exact .inr (.inl ⟨rfl, List.length_eq_one_iff.mp he⟩)
  · exact .inr (.inr ⟨rfl, List.length_eq_two.mp he⟩)

theorem nibEncode_nibDecode (hn : n ≠ 15) (he : e.length = extLen n) :
    nibEncode (nibDecode n e) = (n, e) := by
  rcases nibbleExt_cases hn he with ⟨h, rfl⟩ | ⟨rfl, b, rfl⟩ | ⟨rfl, b, c, rfl⟩
  · rw [nibDecode_direct h, nibEncode_direct _ h, BitVec.ofNat_toNat, BitVec.setWidth_eq]
  · rw [nibDecode_one, nibEncode_one _ (by omega) (by omega), Nat.add_sub_cancel, BitVec.ofNat_toNat,
      BitVec.setWidth_eq]
  · rw [nibDecode_two, nibEncode_two _ (by omega), Nat.add_sub_cancel, be16_bytes]

/-- Every raw value of the code is what some nibble 0 to 14 and its extension stand for. -/
theorem exists_nibDecode_eq (h : raw ≤ 65804) :
    ∃ n e, n ≠ 15 ∧ e.length = extLen n ∧ nibDecode n e = raw := by
  by_cases h12 : raw ≤ 12
  · have hraw : (BitVec.ofNat 4 raw).toNat = raw := by rw [BitVec.toNat_ofNat]; omega
    have hn : (BitVec.ofNat 4 raw).toNat ≤ 12 := hraw.symm ▸ h12
    exact ⟨BitVec.ofNat 4 raw, [], ne_fifteen_of_direct hn, (extLen_direct hn).symm,
      (nibDecode_direct hn).trans hraw⟩
  by_cases h268 : raw ≤ 268
  · refine ⟨13, [BitVec.ofNat 8 (raw - 13)], by decide, rfl, ?_⟩
    rw [nibDecode_one, BitVec.toNat_ofNat]
    omega
  · refine ⟨14, be16 (raw - 269), by decide, rfl, ?_⟩
    rw [be16, nibDecode_two, BitVec.toNat_ofNat, BitVec.toNat_ofNat]
    omega

/-- The encoder answers a nibble 0 to 14 with an extension of its length, and the decoder undoes it: with
`exists_nibDecode_eq` this is `nibEncode_nibDecode` read backwards. -/
theorem nibEncode_spec (h : raw ≤ 65804) :
    (nibEncode raw).1 ≠ 15 ∧ (nibEncode raw).2.length = extLen (nibEncode raw).1 ∧
      nibDecode (nibEncode raw).1 (nibEncode raw).2 = raw := by
  obtain ⟨n, e, hn, he, rfl⟩ := exists_nibDecode_eq h
  rw [nibEncode_nibDecode hn he]
  exact ⟨hn, he, rfl⟩

theorem nibEncode_ext_length (raw : Nat) :
    (nibEncode raw).2.length = if raw ≤ 12 then 0 else if raw ≤ 268 then 1 else 2 := by
  unfold nibEncode
  split
  · rfl
  · split <;> rfl

end Code

/-- Settles O10: decoding meets every raw value of the range, and encoding inverts it nibble by nibble. -/
theorem nibBijection : Obligations.NibBijection := by
  unfold Obligations.NibBijection
  refine ⟨fun raw h => ?_, fun n e hn he => ⟨nibEncode_nibDecode hn he, nibDecode_direct, ?_, ?_⟩⟩
  · obtain ⟨hne, hlen, hdec⟩ := nibEncode_spec h
    exact ⟨hne, hlen, hdec, nibEncode_ext_length raw⟩
  · rintro rfl
    obtain ⟨b, rfl⟩ := List.length_eq_one_iff.mp he
    rw [nibDecode_one]
    omega
  · rintro rfl
    obtain ⟨b, c, rfl⟩ := List.length_eq_two.mp he
    rw [nibDecode_two]
    omega

/-! ### NIB_ENC -/

section Encode

variable {s : State} {a : Word}

theorem execNibEnc_done (harg : s.arg = .holds a) (h : a.toNat ≤ 65804) :
    execNibEnc s = .next { s with
      res := .holds (zext32 (nibEncode a.toNat).1), out := .holds (nibEncode a.toNat).2
      status := statusDone, errPos := 0 } := by
  simp [execNibEnc, harg, h, State.succeed]

theorem execNibEnc_raw (harg : s.arg = .holds a) (h : 65804 < a.toNat) :
    execNibEnc s = .next (s.raiseError (commandOutputs .nibEnc) .vRaw 0) := by
  simp [execNibEnc, harg, Nat.not_le.mpr h]

end Encode

theorem zext32_ofNat_nibble {a : Word} (h : a.toNat < 16) : zext32 (BitVec.ofNat 4 a.toNat) = a := by
  apply BitVec.eq_of_toNat_eq
  simp only [zext32, BitVec.toNat_setWidth, BitVec.toNat_ofNat]
  omega

/-- Settles O8: NIB_ENC writes what `nibEncode` answers in the range of ARG, or raises V_RAW. -/
theorem nibEncResult : Obligations.NibEncResult := by
  unfold Obligations.NibEncResult
  refine ⟨rfl, fun s a harg => ⟨fun h => ?_, fun h h' => ?_, fun h h' => ?_, execNibEnc_raw harg⟩⟩
  · rw [exec_nibEnc, execNibEnc_done harg (by omega), nibEncode_direct _ h,
      zext32_ofNat_nibble (by omega)]
    rfl
  · rw [exec_nibEnc, execNibEnc_done harg (by omega), nibEncode_one _ h h']
    rfl
  · rw [exec_nibEnc, execNibEnc_done harg h', nibEncode_two _ h, be16_eq_div_mod]
    rfl

/-! ### NIB_DEC -/

section Decode

variable {n : Nibble} {s : State} {e inp rest : Bytes}

/-- A direct nibble is its own value, and no premise is about IN (R105). -/
theorem nibDecFrom_direct (h : n.toNat ≤ 12) (s : State) : nibDecFrom n s =
    .ok { s with res := .holds (BitVec.ofNat 32 n.toNat), consumed := .holds 0 } := by
  simpa [nibDecFrom, extLen_direct h, nibDecode_direct h] using ne_fifteen_of_direct h

/-- A nibble whose extension stands at the start of IN; what follows the extension is not read. -/
theorem nibDecFrom_ext (hn : 12 < n.toNat) (hn' : n ≠ 15) (he : e.length = extLen n)
    (hin : s.input = .holds (e ++ rest)) : nibDecFrom n s =
    .ok { s with
      res := .holds (BitVec.ofNat 32 (nibDecode n e)), consumed := .holds (BitVec.ofNat 32 (extLen n)) } := by
  have hread : memRead (e ++ rest) 0 (extLen n) = e := by simp [memRead, ← he]
  simpa [nibDecFrom, extLen_ne_zero hn, hin, hread, he] using hn'

theorem nibDecFrom_fifteen (s : State) : nibDecFrom 15 s = .error (.err .fNib15 0) := rfl

theorem nibDecFrom_short (hn : n ≠ 15) (hin : s.input = .holds inp) (hlen : inp.length < extLen n) :
    nibDecFrom n s = .error (.err .tExt 0) := by
  simpa [nibDecFrom, hin, Nat.ne_of_gt (Nat.zero_lt_of_lt hlen), Nat.not_le.mpr hlen] using hn

/-- NIB_DEC ends as the decoding of ARG's low nibble does. -/
theorem execNibDec_nibble {a : Word} {r : Calc State} (harg : s.arg = .holds a) (h : a.toNat ≤ 15)
    (hr : nibDecFrom (a.extractLsb' 0 4) s = r) :
    execNibDec s = finish (commandOutputs .nibDec) s r := by
  simp [execNibDec, harg, h, hr]

theorem execNibDec_wide {a : Word} (harg : s.arg = .holds a) (h : 15 < a.toNat) :
    execNibDec s = .next (s.raiseError (commandOutputs .nibDec) .vNibble 0) := by
  simp [execNibDec, harg, Nat.not_le.mpr h]

end Decode

theorem nibble_toNat {a : Word} (h : a.toNat ≤ 15) : (a.extractLsb' 0 4).toNat = a.toNat := by
  rw [BitVec.extractLsb'_toNat, Nat.shiftRight_zero, Nat.mod_eq_of_lt (by omega)]

/-- Settles O9: NIB_DEC is `nibDecFrom` on ARG's nibble, or V_NIBBLE where ARG is wider than one. -/
theorem nibDecResult : Obligations.NibDecResult := by
  unfold Obligations.NibDecResult
  refine ⟨rfl, fun s a harg => ⟨fun h => ?_, ?_, ?_, execNibDec_wide harg, ?_, ?_⟩⟩
  · have hn : (a.extractLsb' 0 4).toNat = a.toNat := nibble_toNat (by omega)
    have ha : BitVec.ofNat 32 (a.extractLsb' 0 4).toNat = a := by
      rw [hn, BitVec.ofNat_toNat, BitVec.setWidth_eq]
    rw [exec_nibDec, execNibDec_nibble harg (by omega) (nibDecFrom_direct (hn.symm ▸ h) s), ha]
    rfl
  · rintro b rest rfl hin
    exact execNibDec_nibble harg (by decide)
      (nibDecFrom_ext (n := 13) (e := [b]) (by decide) (by decide) rfl hin)
  · rintro b c rest rfl hin
    exact execNibDec_nibble harg (by decide)
      (nibDecFrom_ext (n := 14) (e := [b, c]) (by decide) (by decide) rfl hin)
  · rintro rfl
    exact execNibDec_nibble harg (by decide) (nibDecFrom_fifteen s)
  · rintro inp hin (⟨rfl, hlen⟩ | ⟨rfl, hlen⟩)
    · exact execNibDec_nibble harg (by decide) (nibDecFrom_short (n := 13) (by decide) hin hlen)
    · exact execNibDec_nibble harg (by decide) (nibDecFrom_short (n := 14) (by decide) hin hlen)

end Sys2Proof.Machine
end

section
/-! The option codec (42_option.md R120-R130). The wire form of an option is its parts side by side, and each
of `opt_enc` and `opt_dec_at` is one direction between an option and its parts; an option's first missing or
illegal part is one equation per check. OPT_ENC and OPT_DEC are then these two functions on their operands. -/

namespace Sys2Proof.Machine

open Sys2Proof

/-! ### The parts of an option on the wire -/

section Parts

variable {dn ln : Nibble} {dx lx val : Bytes} {num prev : Word}

/-- The nibbles, extensions and value belong together: they are one option's parts (R79, R122). -/
structure OptParts (dn ln : Nibble) (dx lx val : Bytes) : Prop where
  delta_ne : dn ≠ 15
  length_ne : ln ≠ 15
  deltaExt_length : dx.length = extLen dn
  lengthExt_length : lx.length = extLen ln
  value_length : val.length = nibDecode ln lx

/-- The parts in the order of R121: first byte, delta extension, length extension, value. -/
def optBytes (dn ln : Nibble) (dx lx val : Bytes) : Bytes := (dn ++ ln) :: (dx ++ lx ++ val)

theorem OptParts.bytes_length (h : OptParts dn ln dx lx val) :
    (optBytes dn ln dx lx val).length = 1 + extLen dn + extLen ln + val.length := by
  simp only [optBytes, List.length_cons, List.length_append, h.deltaExt_length, h.lengthExt_length]
  omega

/-- No nibble with its extension stands for more than MAX_RAW (41_varint.md R103). -/
theorem nibDecode_le (hn : dn ≠ 15) (he : dx.length = extLen dn) : nibDecode dn dx ≤ 65804 := by
  rcases nibbleExt_cases hn he with ⟨h, rfl⟩ | ⟨rfl, b, rfl⟩ | ⟨rfl, b, c, rfl⟩
  · rw [nibDecode_direct h]
    omega
  · rw [nibDecode_one]
    omega
  · rw [nibDecode_two]
    omega

/-- Every option that passes the three checks of `opt_enc` has parts. -/
theorem exists_optParts (hle : prev.toNat ≤ num.toNat) (hdelta : num.toNat - prev.toNat ≤ 65804)
    (hval : val.length ≤ 65804) :
    ∃ dn ln dx lx, OptParts dn ln dx lx val ∧ num.toNat = prev.toNat + nibDecode dn dx := by
  obtain ⟨dn, dx, hdn, hdx, hd⟩ := exists_nibDecode_eq hdelta
  obtain ⟨ln, lx, hln, hlx, hl⟩ := exists_nibDecode_eq hval
  exact ⟨dn, ln, dx, lx, ⟨hdn, hln, hdx, hlx, hl.symm⟩, by omega⟩

/-- `opt_enc` writes an option's parts. -/
theorem OptParts.optEncode_eq (h : OptParts dn ln dx lx val)
    (hnum : num.toNat = prev.toNat + nibDecode dn dx) (i : Nat) :
    optEncode num prev val i = .ok (optBytes dn ln dx lx val) := by
  have hdelta : num.toNat - prev.toNat = nibDecode dn dx := by omega
  have hdle : nibDecode dn dx ≤ 65804 := nibDecode_le h.delta_ne h.deltaExt_length
  have hlle : nibDecode ln lx ≤ 65804 := nibDecode_le h.length_ne h.lengthExt_length
  refine optEncode_ok.mpr ⟨by omega, hdelta ▸ hdle, h.value_length ▸ hlle, ?_⟩
  rw [hdelta, h.value_length, nibEncode_nibDecode h.delta_ne h.deltaExt_length,
    nibEncode_nibDecode h.length_ne h.lengthExt_length]
  rfl

/-- `opt_dec_at` reads an option's parts back wherever they stand in IN, whatever follows them. -/
theorem OptParts.optDecodeAt_eq (h : OptParts dn ln dx lx val)
    (hnum : num.toNat = prev.toNat + nibDecode dn dx) (pre rest : Bytes) :
    optDecodeAt (pre ++ optBytes dn ln dx lx val ++ rest) pre.length prev =
      .ok (num, val, (optBytes dn ln dx lx val).length) := by
  set inp := pre ++ optBytes dn ln dx lx val ++ rest with hinp
  have hlen : pre.length + (1 + extLen dn + extLen ln + val.length) ≤ inp.length := by
    rw [hinp, List.length_append, List.length_append, h.bytes_length]
    omega
  have hbyte : byteAt inp pre.length = dn ++ ln := by
    simpa [hinp, optBytes] using byteAt_middle pre _ pre.length (dn ++ ln) rfl
  have hdx : memRead inp (pre.length + 1) (extLen dn) = dx := by
    simpa [hinp, optBytes] using memRead_middle (pre ++ [dn ++ ln]) dx (lx ++ val ++ rest)
      (extLen dn) (pre.length + 1) (by simp) h.deltaExt_length.symm
  have hlx : memRead inp (pre.length + 1 + extLen dn) (extLen ln) = lx := by
    simpa [hinp, optBytes] using memRead_middle (pre ++ [dn ++ ln] ++ dx) lx (val ++ rest)
      (extLen ln) (pre.length + 1 + extLen dn) (by simp [h.deltaExt_length]; omega) h.lengthExt_length.symm
  have hval : memRead inp (pre.length + 1 + extLen dn + extLen ln) val.length = val := by
    simpa [hinp, optBytes] using memRead_middle (pre ++ [dn ++ ln] ++ dx ++ lx) val rest
      val.length (pre.length + 1 + extLen dn + extLen ln)
      (by simp [h.deltaExt_length, h.lengthExt_length]; omega) rfl
  obtain ⟨hhi, hlo⟩ := nibbles_append dn ln
  rw [optDecodeAt_ok, hbyte, hhi, hlo, optFields_ok, hdx, hlx, ← h.value_length, hval, h.bytes_length,
    ← hnum, BitVec.ofNat_toNat, BitVec.setWidth_eq]
  exact ⟨by omega, h.delta_ne, h.length_ne, by omega, num.isLt, by omega, by omega, rfl⟩

end Parts

/-! ### What a decoded option is -/

section Decoded

variable {inp val : Bytes} {p n : Nat} {prev num : Word}

/-- A decoded option's parts are the bytes it was read from; its delta is added exactly (R126). -/
theorem optParts_of_optDecodeAt (h : optDecodeAt inp p prev = .ok (num, val, n)) :
    ∃ dn ln dx lx, OptParts dn ln dx lx val ∧ num.toNat = prev.toNat + nibDecode dn dx ∧
      memRead inp p n = optBytes dn ln dx lx val ∧
      dn = (byteAt inp p).extractLsb' 4 4 ∧ dx = memRead inp (p + 1) (extLen dn) := by
  obtain ⟨hp, hfields⟩ := optDecodeAt_ok.mp h
  obtain ⟨hdn, hln, hdx, hnum, hlx, hval, hr⟩ := optFields_ok.mp hfields
  obtain ⟨rfl, rfl, rfl⟩ := Prod.mk.inj hr |>.imp_right Prod.mk.inj
  refine ⟨_, _, _, _, ⟨hdn, hln, memRead_length _ _ _ hdx, memRead_length _ _ _ hlx,
    memRead_length _ _ _ hval⟩, ?_, ?_, rfl, rfl⟩
  · rw [BitVec.toNat_ofNat, Nat.mod_eq_of_lt hnum]
  · rw [optBytes, nibbles_split, memRead_add, memRead_add, memRead_add, memRead_one _ _ hp]
    simp [Nat.add_assoc]

end Decoded

/-- Settles O12: encoding and decoding are the two directions between an option and its parts. -/
theorem optRoundTrip : Obligations.OptRoundTrip := by
  unfold Obligations.OptRoundTrip
  refine ⟨fun num prev val tail i hle hdelta hval => ?_, fun inp p prev num val n i hdec => ?_⟩
  · obtain ⟨dn, ln, dx, lx, hparts, hnum⟩ := exists_optParts hle hdelta hval
    exact ⟨_, hparts.optEncode_eq hnum i, hparts.optDecodeAt_eq hnum [] tail⟩
  · obtain ⟨dn, ln, dx, lx, hparts, hnum, hread, -, -⟩ := optParts_of_optDecodeAt hdec
    obtain ⟨hpos, hend⟩ := optDecodeAt_count hdec
    exact ⟨hpos, hend, hread ▸ hparts.optEncode_eq hnum i⟩

/-- Settles O17: number and bound are those of the decoded parts. -/
theorem optDecNumber : Obligations.OptDecNumber := by
  unfold Obligations.OptDecNumber
  intro inp p prev num val n hdec
  obtain ⟨_, ln, _, lx, hparts, hnum, -, rfl, rfl⟩ := optParts_of_optDecodeAt hdec
  exact ⟨hnum, nibDecode_le hparts.delta_ne hparts.deltaExt_length, by omega⟩

/-! ### The first check of `opt_dec_at` that fails -/

section Stops

variable {inp : Bytes} {p : Nat} {prev : Word} {b : Byte} {dn ln : Nibble}

theorem optDecodeAt_of_end (h : inp.length ≤ p) (prev : Word) :
    optDecodeAt inp p prev = .error (.err .tOptHdr p) := by
  simp [optDecodeAt, h]

theorem optDecodeAt_of_byte (h : inp[p]? = some b) (prev : Word) :
    optDecodeAt inp p prev = optFields inp p prev (b.extractLsb' 4 4) (b.extractLsb' 0 4) := by
  have hp : p < inp.length := (List.getElem?_eq_some_iff.mp h).1
  have hb : byteAt inp p = b := by simp [byteAt, h]
  simp [optDecodeAt, hb, hp]

theorem optFields_dnib15 (inp : Bytes) (p : Nat) (prev : Word) (ln : Nibble) :
    optFields inp p prev 15 ln = .error (.err .fDnib15 p) := rfl

theorem optFields_lnib15 (hdn : dn ≠ 15) (inp : Bytes) (p : Nat) (prev : Word) :
    optFields inp p prev dn 15 = .error (.err .fLnib15 p) := by
  simpa [optFields] using hdn

theorem optFields_short_deltaExt (hdn : dn ≠ 15) (hln : ln ≠ 15)
    (hshort : inp.length < p + 1 + extLen dn) (prev : Word) :
    optFields inp p prev dn ln = .error (.err .tDext (p + 1)) := by
  simp only [optFields, need_bind, if_pos hdn, if_pos hln, if_neg (Nat.not_le.mpr hshort)]

theorem optFields_numOvf (hdn : dn ≠ 15) (hln : ln ≠ 15) (hdx : p + 1 + extLen dn ≤ inp.length)
    (hnum : 4294967296 ≤ prev.toNat + nibDecode dn (memRead inp (p + 1) (extLen dn))) :
    optFields inp p prev dn ln = .error (.err .fNumOvf p) := by
  simp only [optFields, need_bind, if_pos hdn, if_pos hln, if_pos hdx, if_neg (Nat.not_lt.mpr hnum)]

theorem optFields_short_lengthExt (hdn : dn ≠ 15) (hln : ln ≠ 15) (hdx : p + 1 + extLen dn ≤ inp.length)
    (hnum : prev.toNat + nibDecode dn (memRead inp (p + 1) (extLen dn)) < 4294967296)
    (hshort : inp.length < p + 1 + extLen dn + extLen ln) :
    optFields inp p prev dn ln = .error (.err .tLext (p + 1 + extLen dn)) := by
  simp only [optFields, need_bind, if_pos hdn, if_pos hln, if_pos hdx, if_pos hnum,
    if_neg (Nat.not_le.mpr hshort)]

theorem optFields_short_value (hdn : dn ≠ 15) (hln : ln ≠ 15)
    (hnum : prev.toNat + nibDecode dn (memRead inp (p + 1) (extLen dn)) < 4294967296)
    (hlx : p + 1 + extLen dn + extLen ln ≤ inp.length)
    (hshort : inp.length < p + 1 + extLen dn + extLen ln +
      nibDecode ln (memRead inp (p + 1 + extLen dn) (extLen ln))) :
    optFields inp p prev dn ln = .error (.err .tValue (p + 1 + extLen dn + extLen ln)) := by
  have hdx : p + 1 + extLen dn ≤ inp.length := by omega
  simp only [optFields, need_bind, if_pos hdn, if_pos hln, if_pos hdx, if_pos hnum, if_pos hlx,
    if_neg (Nat.not_le.mpr hshort)]

end Stops

/-- Settles O16: the checks of `opt_dec_at` in their order. -/
theorem optDecTruncation : Obligations.OptDecTruncation := by
  unfold Obligations.OptDecTruncation
  refine fun inp p prev => ⟨fun hend => optDecodeAt_of_end hend prev, ?_⟩
  intro b hb dn ln q r hdn hln
  rw [optDecodeAt_of_byte hb]
  exact ⟨fun hshort => optFields_short_deltaExt hdn hln hshort prev, fun hdx hnum =>
    ⟨optFields_short_lengthExt hdn hln hdx hnum, optFields_short_value hdn hln hnum⟩⟩

/-- Settles O18: the check of the number stands between the two extensions. -/
theorem optDecOverflow : Obligations.OptDecOverflow := by
  unfold Obligations.OptDecOverflow
  intro inp p prev b hb hdn hln hdx hnum
  exact (optDecodeAt_of_byte hb prev).trans (optFields_numOvf hdn hln hdx hnum)

theorem highNibble_eq_fifteen_iff (b : Byte) : b.extractLsb' 4 4 = 15 ↔ b.toNat / 16 = 15 := by
  revert b; decide

theorem lowNibble_eq_fifteen_iff (b : Byte) : b.extractLsb' 0 4 = 15 ↔ b.toNat % 16 = 15 := by
  revert b; decide

/-- The payload after a marker that is not the last byte is the rest of IN (44_message.md R162). -/
theorem payloadAfter_eq_drop {inp : Bytes} {p : Nat} (h : p + 1 < inp.length) :
    payloadAfter inp p = .ok (inp.drop (p + 1)) := by
  refine payloadAfter_ok.mpr ⟨h.ne, ?_⟩
  rw [memRead, List.take_of_length_le (by rw [List.length_drop, Nat.sub_sub])]

/-- Settles O15: the two nibble checks of `opt_dec_at`, and the sequencer's test of 0xFF before it. -/
theorem optDecNibble15 : Obligations.OptDecNibble15 := by
  unfold Obligations.OptDecNibble15
  refine ⟨fun inp p prev b hb => ?_, fun cap inp left p acc os hb hp => ?_⟩
  · rw [optDecodeAt_of_byte hb, ne_eq, ← highNibble_eq_fifteen_iff, ← lowNibble_eq_fifteen_iff]
    refine ⟨fun hdn => ?_, fun hdn hln => ?_⟩
    · rw [hdn, optFields_dnib15]
    · rw [hln, optFields_lnib15 hdn]
  · have hmarker : byteAt inp p = 0xFF := by simp [byteAt, hb]
    rw [seqDecode_marker (by omega) hmarker, payloadAfter_eq_drop hp]
    rfl

/-! ### OPT_DEC -/

section Decode

variable {s : State} {p : Word} {inp : Bytes}

/-- OPT_DEC ends as `opt_dec_at(0, PREV)` does (R129). -/
theorem execOptDec_eq (hprev : s.prev = .holds p) (hin : s.input = .holds inp) :
    execOptDec s = finish (commandOutputs .optDec) s (do
      let r ← optDecodeAt inp 0 p
      .ok (s.putOption r)) := by
  simp [execOptDec, hprev, hin]

theorem execOptDec_done {num : Word} {val : Bytes} {n : Nat} (hprev : s.prev = .holds p)
    (hin : s.input = .holds inp) (hdec : optDecodeAt inp 0 p = .ok (num, val, n)) :
    execOptDec s = .next (s.putOption (num, val, n)).succeed := by
  rw [execOptDec_eq hprev hin, hdec, Calc.ok_bind, finish_ok]

theorem execOptDec_err {c : Cause} {pos : Nat} (hprev : s.prev = .holds p)
    (hin : s.input = .holds inp) (hdec : optDecodeAt inp 0 p = .error (.err c pos)) :
    execOptDec s = .next (s.raiseError (commandOutputs .optDec) c pos) := by
  rw [execOptDec_eq hprev hin, hdec, Calc.error_bind, finish_err]

end Decode

/-- Settles O14: the writes of OPT_DEC, or the spoiling of its three outputs. -/
theorem optDecCommand : Obligations.OptDecCommand := by
  unfold Obligations.OptDecCommand
  exact ⟨rfl, fun s p inp hprev hin =>
    ⟨fun _ _ _ => execOptDec_done hprev hin, fun _ _ => execOptDec_err hprev hin⟩⟩

/-- Settles O13: IN starts with an option's parts, which `opt_dec_at` reads back. -/
theorem optDecResult : Obligations.OptDecResult := by
  unfold Obligations.OptDecResult
  intro s p dn ln dx lx val rest hdn hln hdx hlx hval hnum hprev hin
  have hparts : OptParts dn ln dx lx val := ⟨hdn, hln, hdx, hlx, hval⟩
  have hdec := hparts.optDecodeAt_eq (BitVec.toNat_ofNat _ _ |>.trans (Nat.mod_eq_of_lt hnum)) [] rest
  rw [exec_optDec, execOptDec_done hprev hin hdec, hparts.bytes_length]
  rfl

/-! ### OPT_ENC -/

section Encode

variable {num prev : Word} {val : Bytes}

theorem optEncode_deltaNeg (h : num.toNat < prev.toNat) (val : Bytes) (i : Nat) :
    optEncode num prev val i = .error (.err .vDeltaNeg i) := by
  simp [optEncode, Nat.not_le.mpr h]

theorem optEncode_delta (h : prev.toNat ≤ num.toNat) (hdelta : 65804 < num.toNat - prev.toNat)
    (val : Bytes) (i : Nat) : optEncode num prev val i = .error (.err .vDelta i) := by
  simp only [optEncode, need_bind, if_pos h, Config.maxRaw, if_neg (Nat.not_le.mpr hdelta)]

theorem optEncode_vlen (h : prev.toNat ≤ num.toNat) (hdelta : num.toNat - prev.toNat ≤ 65804)
    (hval : 65804 < val.length) (i : Nat) : optEncode num prev val i = .error (.err .vVlen i) := by
  simp only [optEncode, need_bind, if_pos h, Config.maxRaw, if_pos hdelta, Config.maxVlen,
    if_neg (Nat.not_le.mpr hval)]

/-- OPT_ENC ends as `opt_enc(NUM, PREV, IN, 0)` does, if its bytes fit OUT (R128). -/
theorem execOptEnc_eq {s : State} (hnum : s.num = .holds num) (hprev : s.prev = .holds prev)
    (hin : s.input = .holds val) :
    execOptEnc s = finish (commandOutputs .optEnc) s (do
      let bs ← optEncode num prev val 0
      need (fitsBuf s.cap bs.length) .cOut 0
      .ok { s with out := .holds bs }) := by
  simp [execOptEnc, hnum, hprev, hin]

end Encode

/-- Settles O11: the three checks of `opt_enc` in their order, then the capacity of OUT. -/
theorem optEncResult : Obligations.OptEncResult := by
  unfold Obligations.OptEncResult
  refine ⟨rfl, fun s n p v hnum hprev hin => ?_⟩
  intro d l bytes
  rw [exec_optEnc, execOptEnc_eq hnum hprev hin]
  split_ifs with hneg hdelta hvlen hcap
  · rw [optEncode_deltaNeg hneg]
    rfl
  · rw [optEncode_delta (Nat.not_lt.mp hneg) hdelta]
    rfl
  · rw [optEncode_vlen (Nat.not_lt.mp hneg) (Nat.not_lt.mp hdelta) hvlen]
    rfl
  all_goals
    have henc : optEncode n p v 0 = .ok bytes := optEncode_ok.mpr
      ⟨Nat.not_lt.mp hneg, Nat.not_lt.mp hdelta, Nat.not_lt.mp hvlen, rfl⟩
    rw [henc, Calc.ok_bind, need_bind]
  · rw [if_neg (by simp [hcap])]
    rfl
  · rw [if_pos (by simpa using hcap)]
    rfl

end Sys2Proof.Machine
end

section
/-! The fixed header (43_header.md R140-R143): each field's value on the wire, the three fields of byte 0 in
disjoint bits, and `hdr_validate` and `hdr_unpack` by the way each can end. HDR_ENC and HDR_DEC (R144, R145)
end as these do. -/

namespace Sys2Proof.Machine

open Sys2Proof

/-! ### Packing -/

section Pack

variable {ver typ code mid : Word} {tkl : Nat}

/-- The OR of byte 0 is a sum: its fields occupy disjoint bits (R140). -/
theorem hdrByte0_toNat (hver : ver.toNat ≤ 3) (htyp : typ.toNat ≤ 3) (htkl : tkl ≤ 8) :
    (ver <<< 6 ||| typ <<< 4 ||| BitVec.ofNat 32 tkl).toNat =
      ver.toNat * 64 + typ.toNat * 16 + tkl := by
  have hlow : typ.toNat <<< 4 + tkl = typ.toNat <<< 4 ||| tkl :=
    Nat.shiftLeft_add_eq_or_of_lt (by omega) _
  have hhigh : ver.toNat <<< 6 + (typ.toNat <<< 4 + tkl) = ver.toNat <<< 6 ||| (typ.toNat <<< 4 + tkl) :=
    Nat.shiftLeft_add_eq_or_of_lt (by rw [Nat.shiftLeft_eq]; omega) _
  have hfit : ver.toNat <<< 6 < 2 ^ 32 ∧ typ.toNat <<< 4 < 2 ^ 32 ∧ tkl < 2 ^ 32 := by
    simp only [Nat.shiftLeft_eq]
    omega
  obtain ⟨hver32, htyp32, htkl32⟩ := hfit
  rw [BitVec.toNat_or, BitVec.toNat_or, BitVec.toNat_shiftLeft, BitVec.toNat_shiftLeft,
    BitVec.toNat_ofNat, Nat.mod_eq_of_lt hver32, Nat.mod_eq_of_lt htyp32, Nat.mod_eq_of_lt htkl32,
    Nat.lor_assoc, ← hlow, ← hhigh, Nat.shiftLeft_eq, Nat.shiftLeft_eq, Nat.add_assoc]

theorem hdrPack_eq (hver : ver.toNat ≤ 3) (htyp : typ.toNat ≤ 3) (htkl : tkl ≤ 8) (code mid : Word) :
    hdrPack ver typ tkl code mid =
      [BitVec.ofNat 8 (ver.toNat * 64 + typ.toNat * 16 + tkl), BitVec.ofNat 8 code.toNat,
        BitVec.ofNat 8 (mid.toNat / 256), BitVec.ofNat 8 (mid.toNat % 256)] := by
  have hmid : be16 mid.toNat = [mid.extractLsb' 8 8, mid.extractLsb' 0 8] := by
    rw [be16, BitVec.extractLsb', BitVec.extractLsb', Nat.shiftRight_eq_div_pow, Nat.shiftRight_zero]
  rw [← hdrByte0_toNat hver htyp htkl, BitVec.ofNat_toNat, BitVec.ofNat_toNat, ← be16_eq_div_mod, hmid,
    hdrPack]

/-- The five checks of `hdr_validate` in their order (R141). -/
theorem hdrValidate_eq : hdrValidate ver typ code mid tkl =
    if 3 < ver.toNat then .error (.err .vVersion 0)
    else if 3 < typ.toNat then .error (.err .vType 0)
    else if 255 < code.toNat then .error (.err .vCode 0)
    else if 65535 < mid.toNat then .error (.err .vMid 0)
    else if 8 < tkl then .error (.err .vTkl 0)
    else .ok () := by
  simp only [hdrValidate, need_bind, Config.maxTkl, ← not_lt, ite_not]
  simp only [need, ite_not]

end Pack

/-! ### HDR_ENC -/

/-- HDR_ENC ends as `hdr_validate` does, with |TOKEN| as the token length (R144). -/
theorem execHdrEnc_eq {s : State} {ver typ code mid : Word} {token : Bytes} (hver : s.ver = .holds ver)
    (htyp : s.typ = .holds typ) (hcode : s.code = .holds code) (hmid : s.mid = .holds mid)
    (htoken : s.token = .holds token) :
    execHdrEnc s = finish (commandOutputs .hdrEnc) s (do
      hdrValidate ver typ code mid token.length
      .ok { s with out := .holds (hdrPack ver typ token.length code mid) }) := by
  simp [execHdrEnc, hver, htyp, hcode, hmid, htoken]

/-- Settles O19: the five checks of `hdr_validate` in their order, then the packed bytes. -/
theorem hdrEncResult : Obligations.HdrEncResult := by
  unfold Obligations.HdrEncResult
  refine ⟨rfl, fun s ver typ code mid token hver htyp hcode hmid htoken => ?_⟩
  rw [exec_hdrEnc, execHdrEnc_eq hver htyp hcode hmid htoken, hdrValidate_eq]
  split_ifs with hv ht hc hm hk
  case neg =>
    rw [← hdrPack_eq (Nat.not_lt.mp hv) (Nat.not_lt.mp ht) (Nat.not_lt.mp hk)]
    rfl
  all_goals rfl

/-! ### Unpacking -/

section Unpack

theorem zext32_eq_ofNat {n : Nat} (v : BitVec n) : zext32 v = BitVec.ofNat 32 v.toNat :=
  (BitVec.ofNat_toNat 32 v).symm

variable (b : Byte)

theorem hdrVer_toNat : (b.extractLsb' 6 2).toNat = b.toNat / 64 := by
  rw [BitVec.extractLsb'_toNat, Nat.shiftRight_eq_div_pow]
  omega

theorem hdrType_toNat : (b.extractLsb' 4 2).toNat = b.toNat / 16 % 4 := by
  rw [BitVec.extractLsb'_toNat, Nat.shiftRight_eq_div_pow]

theorem hdrTkl_toNat : (b.extractLsb' 0 4).toNat = b.toNat % 16 := by
  rw [BitVec.extractLsb'_toNat, Nat.shiftRight_zero]

theorem hdrMid_toNat (h l : Byte) : (hdrMid h l).toNat = h.toNat * 256 + l.toNat := by
  rw [hdrMid, BitVec.toNat_append, ← Nat.shiftLeft_add_eq_or_of_lt l.isLt, Nat.shiftLeft_eq]

variable {inp : Bytes}

theorem hdrUnpack_short (h : inp.length < 4) : hdrUnpack inp = .error (.err .tHeader 0) := by
  rw [hdrUnpack, hdrPresent, need_of_not (Nat.not_le.mpr h), Calc.error_bind]

theorem hdrUnpack_tkl (h : 4 ≤ inp.length) (htkl : 8 < (byteAt inp 0).toNat % 16) :
    hdrUnpack inp = .error (.err .fTkl 0) := by
  rw [← hdrTkl_toNat] at htkl
  rw [hdrUnpack, hdrPresent, need_of h, Calc.ok_bind, need_bind, if_neg (Nat.not_le.mpr htkl)]

end Unpack

/-! ### HDR_DEC -/

/-- HDR_DEC ends as `hdr_unpack` does (R145). -/
theorem execHdrDec_eq {s : State} {inp : Bytes} (hin : s.input = .holds inp) :
    execHdrDec s = finish (commandOutputs .hdrDec) s (do
      let h ← hdrUnpack inp
      .ok (s.putHdrDec h)) := by
  rw [execHdrDec, hin, Entry.get_holds, Calc.ok_bind]

/-- An error of HDR_DEC unwrites its five outputs (60_exceptions.md R204). -/
theorem raiseError_hdrDec (s : State) (c : Cause) (pos : Nat) :
    s.raiseError (commandOutputs .hdrDec) c pos = { s with
      ver := .unwritten, typ := .unwritten, code := .unwritten, mid := .unwritten, res := .unwritten
      status := c.status, errPos := pos } := by
  simp only [State.raiseError, commandOutputs, List.foldl_cons, List.foldl_nil, State.spoil]

/-- The fields of HDR_DEC as numbers, read off the four header bytes. -/
theorem putHdrDec_bytes (s : State) (b c h l : Byte) :
    s.putHdrDec ⟨b.extractLsb' 6 2, b.extractLsb' 4 2, b.extractLsb' 0 4, c, hdrMid h l⟩ = { s with
      ver := .holds (BitVec.ofNat 32 (b.toNat / 64)), typ := .holds (BitVec.ofNat 32 (b.toNat / 16 % 4))
      code := .holds (BitVec.ofNat 32 c.toNat), mid := .holds (BitVec.ofNat 32 (h.toNat * 256 + l.toNat))
      res := .holds (BitVec.ofNat 32 (b.toNat % 16)) } := by
  simp only [State.putHdrDec, State.putHeader, zext32_eq_ofNat, hdrVer_toNat, hdrType_toNat, hdrTkl_toNat,
    hdrMid_toNat]

/-- Settles O20: T_HEADER below four bytes, F_TKL above 8, or the header's fields. -/
theorem hdrDecResult : Obligations.HdrDecResult := by
  unfold Obligations.HdrDecResult
  refine ⟨rfl, fun s inp hin => ⟨fun hshort => ?_, ?_⟩⟩
  · rw [exec_hdrDec, execHdrDec_eq hin, hdrUnpack_short hshort, Calc.error_bind, finish_err,
      raiseError_hdrDec]
    rfl
  · rintro b c h l rest rfl
    have hlen : 4 ≤ (b :: c :: h :: l :: rest).length := Nat.le_add_left 4 rest.length
    rw [exec_hdrDec, execHdrDec_eq hin]
    split_ifs with htkl
    · rw [hdrUnpack_tkl hlen htkl, Calc.error_bind, finish_err, raiseError_hdrDec]
      rfl
    · have hunpack : hdrUnpack (b :: c :: h :: l :: rest) =
          .ok ⟨b.extractLsb' 6 2, b.extractLsb' 4 2, b.extractLsb' 0 4, c, hdrMid h l⟩ :=
        hdrUnpack_ok.mpr ⟨hlen, (hdrTkl_toNat b).trans_le (Nat.not_lt.mp htkl), rfl⟩
      rw [hunpack, Calc.ok_bind, putHdrDec_bytes, finish_ok]
      rfl

end Sys2Proof.Machine
end

section
/-! `opts_validate` (44_message.md R167): the options are checked one by one, each after the option before
it, and the first that is not good is the one reported. -/

namespace Sys2Proof.Machine

open Sys2Proof

section Validate

variable {acc : Word} {i : Nat} {o q : OptEntry} {l os : List OptEntry}

/-- The two checks of one option in their order, then the rest. -/
theorem optsValidate_cons : optsValidate acc i (o :: os) =
    if 65804 < o.num.toNat - acc.toNat then .error (.err .vDelta i)
    else if 65804 < o.val.length then .error (.err .vVlen i)
    else optsValidate o.num (i + 1) os := by
  simp only [optsValidate, need_bind, Config.maxRaw, Config.maxVlen, ← not_lt, ite_not]

/-- The delta of the option `o` at index `i` of the list `l`, before which the option `q` stands. -/
def deltaAfter (q : OptEntry) (l : List OptEntry) (i : Nat) (o : OptEntry) : Nat :=
  o.num.toNat - (((q :: l)[i]?).elim 0 fun x => x.num.toNat)

/-- The delta and the value length are in range. -/
def goodAfter (q : OptEntry) (l : List OptEntry) (i : Nat) (o : OptEntry) : Prop :=
  deltaAfter q l i o ≤ 65804 ∧ o.val.length ≤ 65804

theorem goodAfter_zero : goodAfter q l 0 o ↔ o.num.toNat - q.num.toNat ≤ 65804 ∧ o.val.length ≤ 65804 :=
  Iff.rfl

theorem goodAfter_succ {x : OptEntry} {j : Nat} : goodAfter q (o :: os) (j + 1) x ↔ goodAfter o os j x :=
  Iff.rfl

theorem optsValidate_ok_iff :
    optsValidate q.num i l = .ok () ↔ ∀ j o, l[j]? = some o → goodAfter q l j o := by
  induction l generalizing q i with
  | nil => simp [optsValidate]
  | cons o os ih =>
    rw [optsValidate_cons_ok, ih, ← and_assoc, ← goodAfter_zero (l := o :: os)]
    constructor
    · rintro ⟨hhead, htail⟩ (_ | j) x hx
      · cases hx
        exact hhead
      · exact htail j x hx
    · intro h
      exact ⟨h 0 o rfl, fun j x hx => h (j + 1) x hx⟩

/-- The first option that is not good is reported, with the index it has after `i`. -/
theorem optsValidate_firstBad {j : Nat} (hj : l[j]? = some o)
    (hgood : ∀ m x, m < j → l[m]? = some x → goodAfter q l m x) :
    (65804 < deltaAfter q l j o → optsValidate q.num i l = .error (.err .vDelta (i + j))) ∧
    (deltaAfter q l j o ≤ 65804 → 65804 < o.val.length →
      optsValidate q.num i l = .error (.err .vVlen (i + j))) := by
  induction l generalizing q i j with
  | nil => cases hj
  | cons x os ih =>
    cases j with
    | zero =>
      cases hj
      rw [optsValidate_cons]
      exact ⟨fun hdelta => if_pos hdelta,
        fun hdelta hval => (if_neg (Nat.not_lt.mpr hdelta)).trans (if_pos hval)⟩
    | succ j =>
      obtain ⟨hdelta, hval⟩ := goodAfter_zero.mp (hgood 0 x j.succ_pos rfl)
      have hindex : i + (j + 1) = i + 1 + j := by omega
      rw [optsValidate_cons, if_neg (Nat.not_lt.mpr hdelta), if_neg (Nat.not_lt.mpr hval), hindex]
      exact ih hj fun m y hm hy => hgood (m + 1) y (Nat.succ_lt_succ hm) hy

end Validate

/-- Settles O28: by induction on the list, and on the index of its first bad option. -/
theorem optsValidateFirst : Obligations.OptsValidateFirst := by
  unfold Obligations.OptsValidateFirst
  intro l delta good
  refine ⟨optsValidate_ok_iff (q := ⟨0, []⟩), fun i o ho hgood => ?_⟩
  have hfirst := optsValidate_firstBad (q := ⟨0, []⟩) (i := 0) ho hgood
  rw [Nat.zero_add] at hfirst
  exact hfirst

end Sys2Proof.Machine
end

section
/-! The option sequencer (44_message.md R161, R162). One pass of `seq_dec` and one option of `seq_enc` are both
an option's parts (`OptParts`), so a decoded list encodes to the bytes it was read from and an encoded list is
read back. A list that encodes is in order (R169), sorted and valid. -/

namespace Sys2Proof.Machine

open Sys2Proof

/-! ### An option list that encodes -/

section Encoded

variable {acc : Word} {i : Nat} {q : OptEntry} {l : List OptEntry} {body : Bytes}

/-- What `opt_enc` writes is some option's parts, with the delta it was asked for. -/
theorem optParts_of_optEncode {num prev : Word} {val bs : Bytes} (h : optEncode num prev val i = .ok bs) :
    ∃ dn ln dx lx, OptParts dn ln dx lx val ∧ num.toNat = prev.toNat + nibDecode dn dx ∧
      bs = optBytes dn ln dx lx val := by
  obtain ⟨hle, hdelta, hval, -⟩ := optEncode_ok.mp h
  obtain ⟨dn, ln, dx, lx, hparts, hnum⟩ := exists_optParts hle hdelta hval
  exact ⟨dn, ln, dx, lx, hparts, hnum, Except.ok.inj (h.symm.trans (hparts.optEncode_eq hnum i))⟩

/-- The order R169 asks of two neighbours: the second number is the first plus a delta of 0 to 65804. -/
abbrev DeltaInRange (a b : OptEntry) : Prop :=
  a.num.toNat ≤ b.num.toNat ∧ b.num.toNat ≤ a.num.toNat + 65804

theorem isChain_of_seqEncode (h : seqEncode q.num i l = .ok body) : List.IsChain DeltaInRange (q :: l) := by
  induction l generalizing q i body with
  | nil => exact .singleton q
  | cons o os ih =>
    obtain ⟨b, rest, hb, hrest, -⟩ := seqEncode_cons_ok.mp h
    obtain ⟨hle, hdelta, -, -⟩ := optEncode_ok.mp hb
    exact .cons_cons ⟨hle, by omega⟩ (ih hrest)

theorem optsValidate_of_seqEncode (h : seqEncode acc i l = .ok body) : optsValidate acc i l = .ok () := by
  induction l generalizing acc i body with
  | nil => rfl
  | cons o os ih =>
    obtain ⟨b, rest, hb, hrest, -⟩ := seqEncode_cons_ok.mp h
    obtain ⟨-, hdelta, hval, -⟩ := optEncode_ok.mp hb
    exact optsValidate_cons_ok.mpr ⟨hdelta, hval, ih hrest⟩

/-- An encoded list is in ascending order already, so the sort leaves it as it is. -/
theorem sortOpts_of_seqEncode (h : seqEncode acc i l = .ok body) : sortOpts l = l := by
  have hchain : List.IsChain DeltaInRange l := (isChain_of_seqEncode (q := ⟨acc, []⟩) h).of_cons
  have hsorted : l.Pairwise numLe := List.isChain_iff_pairwise.mp (hchain.imp fun _ _ hab => hab.1)
  rw [sortOpts_eq_insertionSort, hsorted.insertionSort_eq]

theorem length_le_of_seqEncode (h : seqEncode acc i l = .ok body) : l.length ≤ body.length := by
  induction l generalizing acc i body with
  | nil => exact Nat.zero_le _
  | cons o os ih =>
    obtain ⟨b, rest, hb, hrest, rfl⟩ := seqEncode_cons_ok.mp h
    obtain ⟨dn, ln, dx, lx, -, -, rfl⟩ := optParts_of_optEncode hb
    have htail : os.length ≤ rest.length := ih hrest
    simp only [optBytes, List.cons_append, List.length_cons, List.length_append]
    omega

end Encoded

/-! ### Decoding encoded options -/

section Forward

variable {cap : Config.Capacity} {acc : Word} {left i : Nat} {opts l : List OptEntry} {body : Bytes}

theorem fitsOpts_mono {m n : Nat} (h : fitsOpts cap n = true) (hle : m ≤ n) : fitsOpts cap m = true := by
  unfold fitsOpts at h ⊢
  cases hmax : cap.maxOpts with
  | none => rfl
  | some bound =>
    rw [hmax] at h
    exact decide_eq_true (hle.trans (of_decide_eq_true h))

/-- An option's first byte is not the marker (R162). -/
theorem nibbles_ne_marker {dn : Nibble} (h : dn ≠ 15) (ln : Nibble) : (dn ++ ln : Byte) ≠ 0xFF := by
  revert dn ln; decide

/-- One pass of `seq_dec` over an option's parts. -/
theorem OptParts.seqDecode_eq {dn ln : Nibble} {dx lx val : Bytes} {num : Word}
    (h : OptParts dn ln dx lx val) (hnum : num.toNat = acc.toNat + nibDecode dn dx) (pre rest : Bytes)
    (hfit : fitsOpts cap (opts.length + 1) = true) :
    seqDecode cap (pre ++ optBytes dn ln dx lx val ++ rest) (left + 1) pre.length acc opts =
      seqDecode cap (pre ++ optBytes dn ln dx lx val ++ rest) left
        (pre ++ optBytes dn ln dx lx val).length num (opts ++ [⟨num, val⟩]) := by
  have hbyte : byteAt (pre ++ optBytes dn ln dx lx val ++ rest) pre.length = dn ++ ln := by
    simpa [optBytes] using byteAt_middle pre _ pre.length (dn ++ ln) rfl
  have hend : pre.length ≠ (pre ++ optBytes dn ln dx lx val ++ rest).length := by
    simp [optBytes]
  have hpush : pushOpt cap pre.length opts num val = .ok (opts ++ [⟨num, val⟩]) :=
    pushOpt_ok.mpr ⟨hfit, rfl⟩
  rw [seqDecode_option hend (hbyte ▸ nibbles_ne_marker h.delta_ne ln), h.optDecodeAt_eq hnum, Calc.ok_bind,
    hpush, Calc.ok_bind, ← List.length_append]

/-- ACC, the running previous number (10_state.md R44), after the options `l`. -/
def accAfter (acc : Word) (l : List OptEntry) : Word := l.foldl (fun _ o => o.num) acc

/-- As many passes as there are options take `seq_dec` over an encoded list, wherever it stands in IN. -/
theorem seqDecode_seqEncode (h : seqEncode acc i l = .ok body) (pre rest : Bytes)
    (hfit : fitsOpts cap (opts.length + l.length) = true) :
    seqDecode cap (pre ++ body ++ rest) (left + l.length) pre.length acc opts =
      seqDecode cap (pre ++ body ++ rest) left (pre ++ body).length (accAfter acc l) (opts ++ l) := by
  induction l generalizing acc i body pre opts with
  | nil =>
    cases h
    simp [accAfter]
  | cons o os ih =>
    obtain ⟨b, tail, hb, htail, rfl⟩ := seqEncode_cons_ok.mp h
    obtain ⟨dn, ln, dx, lx, hparts, hnum, rfl⟩ := optParts_of_optEncode hb
    rw [List.length_cons] at hfit
    have hroom : fitsOpts cap (opts.length + 1) = true := fitsOpts_mono hfit (by omega)
    have hrest := ih htail (pre ++ optBytes dn ln dx lx o.val) (opts := opts ++ [o])
      (by rwa [List.length_append, List.length_singleton, Nat.add_assoc, Nat.add_comm 1])
    have hpass := hparts.seqDecode_eq hnum pre (tail ++ rest) hroom (left := left + os.length)
    simp only [List.append_assoc] at hpass hrest ⊢
    exact hpass.trans hrest

theorem payloadAfter_last {inp : Bytes} {p : Nat} (h : p + 1 = inp.length) :
    payloadAfter inp p = .error (.err .fEmptyPayload p) := by
  rw [payloadAfter, need_of_not (not_not.mpr h), Calc.error_bind]

/-- An encoded list and a marker that ends IN (R163). -/
theorem seqDecode_emptyPayload (h : seqEncode acc i l = .ok body) (pre : Bytes)
    (hfit : fitsOpts cap (opts.length + l.length) = true) :
    seqDecode cap (pre ++ body ++ [0xFF]) (body.length + 1) pre.length acc opts =
      .error (.err .fEmptyPayload (pre.length + body.length)) := by
  have hle : l.length ≤ body.length := length_le_of_seqEncode h
  have hfuel : body.length + 1 = body.length - l.length + 1 + l.length := by omega
  have hmark : byteAt (pre ++ body ++ [0xFF]) (pre ++ body).length = 0xFF := byteAt_middle _ [] _ _ rfl
  rw [hfuel, seqDecode_seqEncode h pre [0xFF] hfit, seqDecode_marker (by simp) hmark,
    payloadAfter_last (by simp [Nat.add_assoc]), Calc.error_bind, List.length_append]

end Forward

/-! ### Encoding decoded options -/

section Backward

variable {cap : Config.Capacity} {inp payload : Bytes} {acc : Word} {left p : Nat} {opts : List OptEntry}

/-- What one pass of `seq_dec` that completes met: the end of IN, the marker and a payload, or an option. -/
theorem seqDecode_succ_ok {r : List OptEntry × Bytes} (h : seqDecode cap inp (left + 1) p acc opts = .ok r) :
    (p = inp.length ∧ r = (opts, [])) ∨
    (byteAt inp p = 0xFF ∧ ∃ payload, payloadAfter inp p = .ok payload ∧ r = (opts, payload)) ∨
    ∃ num val n, optDecodeAt inp p acc = .ok (num, val, n) ∧
      seqDecode cap inp left (p + n) num (opts ++ [⟨num, val⟩]) = .ok r := by
  by_cases hend : p = inp.length
  · subst hend
    rw [seqDecode_end] at h
    exact .inl ⟨rfl, (Except.ok.inj h).symm⟩
  by_cases hmark : byteAt inp p = 0xFF
  · rw [seqDecode_marker hend hmark] at h
    obtain ⟨payload, hpay, hr⟩ := Calc.bind_eq_ok.mp h
    exact .inr (.inl ⟨hmark, payload, hpay, (Except.ok.inj hr).symm⟩)
  · rw [seqDecode_option hend hmark] at h
    obtain ⟨⟨num, val, n⟩, hopt, h⟩ := Calc.bind_eq_ok.mp h
    obtain ⟨os, hpush, h⟩ := Calc.bind_eq_ok.mp h
    obtain ⟨-, rfl⟩ := pushOpt_ok.mp hpush
    exact .inr (.inr ⟨num, val, n, hopt, h⟩)

/-- A marker at offset `p` and the payload after it are the rest of IN (R163, R164). -/
theorem drop_eq_payloadTail (hp : p < inp.length) (hmark : byteAt inp p = 0xFF)
    (hpay : payloadAfter inp p = .ok payload) : inp.drop p = payloadTail payload := by
  obtain ⟨hne, -⟩ := payloadAfter_ok.mp hpay
  have hlt : p + 1 < inp.length := by omega
  obtain rfl : inp.drop (p + 1) = payload :=
    Except.ok.inj ((payloadAfter_eq_drop hlt).symm.trans hpay)
  have hbyte : inp[p] = 0xFF := by simpa [byteAt, hp] using hmark
  rw [payloadTail, if_pos (by simpa using hlt), List.drop_eq_getElem_cons hp, hbyte]

/-- The rest of IN after `p` is the encoding of the options `seq_dec` read there, and the payload. -/
theorem seqEncode_of_seqDecode {os : List OptEntry} (hp : p ≤ inp.length) (hleft : inp.length ≤ p + left)
    (h : seqDecode cap inp left p acc opts = .ok (os, payload)) :
    ∃ l body, os = opts ++ l ∧ (∀ i, seqEncode acc i l = .ok body) ∧
      inp.drop p = body ++ payloadTail payload := by
  induction left generalizing p acc opts with
  | zero =>
    cases h
    exact ⟨[], [], by simp, fun _ => rfl, List.drop_of_length_le hleft⟩
  | succ left ih =>
    rcases seqDecode_succ_ok h with ⟨rfl, hr⟩ | ⟨hmark, payload', hpay, hr⟩ | ⟨num, val, n, hopt, hrec⟩
    · cases hr
      exact ⟨[], [], by simp, fun _ => rfl, by simp [payloadTail]⟩
    · cases hr
      have hlt : p < inp.length := by
        refine lt_of_le_of_ne hp fun hend => ?_
        simp [byteAt, hend] at hmark
      exact ⟨[], [], by simp, fun _ => rfl, drop_eq_payloadTail hlt hmark hpay⟩
    · obtain ⟨hpos, hcount⟩ := optDecodeAt_count hopt
      obtain ⟨l, body, rfl, hbody, hdrop⟩ := ih hcount (by omega) hrec
      obtain ⟨dn, ln, dx, lx, hparts, hnum, hread, -, -⟩ := optParts_of_optDecodeAt hopt
      refine ⟨⟨num, val⟩ :: l, memRead inp p n ++ body, by simp, fun i => ?_, ?_⟩
      · exact seqEncode_cons_ok.mpr ⟨_, body, hread ▸ hparts.optEncode_eq hnum i, hbody (i + 1), rfl⟩
      · rw [List.append_assoc, ← hdrop, memRead, ← List.drop_drop, List.take_append_drop]

end Backward

end Sys2Proof.Machine
end

section
/-! The message codec (44_message.md R166, R168). MSG_DEC and MSG_ENC are each the header, the token, the
option sequencer and the payload in turn; a message MSG_DEC accepts is the wire form of its descriptor. -/

namespace Sys2Proof.Machine

open Sys2Proof

/-! ### The header of a message -/

section Header

variable {v t : BitVec 2} {k : BitVec 4} {inp : Bytes} {f : HdrFields}

theorem hdrByte0_fields (v t : BitVec 2) (k : BitVec 4) :
    (v ++ t ++ k : Byte).extractLsb' 6 2 = v ∧ (v ++ t ++ k : Byte).extractLsb' 4 2 = t ∧
      (v ++ t ++ k : Byte).extractLsb' 0 4 = k := by
  revert v t k; decide

/-- `hdr_unpack` reads the fields off their bytes, whatever follows (R142). -/
theorem hdrUnpack_fields (hk : k.toNat ≤ 8) (c h l : Byte) (rest : Bytes) :
    hdrUnpack ((v ++ t ++ k) :: c :: h :: l :: rest) = .ok ⟨v, t, k, c, hdrMid h l⟩ := by
  obtain ⟨hv, ht, htkl⟩ := hdrByte0_fields v t k
  refine hdrUnpack_ok.mpr ⟨Nat.le_add_left 4 rest.length, ?_, ?_⟩
  · exact (congrArg BitVec.toNat htkl).trans_le hk
  · exact (HdrFields.mk.injEq ..).mpr ⟨hv.symm, ht.symm, htkl.symm, rfl, rfl⟩

/-- The header byte 0 that `hdr_pack` builds of a byte's own fields is that byte (R140). -/
theorem hdrByte0_pack (b : Byte) :
    (zext32 (b.extractLsb' 6 2) <<< 6 ||| zext32 (b.extractLsb' 4 2) <<< 4 |||
      BitVec.ofNat 32 (b.extractLsb' 0 4).toNat).setWidth 8 = b := by
  revert b; decide

theorem zext32_toNat {n : Nat} (hn : n ≤ 32) (x : BitVec n) : (zext32 x).toNat = x.toNat :=
  BitVec.toNat_setWidth_of_le hn

/-- The two bytes of a message ID (20_memory.md R52). -/
theorem hdrMid_bytes (h l : Byte) : (zext32 (hdrMid h l)).extractLsb' 8 8 = h ∧
    (zext32 (hdrMid h l)).extractLsb' 0 8 = l := by
  constructor
  all_goals
    apply BitVec.eq_of_toNat_eq
    rw [BitVec.extractLsb'_toNat, zext32_toNat (by decide), hdrMid_toNat, Nat.shiftRight_eq_div_pow]
    omega

/-- The four header bytes of the fields `f`. -/
def HdrFields.pack (f : HdrFields) : Bytes :=
  hdrPack (zext32 f.ver) (zext32 f.typ) f.tkl.toNat (zext32 f.code) (zext32 f.mid)

/-- Four header bytes, unpacked and packed again, are themselves. -/
theorem pack_of_hdrUnpack (h : hdrUnpack inp = .ok f) : f.pack = memRead inp 0 4 := by
  obtain ⟨hlen, -, rfl⟩ := hdrUnpack_ok.mp h
  obtain ⟨hhi, hlo⟩ := hdrMid_bytes (byteAt inp 2) (byteAt inp 3)
  have hcode (c : Byte) : (zext32 c).setWidth 8 = c := by simp [zext32]
  have hread : memRead inp 0 4 = [byteAt inp 0, byteAt inp 1, byteAt inp 2, byteAt inp 3] := by
    rw [memRead_add inp 1 0 3, memRead_add inp 1 1 2, memRead_add inp 1 2 1, memRead_one inp 0 (by omega),
      memRead_one inp 1 (by omega), memRead_one inp 2 (by omega), memRead_one inp 3 (by omega)]
    rfl
  rw [hread, HdrFields.pack, hdrPack, hdrByte0_pack, hcode, ← hdrMid, hhi, hlo]

theorem hdrValidate_of_hdrUnpack (h : hdrUnpack inp = .ok f) :
    hdrValidate (zext32 f.ver) (zext32 f.typ) (zext32 f.code) (zext32 f.mid) f.tkl.toNat = .ok () := by
  obtain ⟨-, htkl, rfl⟩ := hdrUnpack_ok.mp h
  refine hdrValidate_ok.mpr ⟨?_, ?_, ?_, ?_, htkl⟩
  all_goals
    rw [zext32_toNat (by decide)]
    exact Nat.le_of_lt_succ (BitVec.isLt _)

end Header

/-! ### MSG_DEC -/

section Decode

variable {s : State} {inp token : Bytes} {f : HdrFields}

/-- Past the header and the token MSG_DEC ends as `seq_dec` does (R168). -/
theorem execMsgDec_eq (hin : s.input = .holds inp) (hhdr : hdrUnpack inp = .ok f)
    (htoken : tokenAt4 inp f.tkl.toNat = .ok token) :
    execMsgDec s = finish (commandOutputs .msgDec) s (do
      let r ← seqDecode s.cap inp (inp.length - (4 + f.tkl.toNat)) (4 + f.tkl.toNat) 0 []
      .ok (s.putMessage f token r.1 r.2)) := by
  simp [execMsgDec, hin, hhdr, htoken]

/-- An error of MSG_DEC unwrites the whole descriptor (60_exceptions.md R204). -/
theorem raiseError_msgDec (s : State) (c : Cause) (pos : Nat) :
    s.raiseError (commandOutputs .msgDec) c pos = { s with
      ver := .unwritten, typ := .unwritten, code := .unwritten, mid := .unwritten
      token := .unwritten, opts := .unwritten, payload := .unwritten
      status := c.status, errPos := pos } := by
  simp only [State.raiseError, commandOutputs, List.foldl_cons, List.foldl_nil, State.spoil]

theorem Cause.status_ne_done (c : Cause) : c.status ≠ statusDone := by
  cases c <;> decide

/-- A command whose STATUS says success reached the end of its pseudocode (R203, R204). -/
theorem finish_done {outs : List EntryName} {t : State} {r : Calc State} (h : finish outs s r = .next t)
    (hdone : t.status = statusDone) : ∃ u, r = .ok u ∧ t = u.succeed := by
  rcases finish_eq_next.mp h with hu | ⟨c, pos, -, rfl⟩
  · exact hu
  · exact absurd hdone c.status_ne_done

/-- The parts of a message in their order on the wire (R164, R166). -/
def wireForm (hdr token body payload : Bytes) : Bytes := hdr ++ token ++ body ++ payloadTail payload

/-- A message MSG_DEC accepts is the wire form of the descriptor it writes, the options being encoded in the
order they stand in. -/
theorem wireForm_of_execMsgDec {t : State} (h : execMsgDec s = .next t) (hdone : t.status = statusDone) :
    ∃ f token opts body payload,
      hdrValidate (zext32 f.ver) (zext32 f.typ) (zext32 f.code) (zext32 f.mid) f.tkl.toNat = .ok () ∧
      token.length = f.tkl.toNat ∧ seqEncode 0 0 opts = .ok body ∧
      s.input = .holds (wireForm f.pack token body payload) ∧
      t = (s.putMessage f token opts payload).succeed := by
  obtain ⟨u, hu, rfl⟩ := finish_done h hdone
  simp only [Calc.bind_eq_ok] at hu
  obtain ⟨inp, hin, f, hhdr, token, htoken, ⟨opts, payload⟩, hseq, hput⟩ := hu
  cases hput
  obtain ⟨hlen, rfl⟩ := tokenAt4_ok.mp htoken
  obtain ⟨l, body, rfl, hbody, hdrop⟩ := seqEncode_of_seqDecode hlen (by omega) hseq
  refine ⟨f, _, _, body, payload, hdrValidate_of_hdrUnpack hhdr, memRead_length _ _ _ hlen, hbody 0,
    ?_, rfl⟩
  rw [Entry.get_eq_ok.mp hin, wireForm, pack_of_hdrUnpack hhdr, List.append_assoc, ← hdrop,
    ← memRead_add inp 4 0, memRead, List.drop_zero, List.take_append_drop]

end Decode

/-- Settles O36: what MSG_DEC reads is an encoded list, and those are in order. -/
theorem decodedOptionsOrdered : Obligations.DecodedOptionsOrdered := by
  unfold Obligations.DecodedOptionsOrdered
  intro s t opts hdec hdone hopts
  obtain ⟨f, token, l, body, payload, -, -, hbody, -, rfl⟩ := wireForm_of_execMsgDec hdec hdone
  cases hopts
  exact isChain_of_seqEncode (q := ⟨0, []⟩) hbody

/-- Settles O37: `seq_dec` passes over the encoded options and meets a marker that ends IN. -/
theorem emptyPayload : Obligations.EmptyPayload := by
  unfold Obligations.EmptyPayload
  intro s v t k c h l token body opts htkl hk hbody hfit hin
  set pre : Bytes := [v ++ t ++ k, c, h, l] ++ token with hpre
  have hprelen : pre.length = 4 + k.toNat := by rw [hpre, List.length_append, htkl]; rfl
  have htoken : tokenAt4 (pre ++ body ++ [0xFF]) k.toNat = .ok token := by
    refine tokenAt4_ok.mpr ⟨by simp [hprelen, Nat.add_assoc], ?_⟩
    rw [hpre, List.append_assoc, memRead_middle _ token _ _ 4 rfl htkl.symm]
  have hleft : (pre ++ body ++ [0xFF]).length - (4 + k.toNat) = body.length + 1 := by
    rw [List.length_append, List.length_append, hprelen, List.length_singleton]
    omega
  rw [exec_msgDec, execMsgDec_eq hin (hdrUnpack_fields hk c h l (token ++ body ++ [0xFF])) htoken, hleft,
    ← hprelen, seqDecode_emptyPayload hbody pre (by simpa using hfit), Calc.error_bind, finish_err,
    raiseError_msgDec, hprelen, htkl]
  rfl

/-! ### MSG_ENC -/

/-- MSG_ENC of a descriptor in range whose bytes fit OUT (R166). -/
theorem execMsgEnc_done {s : State} {ver typ code mid : Word} {token payload body : Bytes}
    {opts : List OptEntry} (hver : s.ver = .holds ver) (htyp : s.typ = .holds typ)
    (hcode : s.code = .holds code) (hmid : s.mid = .holds mid) (htoken : s.token = .holds token)
    (hopts : s.opts = .holds opts) (hpay : s.payload = .holds payload)
    (hvalid : hdrValidate ver typ code mid token.length = .ok ())
    (hvalidOpts : optsValidate 0 0 (sortOpts opts) = .ok ())
    (hbody : seqEncode 0 0 (sortOpts opts) = .ok body)
    (hfit : fitsBuf s.cap
      (wireForm (hdrPack ver typ token.length code mid) token body payload).length = true) :
    execMsgEnc s = .next { s with
      out := .holds (wireForm (hdrPack ver typ token.length code mid) token body payload)
      status := statusDone, errPos := 0 } := by
  unfold wireForm at hfit ⊢
  simp only [execMsgEnc, hver, htyp, hcode, hmid, htoken, hopts, hpay, hvalid, hvalidOpts, hbody,
    Entry.get_holds, Calc.ok_bind, need_bind, if_pos hfit]
  rfl

/-- Settles O35: the descriptor MSG_DEC writes is in range and in order, and IN, whose length fits, is its wire
form, which MSG_ENC puts in OUT. -/
theorem decodeThenEncode : Obligations.DecodeThenEncode := by
  unfold Obligations.DecodeThenEncode
  intro s t hwf hdec hdone
  obtain ⟨f, token, opts, body, payload, hvalid, htkl, hbody, hin, rfl⟩ := wireForm_of_execMsgDec hdec hdone
  obtain ⟨⟨hinput, -⟩, -⟩ := Memory.wf_iff.mp hwf
  rw [hin] at hinput
  have hsort : sortOpts opts = opts := sortOpts_of_seqEncode hbody
  have hvalidOpts : optsValidate 0 0 (sortOpts opts) = .ok () := hsort.symm ▸ optsValidate_of_seqEncode hbody
  rw [exec_msgEnc, execMsgEnc_done rfl rfl rfl rfl rfl rfl rfl (htkl ▸ hvalid) hvalidOpts
    (hsort.symm ▸ hbody) (htkl ▸ hinput), htkl]
  simp only [State.succeed_input, State.putMessage_input, hin]
  rfl

end Sys2Proof.Machine
end

section
/-! The code accessors (45_code.md R190-R194). A code's class and detail are its quotient and remainder by 32,
and recombining them is the inverse; each accessor is then one equation per way it can end. -/

namespace Sys2Proof.Machine

open Sys2Proof

/-! ### Class and detail (R190) -/

section Fields

variable {k d : Word} (c : Word)

theorem codeClass_toNat : (codeClass c).toNat = c.toNat / 32 % 8 := by
  rw [codeClass, zext32_toNat (by decide), BitVec.extractLsb'_toNat, Nat.shiftRight_eq_div_pow]

theorem codeDetail_toNat : (codeDetail c).toNat = c.toNat % 32 := by
  rw [codeDetail, zext32_toNat (by decide), BitVec.extractLsb'_toNat, Nat.shiftRight_zero]

theorem codeClass_le : (codeClass c).toNat ≤ 7 := by
  rw [codeClass_toNat]
  omega

theorem codeDetail_le : (codeDetail c).toNat ≤ 31 := by
  rw [codeDetail_toNat]
  omega

variable {c}

theorem codeClass_toNat_of_le (h : c.toNat ≤ 255) : (codeClass c).toNat = c.toNat / 32 := by
  rw [codeClass_toNat, Nat.mod_eq_of_lt (by omega)]

/-- Bits 7:5 and bits 4:0 do not overlap, so the bitwise or is a sum. -/
theorem codeJoin_toNat (hk : k.toNat ≤ 7) (hd : d.toNat ≤ 31) :
    (codeJoin k d).toNat = k.toNat * 32 + d.toNat := by
  have hor : k.toNat <<< 5 + d.toNat = k.toNat <<< 5 ||| d.toNat :=
    Nat.shiftLeft_add_eq_or_of_lt (by omega) _
  have hfit : k.toNat <<< 5 < 2 ^ 32 := by
    rw [Nat.shiftLeft_eq]
    omega
  rw [codeJoin, BitVec.toNat_or, BitVec.toNat_shiftLeft, Nat.mod_eq_of_lt hfit, ← hor, Nat.shiftLeft_eq]

theorem codeJoin_eq_ofNat (hk : k.toNat ≤ 7) (hd : d.toNat ≤ 31) :
    codeJoin k d = BitVec.ofNat 32 (k.toNat * 32 + d.toNat) := by
  rw [← codeJoin_toNat hk hd, BitVec.ofNat_toNat, BitVec.setWidth_eq]

theorem codeClass_codeJoin (hk : k.toNat ≤ 7) (hd : d.toNat ≤ 31) : codeClass (codeJoin k d) = k := by
  apply BitVec.eq_of_toNat_eq
  rw [codeClass_toNat, codeJoin_toNat hk hd]
  omega

theorem codeDetail_codeJoin (hk : k.toNat ≤ 7) (hd : d.toNat ≤ 31) : codeDetail (codeJoin k d) = d := by
  apply BitVec.eq_of_toNat_eq
  rw [codeDetail_toNat, codeJoin_toNat hk hd]
  omega

theorem codeJoin_class_detail (h : c.toNat ≤ 255) : codeJoin (codeClass c) (codeDetail c) = c := by
  apply BitVec.eq_of_toNat_eq
  rw [codeJoin_toNat (codeClass_le c) (codeDetail_le c), codeClass_toNat_of_le h, codeDetail_toNat]
  omega

end Fields

/-- Settles O25: splitting is division by 32, and recombining undoes it. -/
theorem codeFields : Obligations.CodeFields := by
  unfold Obligations.CodeFields
  exact ⟨fun c h => ⟨codeClass_toNat_of_le h, codeClass_le c, codeDetail_toNat c, codeDetail_le c,
      codeJoin_class_detail h⟩,
    fun _ _ hk hd => ⟨codeClass_codeJoin hk hd, codeDetail_codeJoin hk hd⟩⟩

/-! ### CODE_SPLIT (R191) -/

section Split

variable {s : State} {c : Word}

theorem execCodeSplit_done (hcode : s.code = .holds c) (h : c.toNat ≤ 255) :
    execCodeSplit s = .next { s with
      cls := .holds (codeClass c), detail := .holds (codeDetail c)
      status := statusDone, errPos := 0 } := by
  simp [execCodeSplit, hcode, h, State.succeed]

theorem execCodeSplit_wide (hcode : s.code = .holds c) (h : 255 < c.toNat) :
    execCodeSplit s = .next (s.raiseError (commandOutputs .codeSplit) .vCode 0) := by
  simp [execCodeSplit, hcode, Nat.not_le.mpr h]

end Split

/-- Settles O22: CODE_SPLIT writes the quotient and the remainder by 32, or raises V_CODE. -/
theorem codeSplitResult : Obligations.CodeSplitResult := by
  unfold Obligations.CodeSplitResult
  refine ⟨rfl, fun s c hcode => ⟨fun h => ?_, execCodeSplit_wide hcode⟩⟩
  have hcls : codeClass c = BitVec.ofNat 32 (c.toNat / 32) := by
    rw [← codeClass_toNat_of_le h, BitVec.ofNat_toNat, BitVec.setWidth_eq]
  have hdetail : codeDetail c = BitVec.ofNat 32 (c.toNat % 32) := by
    rw [← codeDetail_toNat, BitVec.ofNat_toNat, BitVec.setWidth_eq]
  rw [exec_codeSplit, execCodeSplit_done hcode h, hcls, hdetail]
  rfl

/-! ### CODE_SET_CLASS and CODE_SET_DETAIL (R192, R193) -/

section Setters

variable {s : State} {k d c : Word}

theorem execCodeSetClass_done (hcls : s.cls = .holds k) (hcode : s.code = .holds c) (h : k.toNat ≤ 7) :
    execCodeSetClass s = .next { s with
      code := .holds (codeJoin k (codeDetail c)), status := statusDone, errPos := 0 } := by
  simp [execCodeSetClass, hcls, hcode, h, State.succeed]

/-- No premise is about CODE: the failed check comes before it is read (30_encoding.md R89). -/
theorem execCodeSetClass_wide (hcls : s.cls = .holds k) (h : 7 < k.toNat) :
    execCodeSetClass s = .next (s.raiseError (commandOutputs .codeSetClass) .vClass 0) := by
  simp [execCodeSetClass, hcls, Nat.not_le.mpr h]

theorem execCodeSetDetail_done (hdetail : s.detail = .holds d) (hcode : s.code = .holds c)
    (h : d.toNat ≤ 31) :
    execCodeSetDetail s = .next { s with
      code := .holds (codeJoin (codeClass c) d), status := statusDone, errPos := 0 } := by
  simp [execCodeSetDetail, hdetail, hcode, h, State.succeed]

/-- No premise is about CODE, as for `execCodeSetClass_wide`. -/
theorem execCodeSetDetail_wide (hdetail : s.detail = .holds d) (h : 31 < d.toNat) :
    execCodeSetDetail s = .next (s.raiseError (commandOutputs .codeSetDetail) .vDetail 0) := by
  simp [execCodeSetDetail, hdetail, Nat.not_le.mpr h]

end Setters

/-- Settles O23: CODE_SET_CLASS recombines CLASS with the old detail, or raises V_CLASS. -/
theorem codeSetClassResult : Obligations.CodeSetClassResult := by
  unfold Obligations.CodeSetClassResult
  refine ⟨rfl, fun s k hcls => ⟨fun c hcode h => ?_, execCodeSetClass_wide hcls⟩⟩
  rw [exec_codeSetClass, execCodeSetClass_done hcls hcode h, codeJoin_eq_ofNat h (codeDetail_le c),
    codeDetail_toNat]
  rfl

/-- Settles O24: CODE_SET_DETAIL recombines DETAIL with the old class, or raises V_DETAIL. -/
theorem codeSetDetailResult : Obligations.CodeSetDetailResult := by
  unfold Obligations.CodeSetDetailResult
  refine ⟨rfl, fun s d hdetail => ⟨fun c hcode h => ?_, execCodeSetDetail_wide hdetail⟩⟩
  rw [exec_codeSetDetail, execCodeSetDetail_done hdetail hcode h, codeJoin_eq_ofNat (codeClass_le c) h,
    codeClass_toNat]
  rfl

/-- Settles O26: each setter reads only the field it keeps, which the other one's recombination gives back. -/
theorem codeSettersCommute : Obligations.CodeSettersCommute := by
  unfold Obligations.CodeSettersCommute
  intro s k d c hcls hdetail hcode hk hd
  have hclass : codeClass (codeJoin k (codeDetail c)) = k := codeClass_codeJoin hk (codeDetail_le c)
  have hdet : codeDetail (codeJoin (codeClass c) d) = d := codeDetail_codeJoin (codeClass_le c) hd
  refine ⟨_, _, { s with code := .holds (codeJoin k d), status := statusDone, errPos := 0 },
    execCodeSetClass_done hcls hcode hk, ?_, execCodeSetDetail_done hdetail hcode hd, ?_, rfl,
    ⟨_, rfl, codeDetail_codeJoin hk (codeDetail_le c)⟩, _, rfl, codeClass_codeJoin (codeClass_le c) hd⟩
  · exact Eq.trans (execCodeSetDetail_done hdetail rfl hd) (by rw [hclass])
  · exact Eq.trans (execCodeSetClass_done hcls rfl hk) (by rw [hdet])

end Sys2Proof.Machine
end

section
/-! The state after reset (70_reset_and_hazards.md R240), entry by entry of 10_state.md R23. -/

namespace Sys2Proof.Machine

open Sys2Proof

/-- STATUS and ERR_POS are the only entries with a reset value; IN_LEN and OUT_LEN follow IN and OUT (R25). -/
theorem State.entry_reset_unwritten {e : EntryName} (hstatus : e ≠ .status) (herrPos : e ≠ .errPos) :
    State.reset.entry e = .unwritten := by
  cases e
  case status => exact absurd rfl hstatus
  case errPos => exact absurd rfl herrPos
  all_goals rfl

/-- Settles O1: the two entries with a reset value are 0, the others are unwritten and no walk stands. -/
theorem resetState : Obligations.ResetState := by
  unfold Obligations.ResetState
  exact ⟨rfl, rfl, fun _ => State.entry_reset_unwritten, rfl⟩

end Sys2Proof.Machine
end

section
/-! The decoders and the encoder (30_encoding.md R71-R85) are inverse to each other. From units to rows this is one
fact for each position: its decoder loses no bit and answers rows of the opcode table only. From rows to units it is
one fact for each row that has fields. -/

namespace Sys2Proof.Machine

open Sys2Proof

/-! ### Decoding answers rows, and loses no bit -/

theorem wellFormed_decodeOpc (o : BitVec 8) : (decodeOpc o).wellFormed = true := by
  revert o; decide

theorem wellFormed_decodeCmd (w : Word) : (decodeCmd w).wellFormed = true := by
  by_cases h : w.extractLsb' 8 24 = 0
  · rw [decodeCmd_of_rsv_zero h, wellFormed_decodeOpc]
  · rw [decodeCmd_of_rsv_ne_zero h]
    exact bne_iff_ne.mpr h

theorem encode_decodeHdr0 (b : Byte) :
    (decodeHdr0 b).wellFormed = true ∧ encode (decodeHdr0 b) = .byte b := by
  revert b; decide

theorem encode_decodeHdrCode (b : Byte) : encode (decodeHdrCode b) = .byte b := by
  revert b; decide

theorem encode_decodeOptStart (b : Byte) :
    (decodeOptStart b).wellFormed = true ∧ encode (decodeOptStart b) = .byte b := by
  revert b; decide

theorem encode_decodeSeqStart (b : Byte) :
    (decodeSeqStart b).wellFormed = true ∧ encode (decodeSeqStart b) = .byte b := by
  by_cases h : b = 0xFF
  · subst h
    exact ⟨rfl, rfl⟩
  · rw [decodeSeqStart, if_neg h]
    exact encode_decodeOptStart b

theorem encode_decodeNibble (n : Nibble) :
    (decodeNibble n).wellFormed = true ∧ encode (decodeNibble n) = .nibble n := by
  revert n; decide

/-- Settles O5: at each position a unit of its width decodes by one decoder, which loses no bit; a unit of
another width does not decode. -/
theorem encodeDecode : Obligations.EncodeDecode := by
  unfold Obligations.EncodeDecode
  intro p u i h
  cases p <;> cases u <;> cases h
  case cmd.word.refl w => exact ⟨wellFormed_decodeCmd w, encode_decodeCmd w⟩
  case hdr0.byte.refl b => exact encode_decodeHdr0 b
  case hdrCode.byte.refl b => exact ⟨rfl, encode_decodeHdrCode b⟩
  case hdrMid.half.refl m => exact ⟨rfl, rfl⟩
  case seqStart.byte.refl b => exact encode_decodeSeqStart b
  case optStart.byte.refl b => exact encode_decodeOptStart b
  case nibble.nibble.refl n => exact encode_decodeNibble n

/-! ### Decoding the encoding of a row -/

/-- The word of RSV and OPC side by side decodes to the row whose RSV is not 0. -/
theorem decodeCmd_rsv {rsv : BitVec 24} (h : rsv ≠ 0) (opc : BitVec 8) :
    decodeCmd (rsv ++ opc) = .reservedRsv rsv opc := by
  have hhigh : (rsv ++ opc : Word).extractLsb' 8 24 = rsv := extract_high_append rsv opc
  have hlow : (rsv ++ opc : Word).extractLsb' 0 8 = opc := extract_low_append rsv opc
  rw [decodeCmd_of_rsv_ne_zero (hhigh.symm ▸ h), hhigh, hlow]

theorem decodeCmd_reservedOpc :
    (∀ o : BitVec 2, decodeCmd (3#30 ++ o) = .reservedOpc0C0F o) ∧
    (∀ o : BitVec 4, decodeCmd (1#28 ++ o) = .reservedOpc101F o) ∧
    (∀ o : BitVec 5, decodeCmd (1#27 ++ o) = .reservedOpc203F o) ∧
    (∀ o : BitVec 6, decodeCmd (1#26 ++ o) = .reservedOpc407F o) ∧
    (∀ o : BitVec 7, decodeCmd (1#25 ++ o) = .reservedOpc80FF o) := by
  decide

theorem decodeHdr0_encode :
    (∀ (v t : BitVec 2) (k : BitVec 4), k.toNat ≤ 8 → decodeHdr0 (v ++ t ++ k) = .wireHdrByte0 v t k) ∧
    (∀ v t : BitVec 2, decodeHdr0 (v ++ t ++ 9#4) = .wireHdrTklRsvd9 v t) ∧
    (∀ (v t : BitVec 2) (k : BitVec 1), decodeHdr0 (v ++ t ++ 5#3 ++ k) = .wireHdrTklRsvd1011 v t k) ∧
    ∀ v t k : BitVec 2, decodeHdr0 (v ++ t ++ 3#2 ++ k) = .wireHdrTklRsvd1215 v t k := by
  decide

theorem decodeHdrCode_encode : ∀ (c : BitVec 3) (d : BitVec 5), decodeHdrCode (c ++ d) = .wireHdrCode c d := by
  decide

/-- An option's first byte at an option start of MSG_DEC, but for 0xFF, which OPT_DEC alone reads (R123). -/
theorem decodeSeqStart_encode :
    (∀ l : Nibble, l ≠ 15 → decodeSeqStart (15#4 ++ l) = .wireOptDnib15 l) ∧
    (∀ d : Nibble, d ≠ 15 → decodeSeqStart (d ++ 15#4) = .wireOptLnib15 d) ∧
    ∀ d l : Nibble, d ≠ 15 → l ≠ 15 → decodeSeqStart (d ++ l) = .wireOpt d l := by
  decide

theorem decodeNibble_direct {n : Nibble} (h : n.toNat ≤ 12) : decodeNibble n = .nibbleDirect n := if_pos h

/-- Settles O4: row by row; a row whose unit has no free bit is one unit, and the decoder answers it. -/
theorem decodeEncode : Obligations.DecodeEncode := by
  unfold Obligations.DecodeEncode
  obtain ⟨h0C0F, h101F, h203F, h407F, h80FF⟩ := decodeCmd_reservedOpc
  obtain ⟨hbyte0, htkl9, htkl1011, htkl1215⟩ := decodeHdr0_encode
  obtain ⟨hdnib, hlnib, hopt⟩ := decodeSeqStart_encode
  intro i hwf
  cases i
  case reservedRsv rsv opc => exact congrArg Except.ok (decodeCmd_rsv (bne_iff_ne.mp hwf) opc)
  case reservedOpc0C0F o => exact congrArg Except.ok (h0C0F o)
  case reservedOpc101F o => exact congrArg Except.ok (h101F o)
  case reservedOpc203F o => exact congrArg Except.ok (h203F o)
  case reservedOpc407F o => exact congrArg Except.ok (h407F o)
  case reservedOpc80FF o => exact congrArg Except.ok (h80FF o)
  case wireHdrByte0 v t k => exact congrArg Except.ok (hbyte0 v t k (of_decide_eq_true hwf))
  case wireHdrTklRsvd9 v t => exact congrArg Except.ok (htkl9 v t)
  case wireHdrTklRsvd1011 v t k => exact congrArg Except.ok (htkl1011 v t k)
  case wireHdrTklRsvd1215 v t k => exact congrArg Except.ok (htkl1215 v t k)
  case wireHdrCode c d => exact congrArg Except.ok (decodeHdrCode_encode c d)
  case wireOptDnib15 l =>
    by_cases h : l = 15
    · subst h
      rfl
    · rw [Instr.position, if_neg h]
      exact congrArg Except.ok (hdnib l h)
  case wireOptLnib15 d => exact congrArg Except.ok (hlnib d (bne_iff_ne.mp hwf))
  case wireOpt d l =>
    obtain ⟨hd, hl⟩ := Bool.and_eq_true_iff.mp hwf
    exact congrArg Except.ok (hopt d l (bne_iff_ne.mp hd) (bne_iff_ne.mp hl))
  case nibbleDirect n => exact congrArg Except.ok (decodeNibble_direct (of_decide_eq_true hwf))
  all_goals rfl

/-- Settles O6: the decoders run on sixteen units. -/
theorem decodeWords : Obligations.DecodeWords := by
  unfold Obligations.DecodeWords
  decide

end Sys2Proof.Machine
end

section
/-! The message codec, from the descriptor to the wire and back (44_message.md R161-R170). A sorted list that
passes `opts_validate` encodes; a header in range is the four bytes of its fields, which `hdr_unpack` reads back;
and MSG_DEC reads a wire form back, so that it undoes MSG_ENC. -/

namespace Sys2Proof.Machine

open Sys2Proof

/-! ### A valid sorted list encodes -/

section Valid

variable {acc : Word} {i : Nat} {q : OptEntry} {l : List OptEntry}

/-- In a list in ascending order the only checks of `opt_enc` are those of `opts_validate` (R167). -/
theorem seqEncode_of_optsValidate (hasc : (q :: l).Pairwise numLe) (h : optsValidate q.num i l = .ok ()) :
    ∃ body, seqEncode q.num i l = .ok body := by
  induction l generalizing q i with
  | nil => exact ⟨[], rfl⟩
  | cons o os ih =>
    obtain ⟨hdelta, hval, htail⟩ := optsValidate_cons_ok.mp h
    obtain ⟨hhead, hasc⟩ := List.pairwise_cons.mp hasc
    obtain ⟨body, hbody⟩ := ih hasc htail
    exact ⟨_, seqEncode_cons_ok.mpr
      ⟨_, body, optEncode_ok.mpr ⟨hhead o List.mem_cons_self, hdelta, hval, rfl⟩, hbody, rfl⟩⟩

theorem seqEncode_sortOpts (h : optsValidate 0 0 (sortOpts l) = .ok ()) :
    ∃ body, seqEncode 0 0 (sortOpts l) = .ok body :=
  seqEncode_of_optsValidate (q := ⟨0, []⟩)
    (List.pairwise_cons.mpr ⟨fun o _ => Nat.zero_le o.num.toNat, sortOpts_pairwise l⟩) h

/-- What `opts_validate` asks of the whole list: each value length, and each delta between neighbours. -/
theorem optsValidate_ok_iff_isChain : optsValidate q.num i l = .ok () ↔
    (∀ o ∈ l, o.val.length ≤ 65804) ∧ List.IsChain (fun a b => b.num.toNat ≤ a.num.toNat + 65804) (q :: l) := by
  induction l generalizing q i with
  | nil => simp [optsValidate]
  | cons o os ih =>
    rw [optsValidate_cons_ok, ih, List.isChain_cons_cons, List.forall_mem_cons, Nat.sub_le_iff_le_add,
      Nat.add_comm 65804]
    tauto

end Valid

/-- Settles O29: the sorted list is in ascending order, from 0 on. -/
theorem seqEncodeNeverFails : Obligations.SeqEncodeNeverFails := by
  unfold Obligations.SeqEncodeNeverFails
  exact fun _ => seqEncode_sortOpts

/-! ### A header in range is the bytes of its fields -/

section Header

theorem hdrMid_extract (m : BitVec 16) : hdrMid (m.extractLsb' 8 8) (m.extractLsb' 0 8) = m := by
  apply BitVec.eq_of_toNat_eq
  rw [hdrMid_toNat, BitVec.extractLsb'_toNat, BitVec.extractLsb'_toNat, Nat.shiftRight_eq_div_pow]
  omega

theorem hdrByte0_of_fields (v t : BitVec 2) (k : BitVec 4) :
    (zext32 v <<< 6 ||| zext32 t <<< 4 ||| BitVec.ofNat 32 k.toNat).setWidth 8 = v ++ t ++ k := by
  revert v t k; decide

/-- The four header bytes, each by the fields it holds (30_encoding.md R75-R77). -/
theorem HdrFields.pack_eq (f : HdrFields) : f.pack =
    [f.ver ++ f.typ ++ f.tkl, f.code, f.mid.extractLsb' 8 8, f.mid.extractLsb' 0 8] := by
  have hcode : (zext32 f.code).setWidth 8 = f.code := by simp [zext32]
  have hmid := hdrMid_bytes (f.mid.extractLsb' 8 8) (f.mid.extractLsb' 0 8)
  rw [hdrMid_extract] at hmid
  rw [HdrFields.pack, hdrPack, hdrByte0_of_fields, hcode, hmid.1, hmid.2]

/-- `hdr_unpack` reads the fields back, whatever follows their bytes (R142). -/
theorem hdrUnpack_pack {f : HdrFields} (htkl : f.tkl.toNat ≤ 8) (rest : Bytes) :
    hdrUnpack (f.pack ++ rest) = .ok f := by
  rw [f.pack_eq]
  exact (hdrUnpack_fields htkl f.code _ _ rest).trans (by rw [hdrMid_extract])

/-- A register whose value fits a field holds that field, zero-extended. -/
theorem zext32_setWidth {n : Nat} {w : Word} (h : w.toNat < 2 ^ n) : zext32 (w.setWidth n) = w := by
  have hle : w.toNat % 2 ^ n = w.toNat := Nat.mod_eq_of_lt h
  apply BitVec.eq_of_toNat_eq
  rw [zext32, BitVec.toNat_setWidth, BitVec.toNat_setWidth, hle, Nat.mod_eq_of_lt w.isLt]

/-- A header that passes `hdr_validate` is that of some fields (R141). -/
theorem exists_hdrFields {ver typ code mid : Word} {tkl : Nat}
    (h : hdrValidate ver typ code mid tkl = .ok ()) :
    ∃ f : HdrFields, ver = zext32 f.ver ∧ typ = zext32 f.typ ∧ tkl = f.tkl.toNat ∧ code = zext32 f.code ∧
      mid = zext32 f.mid ∧ f.tkl.toNat ≤ 8 := by
  obtain ⟨hver, htyp, hcode, hmid, htkl⟩ := hdrValidate_ok.mp h
  have hk : (BitVec.ofNat 4 tkl).toNat = tkl := by
    rw [BitVec.toNat_ofNat]
    omega
  exact ⟨⟨ver.setWidth 2, typ.setWidth 2, BitVec.ofNat 4 tkl, code.setWidth 8, mid.setWidth 16⟩,
    (zext32_setWidth (Nat.lt_succ_of_le hver)).symm, (zext32_setWidth (Nat.lt_succ_of_le htyp)).symm, hk.symm,
    (zext32_setWidth (Nat.lt_succ_of_le hcode)).symm, (zext32_setWidth (Nat.lt_succ_of_le hmid)).symm,
    hk.trans_le htkl⟩

end Header

/-- Settles O21: the fields in the registers are those of the bytes in OUT. -/
theorem hdrRoundTrip : Obligations.HdrRoundTrip := by
  unfold Obligations.HdrRoundTrip
  intro s t token htoken henc hdone
  obtain ⟨u, hu, rfl⟩ := finish_done henc hdone
  simp only [Calc.bind_eq_ok, Entry.get_eq_ok, htoken, Entry.holds.injEq] at hu
  obtain ⟨_, rfl, ver, hver, typ, htyp, code, hcode, mid, hmid, ⟨⟩, hvalid, hu⟩ := hu
  obtain ⟨f, rfl, rfl, htkl, rfl, rfl, hle⟩ := exists_hdrFields hvalid
  cases hu
  rw [exec_hdrDec, execHdrDec_eq (inp := f.pack ++ []) (by simp [HdrFields.pack, htkl]),
    hdrUnpack_pack hle, Calc.ok_bind, finish_ok, htkl]
  simp [State.putHdrDec, State.putHeader, State.succeed, hver, htyp, hcode, hmid, zext32_eq_ofNat]

/-! ### MSG_ENC -/

section Encode

variable {s : State} {ver typ code mid : Word} {token payload body : Bytes} {opts : List OptEntry}

/-- The header of MSG_ENC is read and checked before OPTS is read (R166). -/
theorem execMsgEnc_eq (hver : s.ver = .holds ver) (htyp : s.typ = .holds typ)
    (hcode : s.code = .holds code) (hmid : s.mid = .holds mid) (htoken : s.token = .holds token) :
    execMsgEnc s = finish (commandOutputs .msgEnc) s (do
      hdrValidate ver typ code mid token.length
      let opts ← s.opts.get .opts
      optsValidate 0 0 (sortOpts opts)
      let body ← seqEncode 0 0 (sortOpts opts)
      let payload ← s.payload.get .payload
      need (fitsBuf s.cap
        (wireForm (hdrPack ver typ token.length code mid) token body payload).length) .cOut 0
      .ok { s with out := .holds (wireForm (hdrPack ver typ token.length code mid) token body payload) }) := by
  rw [execMsgEnc, Entry.get_eq_ok.mpr hver, Entry.get_eq_ok.mpr htyp, Entry.get_eq_ok.mpr hcode,
    Entry.get_eq_ok.mpr hmid, Entry.get_eq_ok.mpr htoken]
  rfl

theorem payloadTail_eq (payload : Bytes) : payloadTail payload = if payload = [] then [] else 0xFF :: payload := by
  cases payload <;> rfl

theorem wireForm_length (ver typ code mid : Word) (tkl : Nat) (token body payload : Bytes) :
    (wireForm (hdrPack ver typ tkl code mid) token body payload).length =
      4 + token.length + body.length + if payload = [] then 0 else payload.length + 1 := by
  rw [wireForm, payloadTail_eq]
  simp only [List.length_append]
  split <;> rfl

/-- A descriptor MSG_ENC accepts is in range, and OUT is its wire form with the options sorted. -/
theorem wireForm_of_execMsgEnc {t : State} (hopts : s.opts = .holds opts) (h : execMsgEnc s = .next t)
    (hdone : t.status = statusDone) :
    ∃ (f : HdrFields) (token body payload : Bytes), s.ver = .holds (zext32 f.ver) ∧
      s.typ = .holds (zext32 f.typ) ∧ s.code = .holds (zext32 f.code) ∧ s.mid = .holds (zext32 f.mid) ∧
      s.token = .holds token ∧ s.payload = .holds payload ∧ f.tkl.toNat ≤ 8 ∧
      token.length = f.tkl.toNat ∧ seqEncode 0 0 (sortOpts opts) = .ok body ∧
      t = { s with out := .holds (wireForm f.pack token body payload), status := statusDone, errPos := 0 } := by
  obtain ⟨u, hu, rfl⟩ := finish_done h hdone
  simp only [Calc.bind_eq_ok, Entry.get_eq_ok, hopts, Entry.holds.injEq] at hu
  obtain ⟨token, htoken, ver, hver, typ, htyp, code, hcode, mid, hmid, ⟨⟩, hvalid, _, rfl, -, -, body, hbody,
    payload, hpay, -, -, hu⟩ := hu
  obtain ⟨f, rfl, rfl, htkl, rfl, rfl, hk⟩ := exists_hdrFields hvalid
  cases hu
  refine ⟨f, token, body, payload, hver, htyp, hcode, hmid, htoken, hpay, hk, htkl, hbody, ?_⟩
  rw [HdrFields.pack, ← htkl, hopts]
  rfl

end Encode

/-- Settles O32: each error is the first check that fails, and MSG_ENC's one output is OUT. -/
theorem msgEncErrors : Obligations.MsgEncErrors := by
  unfold Obligations.MsgEncErrors
  intro s ver typ code mid token hver htyp hcode hmid htoken
  rw [exec_msgEnc, execMsgEnc_eq hver htyp hcode hmid htoken, hdrValidate_eq]
  refine ⟨fun h => ?_, fun hv h => ?_, fun hv ht h => ?_, fun hv ht hc h => ?_, fun hv ht hc hm h => ?_, ?_⟩
  · rw [if_pos h]
    rfl
  · rw [if_neg hv.not_gt, if_pos h]
    rfl
  · rw [if_neg hv.not_gt, if_neg ht.not_gt, if_pos h]
    rfl
  · rw [if_neg hv.not_gt, if_neg ht.not_gt, if_neg hc.not_gt, if_pos h]
    rfl
  · rw [if_neg hv.not_gt, if_neg ht.not_gt, if_neg hc.not_gt, if_neg hm.not_gt, if_pos h]
    rfl
  · intro opts c i hv ht hc hm hk hopts h
    rw [if_neg hv.not_gt, if_neg ht.not_gt, if_neg hc.not_gt, if_neg hm.not_gt, if_neg hk.not_gt,
      Entry.get_eq_ok.mpr hopts, Calc.ok_bind, Calc.ok_bind, h]
    rfl

/-- Settles O30: every check passes but, it may be, the last, which is OUT's capacity. -/
theorem msgEncResult : Obligations.MsgEncResult := by
  unfold Obligations.MsgEncResult
  intro s ver typ code mid token payload body opts hver htyp hcode hmid htoken hopts hpay hv ht hc hm hk
    hvalidOpts hbody tail bytes
  have hvalid : hdrValidate ver typ code mid token.length = .ok () := hdrValidate_ok.mpr ⟨hv, ht, hc, hm, hk⟩
  have hbytes : wireForm (hdrPack ver typ token.length code mid) token body payload = bytes := by
    rw [wireForm, payloadTail_eq, hdrPack_eq hv ht hk]
  rw [exec_msgEnc, execMsgEnc_eq hver htyp hcode hmid htoken]
  simp only [hvalid, Entry.get_eq_ok.mpr hopts, hvalidOpts, hbody, Entry.get_eq_ok.mpr hpay, Calc.ok_bind,
    need_bind, hbytes]
  split <;> rfl

/-- Settles O31: MSG_ENC succeeds exactly when all its checks pass, which are R170's conditions. -/
theorem msgEncSucceedsExactly : Obligations.MsgEncSucceedsExactly := by
  unfold Obligations.MsgEncSucceedsExactly
  intro s ver typ code mid token payload opts hver htyp hcode hmid htoken hopts hpay
  have hmem : (∀ o ∈ opts, o.val.length ≤ 65804) ↔ ∀ o ∈ sortOpts opts, o.val.length ≤ 65804 :=
    by simp only [(sortOpts_perm opts).mem_iff]
  rw [hmem, ← optsValidate_ok_iff_isChain (q := ⟨0, []⟩) (i := 0)]
  constructor
  · rintro ⟨t, henc, hdone⟩
    rw [exec_msgEnc, execMsgEnc_eq hver htyp hcode hmid htoken] at henc
    obtain ⟨u, hu, -⟩ := finish_done henc hdone
    simp only [Calc.bind_eq_ok, Entry.get_eq_ok, hopts, hpay, Entry.holds.injEq, need_eq_ok] at hu
    obtain ⟨⟨⟩, hvalid, _, rfl, ⟨⟩, hvalidOpts, body, hbody, _, rfl, -, hfit, -⟩ := hu
    obtain ⟨hv, ht, hc, hm, hk⟩ := hdrValidate_ok.mp hvalid
    refine ⟨⟨hv, ht, hc, hm⟩, hk, hvalidOpts, fun body' hbody' => ?_⟩
    cases hbody.symm.trans hbody'
    rwa [← wireForm_length ver typ code mid token.length]
  · rintro ⟨⟨hv, ht, hc, hm⟩, hk, hvalidOpts, hfit⟩
    obtain ⟨body, hbody⟩ := seqEncode_sortOpts hvalidOpts
    have hlen := hfit body hbody
    rw [← wireForm_length ver typ code mid token.length] at hlen
    exact ⟨_, execMsgEnc_done hver htyp hcode hmid htoken hopts hpay
      (hdrValidate_ok.mpr ⟨hv, ht, hc, hm, hk⟩) hvalidOpts hbody hlen, rfl⟩

/-! ### MSG_DEC -/

section Decode

variable {cap : Config.Capacity} {acc : Word} {i : Nat} {opts l : List OptEntry} {body : Bytes}

/-- `seq_dec` reads an encoded list and the payload after it (R162, R165). -/
theorem seqDecode_payload (h : seqEncode acc i l = .ok body) (pre payload : Bytes)
    (hfit : fitsOpts cap (opts.length + l.length) = true) :
    seqDecode cap (pre ++ body ++ payloadTail payload) (body.length + (payloadTail payload).length) pre.length
      acc opts = .ok (opts ++ l, payload) := by
  have hle : l.length ≤ body.length := length_le_of_seqEncode h
  cases payload with
  | nil =>
    have hfuel : body.length + (payloadTail []).length = body.length - l.length + l.length :=
      (Nat.sub_add_cancel hle).symm
    have htail : payloadTail [] = [] := rfl
    rw [hfuel, seqDecode_seqEncode h pre _ hfit, htail, List.append_nil, seqDecode_end]
  | cons b bs =>
    have htail : payloadTail (b :: bs) = 0xFF :: b :: bs := rfl
    have hrest : (pre ++ body ++ 0xFF :: b :: bs).drop ((pre ++ body).length + 1) = b :: bs := by
      rw [← List.drop_drop, List.drop_left, List.drop_one, List.tail_cons]
    have hfuel : body.length + (0xFF :: b :: bs : Bytes).length =
        body.length - l.length + (b :: bs).length + 1 + l.length := by
      simp only [List.length_cons]
      omega
    have hmark : byteAt (pre ++ body ++ 0xFF :: b :: bs) (pre ++ body).length = 0xFF :=
      byteAt_middle _ _ _ _ rfl
    rw [htail, hfuel, seqDecode_seqEncode h pre _ hfit, seqDecode_marker (by simp) hmark,
      payloadAfter_eq_drop (by simp; omega), Calc.ok_bind, hrest]

variable {s : State} {f : HdrFields} {token payload : Bytes}

/-- MSG_DEC reads a wire form back: its fields, its token, its options and its payload (R168). -/
theorem execMsgDec_wireForm (hk : f.tkl.toNat ≤ 8) (htkl : token.length = f.tkl.toNat)
    (hbody : seqEncode 0 0 opts = .ok body) (hfit : fitsOpts s.cap opts.length = true)
    (hin : s.input = .holds (wireForm f.pack token body payload)) :
    execMsgDec s = .next (s.putMessage f token opts payload).succeed := by
  have hprelen : (f.pack ++ token).length = 4 + f.tkl.toNat := by
    rw [List.length_append, htkl]
    rfl
  have htoken : tokenAt4 (wireForm f.pack token body payload) f.tkl.toNat = .ok token := by
    refine tokenAt4_ok.mpr ⟨?_, ?_⟩
    · rw [wireForm, List.length_append, List.length_append, hprelen]
      omega
    · rw [wireForm, List.append_assoc, memRead_middle f.pack token _ _ 4 rfl htkl.symm]
  have hhdr : hdrUnpack (wireForm f.pack token body payload) = .ok f := by
    simpa only [wireForm, List.append_assoc] using hdrUnpack_pack hk (token ++ (body ++ payloadTail payload))
  have hleft : (wireForm f.pack token body payload).length - (4 + f.tkl.toNat) =
      body.length + (payloadTail payload).length := by
    rw [wireForm, List.length_append, List.length_append, hprelen]
    omega
  rw [execMsgDec_eq hin hhdr htoken, hleft, ← hprelen, wireForm,
    seqDecode_payload hbody _ payload (by simpa using hfit), Calc.ok_bind, finish_ok]
  rfl

end Decode

/-- Settles O33: IN is the wire form of the fields, the token, the options and the payload. -/
theorem msgDecResult : Obligations.MsgDecResult := by
  unfold Obligations.MsgDecResult
  intro s v t k c m token body payload opts htkl hk hbody hfit hin
  refine execMsgDec_wireForm (f := ⟨v, t, k, c, m⟩) hk htkl hbody hfit ?_
  rw [hin, wireForm, payloadTail_eq, HdrFields.pack_eq]

/-- Settles O38: the header's two checks, then the token's; an error unwrites the whole descriptor. -/
theorem msgDecHeaderErrors : Obligations.MsgDecHeaderErrors := by
  unfold Obligations.MsgDecHeaderErrors
  intro s inp hin
  rw [exec_msgDec, execMsgDec, Entry.get_eq_ok.mpr hin, Calc.ok_bind]
  refine ⟨fun h => ?_, fun hlen b hb => ?_⟩
  · rw [hdrUnpack_short h]
    exact congrArg _ (raiseError_msgDec s .tHeader 0)
  have hbyte : byteAt inp 0 = b := by simp [byteAt, hb]
  refine ⟨fun hk => ?_, fun hk hshort => ?_⟩
  · rw [hdrUnpack_tkl hlen (hbyte.symm ▸ hk)]
    exact congrArg _ (raiseError_msgDec s .fTkl 0)
  · rw [← hdrTkl_toNat b] at hk hshort
    rw [hdrUnpack_ok.mpr ⟨hlen, hbyte.symm ▸ hk, rfl⟩, hbyte, Calc.ok_bind, tokenAt4,
      need_of_not hshort.not_ge]
    exact congrArg _ (raiseError_msgDec s .tToken 4)

/-- Settles O34: OUT is the wire form of the descriptor with its options sorted, and MSG_DEC reads that back. -/
theorem encodeThenDecode : Obligations.EncodeThenDecode := by
  unfold Obligations.EncodeThenDecode
  intro s t opts hwf hopts henc hdone
  obtain ⟨f, token, body, payload, hver, htyp, hcode, hmid, htoken, hpay, hk, htkl, hbody, ht⟩ :=
    wireForm_of_execMsgEnc hopts henc hdone
  obtain ⟨⟨-, -, -, -, hfits⟩, -⟩ := Memory.wf_iff.mp hwf
  rw [hopts] at hfits
  have hout : t.out = .holds (wireForm f.pack token body payload) := by rw [ht]
  have hfit : fitsOpts t.cap (sortOpts opts).length = true := by
    rw [(sortOpts_perm opts).length_eq, ht]
    exact (Bool.and_eq_true_iff.mp hfits).1
  rw [exec_msgDec, execMsgDec_wireForm (s := { t with input := t.out }) hk htkl hbody hfit hout, ht]
  simp [State.putMessage, State.putHeader, State.succeed, hver, htyp, hcode, hmid, htoken, hpay]

end Sys2Proof.Machine
end

section
/-! What an error and a success write (60_exceptions.md R201-R204), entry by entry of 10_state.md R23. Spoiling a
command's outputs changes these entries only, so two states that differ in them only are equal once both are
spoiled: that equation is the frame of a command. -/

namespace Sys2Proof.Machine

open Sys2Proof

/-! ### STATUS -/

/-- The causes of R202, in its order. -/
def Cause.all : List Cause :=
  [.vVersion, .vType, .vCode, .vMid, .vTkl, .vVlen, .vDelta, .vDeltaNeg, .vRaw, .vNibble, .vClass, .vDetail,
    .fDnib15, .fLnib15, .fEmptyPayload, .fTkl, .fNumOvf, .fNib15,
    .tHeader, .tToken, .tOptHdr, .tDext, .tLext, .tValue, .tExt, .cOut, .cOpts, .xRsvdBits, .xOpcode]

theorem Cause.mem_all (c : Cause) : c ∈ Cause.all := by
  cases c <;> decide

theorem Cause.status_injective : Function.Injective Cause.status := fun c d =>
  List.inj_on_of_nodup_map (by decide : (Cause.all.map Cause.status).Nodup) c.mem_all d.mem_all

theorem Cause.status_fields : ∀ c ∈ Cause.all,
    statusKind c.status = c.kind.code.setWidth 3 ∧ statusCause c.status = c.code.setWidth 4 ∧
      statusValid c.status = false ∧ c.status.toNat / 512 = 0 ∧ c.status.getLsbD 3 = false := by
  decide

/-- CAUSE stands above KIND, so the OR of the two is a sum (R204). -/
theorem Cause.status_eq_ofNat : ∀ c ∈ Cause.all,
    c.status = BitVec.ofNat 32 (c.code.toNat * 16 + c.kind.code.toNat) := by
  decide

/-- Settles O39: of the 29 causes one by one; their values have no duplicate. -/
theorem statusFields : Obligations.StatusFields := by
  unfold Obligations.StatusFields
  exact ⟨fun c => Cause.status_fields c c.mem_all, Cause.status_injective,
    rfl, rfl, rfl, rfl, rfl, rfl, rfl, rfl⟩

/-! ### Entries -/

section Entries

variable {s t : State} {e x : EntryName} {outs : List EntryName}

theorem Entry.toHost_inj {α : Type} {f : α → HostValue} (hf : Function.Injective f) {a b : Entry α}
    (h : a.toHost f = b.toHost f) : a = b := by
  match a, b, h with
  | .unwritten, .unwritten, _ => rfl
  | .holds _, .holds _, h => exact congrArg Entry.holds (hf (Entry.holds.inj h))

theorem HostValue.word_injective : Function.Injective HostValue.word := fun _ _ => HostValue.word.inj
theorem HostValue.bytes_injective : Function.Injective HostValue.bytes := fun _ _ => HostValue.bytes.inj
theorem HostValue.options_injective : Function.Injective HostValue.options := fun _ _ => HostValue.options.inj

/-- An entry reads as unwritten exactly where it is. -/
theorem Entry.toHost_eq_unwritten {α : Type} {f : α → HostValue} {a : Entry α} :
    a.toHost f = .unwritten ↔ a = .unwritten := by
  cases a <;> simp [Entry.toHost]

/-- STATUS and ERR_POS are entries of their own. -/
theorem State.entry_withStatus (hstatus : e ≠ .status) (herrPos : e ≠ .errPos) (w : Word) (pos : Nat) :
    State.entry { s with status := w, errPos := pos } e = s.entry e := by
  cases e
  case status => exact absurd rfl hstatus
  case errPos => exact absurd rfl herrPos
  all_goals rfl

theorem State.entry_succeed (hstatus : e ≠ .status) (herrPos : e ≠ .errPos) : s.succeed.entry e = s.entry e :=
  State.entry_withStatus hstatus herrPos statusDone 0

/-- The entries of R23 and what stands beside them are the whole state. -/
theorem State.eq_of_entries (h : ∀ e, s.entry e = t.entry e) (hcmd : s.cmd = t.cmd) (hscan : s.scan = t.scan)
    (hcap : s.cap = t.cap) (hhost : s.host = t.host) (hreads : s.reads = t.reads) : s = t := by
  have word {a b : Entry Word} : a.toHost .word = b.toHost .word → a = b :=
    Entry.toHost_inj HostValue.word_injective
  have bytes {a b : Entry Bytes} : a.toHost .bytes = b.toHost .bytes → a = b :=
    Entry.toHost_inj HostValue.bytes_injective
  have hstatus : s.status = t.status := HostValue.word.inj (Entry.holds.inj (h .status))
  have herrPos : s.errPos = t.errPos := HostValue.nat.inj (Entry.holds.inj (h .errPos))
  cases s
  cases t
  exact (State.mk.injEq ..).mpr ⟨hstatus, herrPos, bytes (h .input), bytes (h .out), word (h .arg),
    word (h .num), word (h .prev), word (h .res), word (h .consumed), word (h .cls), word (h .detail),
    word (h .ver), word (h .typ), word (h .code), word (h .mid), bytes (h .token),
    Entry.toHost_inj HostValue.options_injective (h .opts), bytes (h .payload), hcmd, hscan, hcap, hhost, hreads⟩

/-! ### Spoiling -/

/-- The entries that are an output of some command (30_encoding.md R89). -/
def outputEntries : List EntryName :=
  [.out, .num, .res, .consumed, .cls, .detail, .ver, .typ, .code, .mid, .token, .opts, .payload]

theorem commandOutputs_subset (i : Instr) : commandOutputs i ⊆ outputEntries := by
  cases i <;> simp [commandOutputs, outputEntries]

/-- What an output holds after its command failed (60_exceptions.md R204). -/
def spoiledValue : EntryName → Entry HostValue
  | .out => .holds (.bytes [])
  | _ => .unwritten

theorem State.entry_spoil_self (h : e ∈ outputEntries) : (s.spoil e).entry e = spoiledValue e := by
  unfold outputEntries at h
  fin_cases h <;> rfl

/-- Spoiling an entry changes it alone, but that OUT_LEN follows OUT (10_state.md R23). -/
theorem State.entry_spoil_of_ne (h : x ≠ e) (hlen : x = .outLen → e ≠ .out) :
    (s.spoil e).entry x = s.entry x := by
  cases e <;> cases x
  any_goals rfl
  case out.outLen => exact absurd rfl (hlen rfl)
  all_goals exact absurd rfl h

theorem State.entry_foldl_spoil_of_notMem (h : x ∉ outs) (hlen : x = .outLen → .out ∉ outs) :
    (outs.foldl State.spoil s).entry x = s.entry x := by
  induction outs generalizing s with
  | nil => rfl
  | cons e es ih =>
    simp only [List.mem_cons, not_or] at h hlen
    rw [List.foldl_cons, ih h.2 fun hx => (hlen hx).2,
      State.entry_spoil_of_ne h.1 fun hx => Ne.symm (hlen hx).1]

theorem State.entry_foldl_spoil_of_mem (hsub : outs ⊆ outputEntries) (h : x ∈ outs) :
    (outs.foldl State.spoil s).entry x = spoiledValue x := by
  induction outs generalizing s with
  | nil => cases h
  | cons e es ih =>
    obtain ⟨hout, hsub⟩ := List.cons_subset.mp hsub
    by_cases hes : x ∈ es
    · exact ih hsub hes
    · obtain rfl : x = e := (List.mem_cons.mp h).resolve_right hes
      have hlen : x ≠ .outLen := by
        rintro rfl
        exact absurd hout (by decide)
      rw [List.foldl_cons, State.entry_foldl_spoil_of_notMem hes fun hx => absurd hx hlen,
        State.entry_spoil_self hout]

end Entries

/-! ### The two ways a command ends -/

section Ends

variable {s t u : State} {e : EntryName} {outs : List EntryName}

/-- The states differ in the entries `outs` at most: spoiled, they are equal. -/
def SameBut (outs : List EntryName) (s t : State) : Prop := outs.foldl State.spoil t = outs.foldl State.spoil s

/-- What no spoiling changes is the same in both. -/
theorem SameBut.field {α : Type} (h : SameBut outs s u) (f : State → α)
    (hf : ∀ s e, f (State.spoil s e) = f s) : f u = f s := by
  rw [← State.foldl_spoil_field u outs f hf, h, State.foldl_spoil_field s outs f hf]

/-- STATUS and ERR_POS are not among a command's own outputs (30_encoding.md R89). -/
theorem output_ne_status {i : Instr} (h : e ∈ commandOutputs i) : e ≠ .status ∧ e ≠ .errPos := by
  have hout : e ∈ outputEntries := commandOutputs_subset i h
  constructor <;> rintro rfl <;> exact absurd hout (by decide)

theorem State.entry_raiseError_of_mem {i : Instr} (h : e ∈ commandOutputs i) (c : Cause) (pos : Nat) :
    (s.raiseError (commandOutputs i) c pos).entry e = spoiledValue e := by
  obtain ⟨hstatus, herrPos⟩ := output_ne_status h
  rw [State.raiseError, State.entry_withStatus hstatus herrPos,
    State.entry_foldl_spoil_of_mem (commandOutputs_subset i) h]

/-- What a command that raises an error or completes leaves as it was: all but its outputs, STATUS and ERR_POS. -/
structure Frame (outs : List EntryName) (s t : State) : Prop where
  entry : ∀ e, e ∉ outs → e ≠ .status → e ≠ .errPos → (e = .outLen → .out ∉ outs) → t.entry e = s.entry e
  cmd : t.cmd = s.cmd
  scan : t.scan = s.scan
  cap : t.cap = s.cap
  host : t.host = s.host
  reads : t.reads = s.reads

theorem Frame.raiseError (outs : List EntryName) (s : State) (c : Cause) (pos : Nat) :
    Frame outs s (s.raiseError outs c pos) where
  entry e hout hstatus herrPos hlen := by
    rw [State.raiseError, State.entry_withStatus hstatus herrPos, State.entry_foldl_spoil_of_notMem hout hlen]
  cmd := State.raiseError_cmd ..
  scan := State.raiseError_scan ..
  cap := State.raiseError_cap ..
  host := State.raiseError_host ..
  reads := State.raiseError_reads ..

theorem Frame.succeed (h : SameBut outs s u) : Frame outs s u.succeed where
  entry e hout hstatus herrPos hlen := by
    rw [State.entry_succeed hstatus herrPos, ← State.entry_foldl_spoil_of_notMem hout hlen, h,
      State.entry_foldl_spoil_of_notMem hout hlen]
  cmd := h.field State.cmd fun _ e => by cases e <;> rfl
  scan := h.field State.scan fun _ e => by cases e <;> rfl
  cap := h.field State.cap fun _ e => by cases e <;> rfl
  host := h.field State.host fun _ e => by cases e <;> rfl
  reads := h.field State.reads fun _ e => by cases e <;> rfl

end Ends

/-- Settles O41: the outputs are spoiled, and the rest is the frame of an error. -/
theorem errorWrites : Obligations.ErrorWrites := by
  unfold Obligations.ErrorWrites
  intro i s c pos t
  have hframe : Frame (commandOutputs i) s t := .raiseError _ s c pos
  refine ⟨c.status_eq_ofNat c.mem_all, rfl, fun hout => ?_, fun e he hne => ?_, hframe.entry, hframe.cmd,
    hframe.scan, hframe.cap, hframe.host, hframe.reads⟩
  · exact Entry.toHost_inj HostValue.bytes_injective (State.entry_raiseError_of_mem hout c pos)
  · rw [State.entry_raiseError_of_mem he]
    cases e
    case out => exact absurd rfl hne
    all_goals rfl

end Sys2Proof.Machine
end

section
/-! What a computation inside a command can do: it completes, it raises an error at a position its cause may record
(60_exceptions.md R202), or it faults on an unwritten entry it reads (10_state.md R25). One rule for each way the
pseudocode is built, then one lemma for each function and each command. -/

namespace Sys2Proof.Machine

open Sys2Proof

/-- The computation `r`, run in the state `s`, completes only with what `P` says, raises an error only at a position
the cause may record, and faults only on an unwritten entry of `es`. The position of an element's error rests on
the walk's own invariant. -/
structure Meets {α : Type} (s : State) (es : List EntryName) (P : α → Prop) (r : Calc α) : Prop where
  done : ∀ a, r = .ok a → P a
  legal : ∀ c pos, r = .error (.err c pos) → s.scanLegal → c.posLegal pos
  fault : ∀ f, r = .error (.fault f) → ∃ e ∈ es, f = .unwrittenInput e ∧ s.entry e = .unwritten

/-- The same of a computation about whose answer nothing is said. -/
abbrev Stops {α : Type} (s : State) (es : List EntryName) (r : Calc α) : Prop := Meets s es (fun _ => True) r

/-! ### The rules -/

section Rules

variable {α β : Type} {s : State} {es : List EntryName} {P : α → Prop} {Q : β → Prop}

theorem Meets.ok {a : α} (h : P a) : Meets s es P (.ok a) where
  done _ ha := Except.ok.inj ha ▸ h
  legal _ _ h := nomatch h
  fault _ h := nomatch h

theorem Meets.err {c : Cause} {pos : Nat} (h : s.scanLegal → c.posLegal pos) :
    Meets s es P (.error (.err c pos)) where
  done _ h := nomatch h
  legal _ _ he := by
    cases he
    exact h
  fault _ h := nomatch h

/-- The fault of an unwritten entry. -/
theorem Meets.unwritten {e : EntryName} (he : e ∈ es) (h : s.entry e = .unwritten) :
    Meets s es P (.error (.fault (.unwrittenInput e))) where
  done _ hok := nomatch hok
  legal _ _ herr := nomatch herr
  fault _ hf := by
    cases hf
    exact ⟨e, he, rfl, h⟩

theorem Meets.stops {a : Calc α} (h : Meets s es P a) : Stops s es a := ⟨fun _ _ => trivial, h.legal, h.fault⟩

theorem Meets.bind {x : Calc β} {f : β → Calc α} (hx : Meets s es Q x)
    (hf : ∀ b, x = .ok b → Q b → Meets s es P (f b)) : Meets s es P (x >>= f) where
  done a h := by
    obtain ⟨b, hb, hfb⟩ := Calc.bind_eq_ok.mp h
    exact (hf b hb (hx.done b hb)).done a hfb
  legal c pos h := by
    rcases Calc.bind_eq_error.mp h with he | ⟨b, hb, hfb⟩
    · exact hx.legal c pos he
    · exact (hf b hb (hx.done b hb)).legal c pos hfb
  fault g h := by
    rcases Calc.bind_eq_error.mp h with he | ⟨b, hb, hfb⟩
    · exact hx.fault g he
    · exact (hf b hb (hx.done b hb)).fault g hfb

/-- A check, whose position is legal where it fails. -/
theorem Meets.check {p : Prop} [Decidable p] {c : Cause} {pos : Nat}
    (h : s.scanLegal → ¬ p → c.posLegal pos) : Meets s es (fun _ => p) (need p c pos) where
  done _ hok := need_eq_ok.mp hok
  legal c' pos' he hscan := by
    obtain ⟨hp, he⟩ := need_eq_error.mp he
    cases he
    exact h hscan hp
  fault f hf := nomatch (need_eq_error.mp hf).2

/-- A check of a cause that records one position. -/
theorem Meets.checkAt {p : Prop} [Decidable p] {c : Cause} {pos : Nat} (h : c.fixedPos = some pos) :
    Meets s es (fun _ => p) (need p c pos) :=
  .check fun _ _ => Cause.posLegal_of_some h

/-- A check of a cause that records any position. -/
theorem Meets.checkAny {p : Prop} [Decidable p] {c : Cause} (h : c.fixedPos = none) (pos : Nat) :
    Meets s es (fun _ => p) (need p c pos) :=
  .check fun _ _ => Cause.posLegal_of_none h pos

/-- The read of an entry. -/
theorem Meets.get {e : EntryName} {x : Entry α} {g : α → HostValue} (he : e ∈ es)
    (hx : s.entry e = x.toHost g) : Meets s es (fun v => x = .holds v) (x.get e) where
  done _ h := Entry.get_eq_ok.mp h
  legal _ _ h := nomatch (Entry.get_eq_error.mp h).2
  fault f h := by
    obtain ⟨hun, hf⟩ := Entry.get_eq_error.mp h
    exact ⟨e, he, by simpa using hf, hx.trans (Entry.toHost_eq_unwritten.mpr hun)⟩

end Rules

/-! ### The functions of the codec -/

section Functions

variable {s : State} {es : List EntryName}

theorem hdrValidate_stops (ver typ code mid : Word) (tkl : Nat) :
    Stops s es (hdrValidate ver typ code mid tkl) :=
  .bind (.checkAt rfl) fun _ _ _ => .bind (.checkAt rfl) fun _ _ _ => .bind (.checkAt rfl) fun _ _ _ =>
    .bind (.checkAt rfl) fun _ _ _ => (Meets.checkAt rfl).stops

theorem hdrUnpack_stops (inp : Bytes) : Stops s es (hdrUnpack inp) :=
  .bind (.checkAt rfl) fun _ _ _ => .bind (.checkAt rfl) fun _ _ _ => .ok trivial

theorem tokenAt4_stops (inp : Bytes) (tkl : Nat) : Stops s es (tokenAt4 inp tkl) :=
  .bind (.checkAt rfl) fun _ _ _ => .ok trivial

theorem payloadAfter_stops (inp : Bytes) (p : Nat) : Stops s es (payloadAfter inp p) :=
  .bind (.checkAny rfl _) fun _ _ _ => .ok trivial

theorem pushOpt_stops (cap : Config.Capacity) (p : Nat) (opts : List OptEntry) (num : Word) (val : Bytes) :
    Stops s es (pushOpt cap p opts num val) :=
  .bind (.checkAny rfl _) fun _ _ _ => .ok trivial

/-- `opt_enc` at index 0: V_DELTA_NEG records no other (R202). -/
theorem optEncode_stops (num prev : Word) (val : Bytes) : Stops s es (optEncode num prev val 0) :=
  .bind (.checkAt rfl) fun _ _ _ => .bind (.checkAny rfl _) fun _ _ _ => .bind (.checkAny rfl _) fun _ _ _ =>
    .ok trivial

theorem optFields_stops (inp : Bytes) (p : Nat) (prev : Word) (dn ln : Nibble) :
    Stops s es (optFields inp p prev dn ln) :=
  .bind (.checkAny rfl _) fun _ _ _ => .bind (.checkAny rfl _) fun _ _ _ => .bind (.checkAny rfl _) fun _ _ _ =>
    .bind (.checkAny rfl _) fun _ _ _ => .bind (.checkAny rfl _) fun _ _ _ => .bind (.checkAny rfl _) fun _ _ _ =>
      .ok trivial

/-- T_OPTHDR records 0 only, which is where OPT_DEC reads; MSG_DEC's option starts stand before the end of IN. -/
theorem optDecodeAt_stops {inp : Bytes} {p : Nat} (h : s.scanLegal → p < inp.length ∨ p = 0) (prev : Word) :
    Stops s es (optDecodeAt inp p prev) := by
  refine .bind (.check fun hscan hshort => ?_) fun _ _ _ => optFields_stops ..
  obtain rfl : p = 0 := (h hscan).resolve_left hshort
  exact Cause.posLegal_of_some rfl

theorem optsValidate_stops (acc : Word) (i : Nat) (l : List OptEntry) : Stops s es (optsValidate acc i l) := by
  induction l generalizing acc i with
  | nil => exact .ok trivial
  | cons o os ih => exact .bind (.checkAny rfl i) fun _ _ _ => .bind (.checkAny rfl i) fun _ _ _ => ih ..

/-- `seq_dec` from an option start within IN; what it reads from an IN that fits fits. -/
theorem seqDecode_meets {cap : Config.Capacity} {inp : Bytes} {left p : Nat} {acc : Word}
    {opts : List OptEntry} (hp : p ≤ inp.length) :
    Meets s es (fun r => fitsBuf cap inp.length = true → optsFit cap opts = true →
      optsFit cap r.1 = true ∧ fitsBuf cap r.2.length = true) (seqDecode cap inp left p acc opts) := by
  induction left generalizing p acc opts with
  | zero => exact .ok fun _ hopts => ⟨hopts, fitsBuf_zero⟩
  | succ left ih =>
    by_cases hend : p = inp.length
    · rw [hend, seqDecode_end]
      exact .ok fun _ hopts => ⟨hopts, fitsBuf_zero⟩
    by_cases hmark : byteAt inp p = 0xFF
    · rw [seqDecode_marker hend hmark]
      refine .bind (payloadAfter_stops ..) fun payload hpay _ => .ok fun hinp hopts => ⟨hopts, ?_⟩
      exact (payloadAfter_ok.mp hpay).2 ▸ fitsBuf_memRead hinp
    · rw [seqDecode_option hend hmark]
      refine .bind (optDecodeAt_stops (fun _ => .inl (lt_of_le_of_ne hp hend)) acc) fun r hopt _ =>
        .bind (pushOpt_stops ..) fun os hpush _ => ?_
      obtain ⟨hroom, rfl⟩ := pushOpt_ok.mp hpush
      have hrest := ih (optDecodeAt_count hopt).2 (acc := r.1) (opts := opts ++ [⟨r.1, r.2.1⟩])
      refine ⟨fun a ha hinp hopts => hrest.done a ha hinp ?_, hrest.legal, hrest.fault⟩
      exact optsFit_snoc hopts hroom (fitsBuf_optFields hinp (optDecodeAt_ok.mp hopt).2)

end Functions

/-! ### The commands -/

section Commands

variable {s : State} {es : List EntryName}

/-- IN of a state whose stores fit. -/
theorem Memory.wf_input {inp : Bytes} (h : Memory.wf s = true) (hin : s.input = .holds inp) :
    fitsBuf s.cap inp.length = true := by
  obtain ⟨⟨hinput, -⟩, -⟩ := Memory.wf_iff.mp h
  rwa [hin] at hinput

theorem nibEncode_ext_length_le (raw : Nat) : (nibEncode raw).2.length ≤ 4 := by
  rw [nibEncode_ext_length]
  split_ifs <;> decide

/-- What a command has in its state when it completes: only its outputs are written, within the capacities. -/
structure Writes (outs : List EntryName) (s u : State) : Prop where
  sameBut : SameBut outs s u
  wf : capacityLegal s.cap = true → Memory.wf s = true → Memory.wf u = true

theorem nibDecFrom_meets (hin : .input ∈ es) (n : Nibble) :
    Meets s es (Writes [.res, .consumed] s) (nibDecFrom n s) := by
  refine .bind (.checkAt rfl) fun _ _ _ => ?_
  split
  · exact .ok ⟨rfl, fun _ h => h⟩
  · exact .bind (.get hin rfl) fun _ _ _ => .bind (.checkAt rfl) fun _ _ _ => .ok ⟨rfl, fun _ h => h⟩

/-- A reserved row has no inputs and no outputs, and raises a CommandError (30_encoding.md R73). -/
structure Reserved (i : Instr) : Prop where
  inputs : commandInputs i = []
  outputs : commandOutputs i = []
  raises : ∃ c : Cause, c.posLegal 0 ∧ ∀ s, exec i s = commandError c s

/-- The rows that stand in CMD: the eleven commands (R72) and the reserved words. -/
inductive CommandRow : Instr → Prop where
  | nibEnc : CommandRow .nibEnc
  | nibDec : CommandRow .nibDec
  | optEnc : CommandRow .optEnc
  | optDec : CommandRow .optDec
  | hdrEnc : CommandRow .hdrEnc
  | hdrDec : CommandRow .hdrDec
  | msgEnc : CommandRow .msgEnc
  | msgDec : CommandRow .msgDec
  | codeSplit : CommandRow .codeSplit
  | codeSetClass : CommandRow .codeSetClass
  | codeSetDetail : CommandRow .codeSetDetail
  | reserved {i : Instr} (h : Reserved i) : CommandRow i

theorem commandRow {i : Instr} (h : i.position = .cmd) : CommandRow i := by
  cases i
  case wireOptDnib15 l =>
    rw [Instr.position] at h
    split at h <;> cases h
  case reservedRsv => exact .reserved ⟨rfl, rfl, .xRsvdBits, Cause.posLegal_of_some rfl, fun _ => rfl⟩
  case reservedOpc00 | reservedOpc0C0F | reservedOpc101F | reservedOpc203F | reservedOpc407F | reservedOpc80FF =>
    exact .reserved ⟨rfl, rfl, .xOpcode, Cause.posLegal_of_some rfl, fun _ => rfl⟩
  case nibEnc => exact .nibEnc
  case nibDec => exact .nibDec
  case optEnc => exact .optEnc
  case optDec => exact .optDec
  case hdrEnc => exact .hdrEnc
  case hdrDec => exact .hdrDec
  case msgEnc => exact .msgEnc
  case msgDec => exact .msgDec
  case codeSplit => exact .codeSplit
  case codeSetClass => exact .codeSetClass
  case codeSetDetail => exact .codeSetDetail
  all_goals cases h

/-- A command ends as a computation over its inputs does, which writes its outputs only. -/
theorem exec_command {i : Instr} (h : i.position = .cmd) (s : State) : ∃ r,
    exec i s = finish (commandOutputs i) s r ∧
      Meets s (commandInputs i) (Writes (commandOutputs i) s) r := by
  cases commandRow h with
  | nibEnc =>
    refine ⟨_, rfl, .bind (.get (by decide) rfl) fun _ _ _ => .bind (.checkAt rfl) fun _ _ hraw => ?_⟩
    exact .ok ⟨rfl, fun hcap hwf => Memory.wf_writeOut hwf (fitsBuf_mono hcap (nibEncode_ext_length_le _))⟩
  | nibDec =>
    exact ⟨_, rfl, .bind (.get (by decide) rfl) fun _ _ _ => .bind (.checkAt rfl) fun _ _ _ =>
      nibDecFrom_meets (by decide) _⟩
  | optEnc =>
    exact ⟨_, rfl, .bind (.get (by decide) rfl) fun _ _ _ => .bind (.get (by decide) rfl) fun _ _ _ =>
      .bind (.get (by decide) rfl) fun _ _ _ => .bind (optEncode_stops ..) fun _ _ _ =>
      .bind (.checkAt rfl) fun _ _ hfit => .ok ⟨rfl, fun _ hwf => Memory.wf_writeOut hwf hfit⟩⟩
  | optDec =>
    refine ⟨_, rfl, .bind (.get (by decide) rfl) fun _ _ _ => .bind (.get (by decide) rfl) fun inp _ hin =>
      .bind (optDecodeAt_stops (fun _ => .inr rfl) _) fun r hr _ => .ok ⟨rfl, fun _ hwf => ?_⟩⟩
    exact Memory.wf_putOption hwf (fitsBuf_optFields (Memory.wf_input hwf hin) (optDecodeAt_ok.mp hr).2)
  | hdrEnc =>
    exact ⟨_, rfl, .bind (.get (by decide) rfl) fun _ _ _ => .bind (.get (by decide) rfl) fun _ _ _ =>
      .bind (.get (by decide) rfl) fun _ _ _ => .bind (.get (by decide) rfl) fun _ _ _ =>
      .bind (.get (by decide) rfl) fun _ _ _ => .bind (hdrValidate_stops ..) fun _ _ _ =>
      .ok ⟨rfl, fun hcap hwf => Memory.wf_writeOut hwf hcap⟩⟩
  | hdrDec =>
    exact ⟨_, rfl, .bind (.get (by decide) rfl) fun _ _ _ => .bind (hdrUnpack_stops _) fun f _ _ =>
      .ok ⟨rfl, fun _ hwf => Memory.wf_putHeader hwf f⟩⟩
  | msgEnc =>
    refine ⟨_, rfl, .bind (.get (by decide) rfl) fun _ _ _ => .bind (.get (by decide) rfl) fun _ _ _ =>
      .bind (.get (by decide) rfl) fun _ _ _ => .bind (.get (by decide) rfl) fun _ _ _ =>
      .bind (.get (by decide) rfl) fun _ _ _ => .bind (hdrValidate_stops ..) fun _ _ _ =>
      .bind (.get (by decide) rfl) fun opts _ _ => .bind (optsValidate_stops ..) fun _ hvalid _ => ?_⟩
    obtain ⟨body, hbody⟩ := seqEncode_sortOpts hvalid
    rw [hbody, Calc.ok_bind]
    exact .bind (.get (by decide) rfl) fun _ _ _ => .bind (.checkAt rfl) fun _ _ hfit =>
      .ok ⟨rfl, fun _ hwf => Memory.wf_writeOut hwf hfit⟩
  | msgDec =>
    refine ⟨_, rfl, .bind (.get (by decide) rfl) fun inp _ hin => .bind (hdrUnpack_stops _) fun f _ _ =>
      .bind (tokenAt4_stops ..) fun token htoken _ => ?_⟩
    obtain ⟨hlen, rfl⟩ := tokenAt4_ok.mp htoken
    refine .bind (seqDecode_meets hlen) fun r _ hr => .ok ⟨rfl, fun _ hwf => ?_⟩
    have hinp : fitsBuf s.cap inp.length = true := Memory.wf_input hwf hin
    obtain ⟨hopts, hpay⟩ := hr hinp optsFit_nil
    exact Memory.wf_putMessage hwf f (fitsBuf_memRead hinp) hpay hopts
  | codeSplit =>
    exact ⟨_, rfl, .bind (.get (by decide) rfl) fun _ _ _ => .bind (.checkAt rfl) fun _ _ _ =>
      .ok ⟨rfl, fun _ hwf => hwf⟩⟩
  | codeSetClass =>
    exact ⟨_, rfl, .bind (.get (by decide) rfl) fun _ _ _ => .bind (.checkAt rfl) fun _ _ _ =>
      .bind (.get (by decide) rfl) fun _ _ _ => .ok ⟨rfl, fun _ hwf => hwf⟩⟩
  | codeSetDetail =>
    exact ⟨_, rfl, .bind (.get (by decide) rfl) fun _ _ _ => .bind (.checkAt rfl) fun _ _ _ =>
      .bind (.get (by decide) rfl) fun _ _ _ => .ok ⟨rfl, fun _ hwf => hwf⟩⟩
  | reserved hres =>
    obtain ⟨c, hpos, hraises⟩ := hres.raises
    exact ⟨.error (.err c 0), by rw [hraises, hres.outputs]; rfl, .err fun _ => hpos⟩

end Commands

/-! ### How every command ends -/

section Ends

variable {i : Instr} {s t : State}

theorem frame_of_exec (hpos : i.position = .cmd) (h : exec i s = .next t) : Frame (commandOutputs i) s t := by
  obtain ⟨r, hexec, hr⟩ := exec_command hpos s
  rcases finish_eq_next.mp (hexec.symm.trans h) with ⟨u, hu, rfl⟩ | ⟨c, pos, -, rfl⟩
  · exact .succeed (hr.done u hu).sameBut
  · exact .raiseError ..

end Ends

/-- Settles O40: a command ends as its computation does, by completing or by raising one error. -/
theorem commandOutcome : Obligations.CommandOutcome := by
  unfold Obligations.CommandOutcome
  intro i s t hpos h
  obtain ⟨r, hexec, -⟩ := exec_command hpos s
  rcases finish_eq_next.mp (hexec.symm.trans h) with ⟨u, -, rfl⟩ | ⟨c, pos, -, rfl⟩
  · exact .inl ⟨rfl, rfl⟩
  · exact .inr ⟨c, pos, rfl⟩

/-- Settles O42: on success the computation has written outputs only; an error spoils outputs only. -/
theorem commandFrame : Obligations.CommandFrame := by
  unfold Obligations.CommandFrame
  intro i s t hpos h
  have hframe : Frame (commandOutputs i) s t := frame_of_exec hpos h
  exact ⟨hframe.entry, hframe.cmd, hframe.scan, hframe.cap, hframe.host, hframe.reads⟩

/-- Settles O44: a fault would name an unwritten input, and a command is never refused. -/
theorem commandsComplete : Obligations.CommandsComplete := by
  unfold Obligations.CommandsComplete
  intro i s hpos hwritten
  obtain ⟨r, hexec, hr⟩ := exec_command hpos s
  match r with
  | .ok u => exact ⟨u.succeed, hexec⟩
  | .error (.err c pos) => exact ⟨_, hexec⟩
  | .error (.fault f) =>
    obtain ⟨e, he, -, hun⟩ := hr.fault f rfl
    exact absurd hun (hwritten e he)

/-! ### A command depends on its inputs only -/

/-- Two computations of the same command in two states stop alike, or complete with the same outputs. -/
inductive Agree (outs : List EntryName) : Calc State → Calc State → Prop where
  | ok {u u' : State} (h : outs.map u'.entry = outs.map u.entry) : Agree outs (.ok u) (.ok u')
  | error (e : Stop) : Agree outs (.error e) (.error e)

section Agree

variable {outs : List EntryName} {α : Type} {s s' : State}

theorem Agree.bind {x y : Calc α} {f g : α → Calc State} (hxy : x = y) (h : ∀ a, Agree outs (f a) (g a)) :
    Agree outs (x >>= f) (y >>= g) := by
  subst hxy
  cases x with
  | ok a => exact h a
  | error e => exact .error e

/-- The read of an entry that holds the same in both states. -/
theorem Agree.get {x y : Entry α} {v : α → HostValue} {e : EntryName} {f g : α → Calc State}
    (hv : Function.Injective v) (hxy : x.toHost v = y.toHost v) (h : ∀ a, Agree outs (f a) (g a)) :
    Agree outs (x.get e >>= f) (y.get e >>= g) :=
  .bind (congrArg (Entry.get e) (Entry.toHost_inj hv hxy)) h

theorem Agree.word {x y : Entry Word} {e : EntryName} {f g : Word → Calc State}
    (hxy : x.toHost .word = y.toHost .word) (h : ∀ a, Agree outs (f a) (g a)) :
    Agree outs (x.get e >>= f) (y.get e >>= g) :=
  .get HostValue.word_injective hxy h

theorem Agree.bytes {x y : Entry Bytes} {e : EntryName} {f g : Bytes → Calc State}
    (hxy : x.toHost .bytes = y.toHost .bytes) (h : ∀ a, Agree outs (f a) (g a)) :
    Agree outs (x.get e >>= f) (y.get e >>= g) :=
  .get HostValue.bytes_injective hxy h

theorem Agree.nibDecFrom (h : s.entry .input = s'.entry .input) (n : Nibble) :
    Agree [.res, .consumed] (nibDecFrom n s) (nibDecFrom n s') := by
  refine .bind rfl fun _ => ?_
  split
  · exact .ok rfl
  · exact .bytes h fun _ => .bind rfl fun _ => .ok rfl

/-- Two runs of a command from states that hold the same inputs are of agreeing computations. -/
theorem exec_agree {i : Instr} (hpos : i.position = .cmd) (hcap : s.cap = s'.cap)
    (h : ∀ e ∈ commandInputs i, s.entry e = s'.entry e) :
    ∃ r r', exec i s = finish (commandOutputs i) s r ∧ exec i s' = finish (commandOutputs i) s' r' ∧
      Agree (commandOutputs i) r r' := by
  have hfits (n : Nat) : need (fitsBuf s.cap n) .cOut 0 = need (fitsBuf s'.cap n) .cOut 0 := by rw [hcap]
  cases commandRow hpos with
  | nibEnc =>
    exact ⟨_, _, rfl, rfl, .word (h .arg (by decide)) fun _ => .bind rfl fun _ => .ok rfl⟩
  | nibDec =>
    exact ⟨_, _, rfl, rfl, .word (h .arg (by decide)) fun _ => .bind rfl fun _ =>
      .nibDecFrom (h .input (by decide)) _⟩
  | optEnc =>
    exact ⟨_, _, rfl, rfl, .word (h .num (by decide)) fun _ => .word (h .prev (by decide)) fun _ =>
      .bytes (h .input (by decide)) fun _ => .bind rfl fun _ => .bind (hfits _) fun _ => .ok rfl⟩
  | optDec =>
    exact ⟨_, _, rfl, rfl, .word (h .prev (by decide)) fun _ => .bytes (h .input (by decide)) fun _ =>
      .bind rfl fun _ => .ok rfl⟩
  | hdrEnc =>
    exact ⟨_, _, rfl, rfl, .bytes (h .token (by decide)) fun _ => .word (h .ver (by decide)) fun _ =>
      .word (h .typ (by decide)) fun _ => .word (h .code (by decide)) fun _ =>
      .word (h .mid (by decide)) fun _ => .bind rfl fun _ => .ok rfl⟩
  | hdrDec =>
    exact ⟨_, _, rfl, rfl, .bytes (h .input (by decide)) fun _ => .bind rfl fun _ => .ok rfl⟩
  | msgEnc =>
    exact ⟨_, _, rfl, rfl, .bytes (h .token (by decide)) fun _ => .word (h .ver (by decide)) fun _ =>
      .word (h .typ (by decide)) fun _ => .word (h .code (by decide)) fun _ =>
      .word (h .mid (by decide)) fun _ => .bind rfl fun _ =>
      .get HostValue.options_injective (h .opts (by decide)) fun _ => .bind rfl fun _ => .bind rfl fun _ =>
      .bytes (h .payload (by decide)) fun _ => .bind (hfits _) fun _ => .ok rfl⟩
  | msgDec =>
    exact ⟨_, _, rfl, rfl, .bytes (h .input (by decide)) fun _ => .bind rfl fun _ => .bind rfl fun _ =>
      .bind (by rw [hcap]) fun _ => .ok rfl⟩
  | codeSplit =>
    exact ⟨_, _, rfl, rfl, .word (h .code (by decide)) fun _ => .bind rfl fun _ => .ok rfl⟩
  | codeSetClass =>
    exact ⟨_, _, rfl, rfl, .word (h .cls (by decide)) fun _ => .bind rfl fun _ =>
      .word (h .code (by decide)) fun _ => .ok rfl⟩
  | codeSetDetail =>
    exact ⟨_, _, rfl, rfl, .word (h .detail (by decide)) fun _ => .bind rfl fun _ =>
      .word (h .code (by decide)) fun _ => .ok rfl⟩
  | reserved hres =>
    obtain ⟨c, -, hraises⟩ := hres.raises
    rw [hraises, hraises, hres.outputs]
    exact ⟨_, _, rfl, rfl, .error (.err c 0)⟩

end Agree

/-- Settles O43: agreeing computations complete with the same outputs, or raise the same error, which leaves the
same in them. -/
theorem commandReadsOnlyInputs : Obligations.CommandReadsOnlyInputs := by
  unfold Obligations.CommandReadsOnlyInputs
  intro i s s' t hpos hcap hin h
  obtain ⟨r, r', hexec, hexec', hagree⟩ := exec_agree hpos hcap hin
  rw [hexec] at h
  rw [hexec']
  cases hagree with
  | @ok u u' houts =>
    cases h
    refine ⟨u'.succeed, rfl, rfl, rfl, fun e he => ?_⟩
    obtain ⟨hstatus, herrPos⟩ := output_ne_status he
    rw [State.entry_succeed hstatus herrPos, State.entry_succeed hstatus herrPos]
    exact List.map_inj_left.mp houts e he
  | error e =>
    match e with
    | .err c pos =>
      cases h
      refine ⟨_, rfl, rfl, rfl, fun e he => ?_⟩
      rw [State.entry_raiseError_of_mem he, State.entry_raiseError_of_mem he]

section Again

variable {i : Instr} {s t : State}

/-- A command that leaves its outputs, STATUS and ERR_POS as they were leaves the whole state as it was. -/
theorem eq_of_exec (hpos : i.position = .cmd) (h : exec i s = .next t) (hstatus : t.status = s.status)
    (herrPos : t.errPos = s.errPos) (houts : ∀ e ∈ commandOutputs i, t.entry e = s.entry e) : t = s := by
  have hframe : Frame (commandOutputs i) s t := frame_of_exec hpos h
  refine State.eq_of_entries (fun e => ?_) hframe.cmd hframe.scan hframe.cap hframe.host hframe.reads
  by_cases he : e ∈ commandOutputs i
  · exact houts e he
  by_cases hs : e = .status
  · subst hs
    simp only [State.entry, hstatus]
  by_cases hp : e = .errPos
  · subst hp
    simp only [State.entry, herrPos]
  by_cases hlen : e = .outLen ∧ .out ∈ commandOutputs i
  · obtain ⟨rfl, hout⟩ := hlen
    have hsame : t.out = s.out := Entry.toHost_inj HostValue.bytes_injective (houts .out hout)
    simp only [State.entry, State.outLen, hsame]
  · exact hframe.entry e he hs hp fun hx hout => hlen ⟨hx, hout⟩

/-- A command none of whose inputs is an output can be issued again with the same result (20_memory.md R59). -/
theorem exec_again (hpos : i.position = .cmd) (hdisj : ∀ e ∈ commandInputs i, e ∉ commandOutputs i ∧
    e ≠ .status ∧ e ≠ .errPos ∧ e ≠ .outLen) (h : exec i s = .next t) : exec i t = .next t := by
  have hframe : Frame (commandOutputs i) s t := frame_of_exec hpos h
  have hin : ∀ e ∈ commandInputs i, s.entry e = t.entry e := fun e he => by
    obtain ⟨hout, hstatus, herrPos, hlen⟩ := hdisj e he
    exact (hframe.entry e hout hstatus herrPos fun hx => absurd hx hlen).symm
  obtain ⟨t', h', hstatus, herrPos, houts⟩ := commandReadsOnlyInputs i s t t hpos hframe.cap.symm hin h
  rw [h', eq_of_exec hpos h' hstatus herrPos houts]

end Again

/-- Settles O46: a decode command reads none of its outputs. -/
theorem decodeIdempotent : Obligations.DecodeIdempotent := by
  unfold Obligations.DecodeIdempotent
  intro i s t hi
  refine exec_again ?_ ?_
  · revert i
    decide
  · revert i
    decide

end Sys2Proof.Machine
end

section
/-! The walk of a decode command (10_state.md R43, R44; 30_encoding.md R83). At each place of a walk a step is one
computation over IN, as a command is: it moves the walk on, or ends it as its command ends. Put in a row, these are
the command's own computation (44_message.md R162, R168). -/

namespace Sys2Proof.Machine

open Sys2Proof

/-! ### One step of a walk -/

section Steps

variable {s : State} {sc : Scan} {inp : Bytes}

/-- An element that stops ends the walk, whether or not it would have moved it on. -/
theorem advance_error (sc : Scan) (s : State) (e : Stop) : advance sc s (.error e) = conclude sc s (.error e) := by
  cases e <;> rfl

theorem step_element {i : Instr} (h : s.scan = some sc) (hnext : nextElement sc s = .ok (some i)) :
    step s = exec i s := by
  rw [step_scan h, hnext]

/-- A step reads the next element, which may stop it, and then runs the element. -/
theorem step_of_nextElement {α β : Type} {F : Calc β → Host.Outcome State Fault Refusal} {x : Calc α}
    {i : α → Instr} {g : α → Calc β} (h : s.scan = some sc)
    (hF : ∀ e, F (.error e) = advance sc s (.error e))
    (hnext : nextElement sc s = x >>= fun a => .ok (some (i a)))
    (hexec : ∀ a, x = .ok a → exec (i a) s = F (g a)) : step s = F (x >>= g) := by
  rw [step_scan h, hnext]
  cases x with
  | error e => exact (hF e).symm
  | ok a => exact hexec a rfl

/-- IN, with all four header bytes present (43_header.md R142). -/
def State.headerInput (s : State) : Calc Bytes := do
  let inp ← s.input.get .input
  hdrPresent inp
  .ok inp

theorem headerInput_ok : s.headerInput = .ok inp ↔ s.input = .holds inp ∧ 4 ≤ inp.length := by
  cases hin : s.input with
  | unwritten => simp [State.headerInput, hin]
  | holds b =>
    by_cases hlen : 4 ≤ b.length
    · simpa [State.headerInput, hin, hdrPresent, hlen] using fun h => h ▸ hlen
    · simpa [State.headerInput, hin, hdrPresent, hlen] using fun h => h ▸ Nat.not_le.mp hlen

theorem step_hdr0 (h : s.scan = some sc) (hplace : sc.place = .hdr0) : step s = advance sc s (do
    let inp ← s.headerInput
    need (((byteAt inp sc.pos).extractLsb' 0 4).toNat ≤ Config.maxTkl) .fTkl 0
    .ok { sc with
      place := .hdrCode, pos := sc.pos + 1, ver := (byteAt inp sc.pos).extractLsb' 6 2
      typ := (byteAt inp sc.pos).extractLsb' 4 2, tkl := (byteAt inp sc.pos).extractLsb' 0 4 }) := by
  refine step_of_nextElement h (fun _ => rfl) (i := fun inp => decodeHdr0 (byteAt inp sc.pos)) ?_
    fun inp hinp => ?_
  · simp only [nextElement, hplace, State.headerInput, bind_assoc, Calc.ok_bind]
  · obtain ⟨hin, hlen⟩ := headerInput_ok.mp hinp
    rw [exec_decodeHdr0, hdr0Element, atPlace_some h (by simp [hplace]), Entry.get_eq_ok.mpr hin, Calc.ok_bind,
      hdrPresent, need_of hlen, Calc.ok_bind]

theorem hdrCode_split (b : Byte) : b.extractLsb' 5 3 ++ b.extractLsb' 0 5 = b := by
  revert b; decide

theorem step_hdrCode (h : s.scan = some sc) (hplace : sc.place = .hdrCode) : step s = advance sc s (do
    let inp ← s.headerInput
    .ok { sc with place := .hdrMid, pos := sc.pos + 1, code := byteAt inp sc.pos }) := by
  refine step_of_nextElement h (fun _ => rfl) (i := fun inp => decodeHdrCode (byteAt inp sc.pos)) ?_
    fun inp hinp => ?_
  · simp only [nextElement, hplace, State.headerInput, bind_assoc, Calc.ok_bind]
  · rw [decodeHdrCode, exec_wireHdrCode, execWireHdrCode, atPlace_some h (by simp [hplace]), hdrCode_split]

/-- The message ID at POS (R77). -/
def Scan.midOf (sc : Scan) (inp : Bytes) : BitVec 16 := hdrMid (byteAt inp sc.pos) (byteAt inp (sc.pos + 1))

theorem nextElement_hdrMid (hplace : sc.place = .hdrMid) :
    nextElement sc s = s.headerInput >>= fun inp => .ok (some (.wireHdrMid (sc.midOf inp))) := by
  simp only [nextElement, hplace, State.headerInput, bind_assoc, Calc.ok_bind, Scan.midOf]

/-- HDR_DEC ends at the message ID (43_header.md R145). -/
theorem step_hdrMid_hdrDec (h : s.scan = some sc) (hplace : sc.place = .hdrMid) (hwalk : sc.walk = .hdrDec) :
    step s = conclude sc s (do
      let inp ← s.headerInput
      .ok (s.endScan.putHdrDec { sc.fields with mid := sc.midOf inp })) := by
  refine step_of_nextElement h (fun e => (advance_error sc s e).symm) (nextElement_hdrMid hplace) fun inp _ => ?_
  rw [exec_wireHdrMid, execWireHdrMid, atPlace_some h (by simp [hplace]), hwalk]

/-- MSG_DEC takes the token and stands at the first option start (44_message.md R168). -/
theorem step_hdrMid (h : s.scan = some sc) (hplace : sc.place = .hdrMid) (hwalk : sc.walk ≠ .hdrDec) :
    step s = advance sc s (do
      let inp ← s.headerInput
      let token ← tokenAt4 inp sc.tkl.toNat
      .ok { sc with
        place := .seqStart, pos := 4 + sc.tkl.toNat, acc := 0, mid := sc.midOf inp, token := token, opts := [] }) := by
  refine step_of_nextElement h (fun _ => rfl) (nextElement_hdrMid hplace) fun inp hinp => ?_
  rw [exec_wireHdrMid, execWireHdrMid, atPlace_some h (by simp [hplace])]
  cases hw : sc.walk with
  | hdrDec => exact absurd hw hwalk
  | msgDec | optDec | nibDec => rw [Entry.get_eq_ok.mpr (headerInput_ok.mp hinp).1, Calc.ok_bind]

theorem step_seqStart_unwritten (h : s.scan = some sc) (hplace : sc.place = .seqStart)
    (hin : s.input = .unwritten) : step s = .fault (.unwrittenInput .input) := by
  simp [step_scan h, nextElement, hplace, hin]

theorem nextElement_seqStart (hplace : sc.place = .seqStart) (hin : s.input = .holds inp) :
    nextElement sc s =
      .ok (if sc.pos < inp.length then some (decodeSeqStart (byteAt inp sc.pos)) else none) := by
  simp [nextElement, hplace, hin]

/-- The end of IN at an option start ends MSG_DEC without a payload (R165). -/
theorem step_seqStart_end (h : s.scan = some sc) (hplace : sc.place = .seqStart) (hin : s.input = .holds inp)
    (hpos : inp.length ≤ sc.pos) :
    step s = conclude sc s (.ok (s.endScan.putMessage sc.fields sc.token sc.opts [])) := by
  rw [step_scan h, nextElement_seqStart hplace hin, if_neg hpos.not_gt, endOfInput, if_pos hplace]

theorem step_seqStart_marker (h : s.scan = some sc) (hplace : sc.place = .seqStart)
    (hin : s.input = .holds inp) (hpos : sc.pos < inp.length) (hmark : byteAt inp sc.pos = 0xFF) :
    step s = conclude sc s (do
      let payload ← payloadAfter inp sc.pos
      .ok (s.endScan.putMessage sc.fields sc.token sc.opts payload)) := by
  have hnext := nextElement_seqStart (s := s) hplace hin
  rw [if_pos hpos, decodeSeqStart, if_pos hmark] at hnext
  rw [step_element h hnext, exec_wireMarker, execWireMarker, atPlace_some h (by simp [hplace]), Entry.get_eq_ok.mpr hin, Calc.ok_bind]

theorem optDecodeAt_eq_optFields {p : Nat} (h : p < inp.length) (prev : Word) : optDecodeAt inp p prev =
    optFields inp p prev ((byteAt inp p).extractLsb' 4 4) ((byteAt inp p).extractLsb' 0 4) := by
  rw [optDecodeAt, need_of (by omega), Calc.ok_bind]

/-- An option at an option start of MSG_DEC joins the list (R162). -/
theorem step_seqStart_option (h : s.scan = some sc) (hplace : sc.place = .seqStart)
    (hin : s.input = .holds inp) (hpos : sc.pos < inp.length) (hmark : byteAt inp sc.pos ≠ 0xFF) :
    step s = advance sc s (do
      let r ← optDecodeAt inp sc.pos sc.acc
      let opts ← pushOpt s.cap sc.pos sc.opts r.1 r.2.1
      .ok { sc with pos := sc.pos + r.2.2, acc := r.1, opts := opts }) := by
  obtain ⟨dn, ln, hexec, hfields⟩ := exec_decodeOptStart (byteAt inp sc.pos) s
  have hnext := nextElement_seqStart (s := s) hplace hin
  rw [if_pos hpos, decodeSeqStart, if_neg hmark] at hnext
  rw [step_element h hnext, hexec, optElement, atPlace_some h (by simp [hplace]), if_neg (by simp [hplace]), Entry.get_eq_ok.mpr hin, Calc.ok_bind, hfields,
    optDecodeAt_eq_optFields hpos]

/-- OPT_DEC's walk is its one option (42_option.md R129). -/
theorem step_optStart (h : s.scan = some sc) (hplace : sc.place = .optStart) : step s = conclude sc s (do
    let prev ← s.prev.get .prev
    let inp ← s.input.get .input
    let r ← optDecodeAt inp sc.pos prev
    .ok (s.endScan.putOption r)) := by
  cases hprev : s.prev with
  | unwritten => simp [step_scan h, nextElement, hplace, hprev, conclude]
  | holds prev =>
  cases hin : s.input with
  | unwritten => simp [step_scan h, nextElement, hplace, hprev, hin, conclude]
  | holds inp =>
  simp only [Entry.get_holds, Calc.ok_bind]
  by_cases hpos : sc.pos < inp.length
  · obtain ⟨dn, ln, hexec, hfields⟩ := exec_decodeOptStart (byteAt inp sc.pos) s
    have hnext : nextElement sc s = .ok (some (decodeOptStart (byteAt inp sc.pos))) := by
      simp [nextElement, hplace, hprev, hin, hpos]
    rw [step_element h hnext, hexec, optDecodeAt_eq_optFields hpos, ← hfields, optElement, atPlace_some h (by simp [hplace]), if_pos hplace, Entry.get_eq_ok.mpr hprev,
      Entry.get_eq_ok.mpr hin, Calc.ok_bind, Calc.ok_bind]
  · have hnext : nextElement sc s = .error (.err .tOptHdr sc.pos) := by
      simp [nextElement, hplace, hprev, hin, hpos]
    rw [step_scan h, hnext, optDecodeAt_of_end (Nat.not_lt.mp hpos)]
    rfl

/-- NIB_DEC's walk is its one nibble (41_varint.md R105). -/
theorem step_nibble (h : s.scan = some sc) (hplace : sc.place = .nibble) : step s = conclude sc s (do
    let a ← s.arg.get .arg
    need (a.toNat ≤ 15) .vNibble 0
    nibDecFrom (a.extractLsb' 0 4) s.endScan) := by
  have hnext : nextElement sc s = (do
      let a ← s.arg.get .arg
      need (a.toNat ≤ 15) .vNibble 0
      .ok a) >>= fun a => .ok (some (decodeNibble (a.extractLsb' 0 4))) := by
    simp only [nextElement, hplace, bind_assoc, Calc.ok_bind]
  refine (step_of_nextElement h (fun e => (advance_error sc s e).symm) hnext
    (g := fun a => nibDecFrom (a.extractLsb' 0 4) s.endScan) fun a _ => ?_).trans ?_
  · rw [exec_decodeNibble, nibbleElement, atPlace_some h (by simp [hplace])]
  · simp only [bind_assoc, Calc.ok_bind]

end Steps

/-! ### Steps in a row -/

section Run

variable {s t : State} {sc : Scan} {inp : Bytes} {f : HdrFields}

theorem runSteps_one (s : State) : runSteps 1 s = step s := by
  rw [runSteps]
  cases step s <;> rfl

theorem runSteps_next {n : Nat} (h : step s = .next t) : runSteps (n + 1) s = runSteps n t := by
  rw [runSteps, h]

/-- The state with a walk in progress. -/
def State.withScan (s : State) (sc : Scan) : State := { s with scan := some sc }

@[simp] theorem State.withScan_scan (s : State) (sc : Scan) : (s.withScan sc).scan = some sc := rfl
@[simp] theorem State.withScan_input (s : State) (sc : Scan) : (s.withScan sc).input = s.input := rfl
@[simp] theorem State.withScan_cap (s : State) (sc : Scan) : (s.withScan sc).cap = s.cap := rfl
@[simp] theorem State.withScan_withScan (s : State) (x sc : Scan) : (s.withScan x).withScan sc = s.withScan sc := rfl
@[simp] theorem State.withScan_headerInput (s : State) (sc : Scan) :
    (s.withScan sc).headerInput = s.headerInput := rfl

theorem endScan_withScan (hs : s.scan = none) (sc : Scan) : (s.withScan sc).endScan = s := endScan_of_none hs _

/-- The walk's own state is not in what its command answers. -/
theorem conclude_withScan (hs : s.scan = none) (r : Calc State) :
    conclude sc (s.withScan sc) r = finish sc.walk.outputs s r := by
  rw [conclude, endScan_withScan hs]

theorem advance_withScan_error (hs : s.scan = none) (e : Stop) :
    advance sc (s.withScan sc) (.error e) = finish sc.walk.outputs s (.error e) := by
  rw [advance_error, conclude_withScan hs]

theorem advance_withScan_ok (sc' : Scan) : advance sc (s.withScan sc) (.ok sc') = .next (s.withScan sc') := rfl

/-- The walk of HDR_DEC or MSG_DEC at the message ID, header bytes 0 and 1 read. -/
def Scan.atMid (w : Walk) (f : HdrFields) : Scan :=
  { Scan.start w with place := .hdrMid, pos := 2, ver := f.ver, typ := f.typ, tkl := f.tkl, code := f.code }

/-- The first step of a walk over a header that `hdr_unpack` rejects ends it so (43_header.md R142). -/
theorem step_header_error {w : Walk} (hs : s.scan = none) (hw : w.first = .hdr0) (hin : s.input = .holds inp)
    {e : Stop} (h : hdrUnpack inp = .error e) :
    step (s.withScan (Scan.start w)) = finish w.outputs s (.error e) := by
  rw [step_hdr0 (sc := Scan.start w) rfl hw]
  refine (congrArg _ ?_).trans (advance_withScan_error (sc := Scan.start w) hs e)
  rcases Calc.bind_eq_error.mp h with h | ⟨_, hpres, h⟩
  · simp [State.headerInput, hin, h]
  · simp only [State.headerInput, State.withScan_input, hin, Entry.get_holds, hpres, Calc.ok_bind]
    rcases Calc.bind_eq_error.mp h with h | ⟨_, -, h⟩
    · exact Calc.bind_eq_error.mpr (.inl h)
    · cases h

/-- Two steps take a walk over header bytes 0 and 1. -/
theorem runSteps_header {w : Walk} (hw : w.first = .hdr0) (hin : s.input = .holds inp)
    (h : hdrUnpack inp = .ok f) (n : Nat) :
    runSteps (n + 2) (s.withScan (Scan.start w)) = runSteps n (s.withScan (Scan.atMid w f)) := by
  obtain ⟨hlen, htkl, rfl⟩ := hdrUnpack_ok.mp h
  have hinput : s.headerInput = .ok inp := headerInput_ok.mpr ⟨hin, hlen⟩
  have hneed : need (((byteAt inp (Scan.start w).pos).extractLsb' 0 4).toNat ≤ Config.maxTkl) .fTkl 0 = .ok () :=
    need_of htkl .fTkl 0
  have hbyte0 := step_hdr0 (s := s.withScan (Scan.start w)) rfl hw
  rw [State.withScan_headerInput, hinput, Calc.ok_bind, hneed, Calc.ok_bind, advance_withScan_ok] at hbyte0
  rw [runSteps_next hbyte0]
  refine runSteps_next ?_
  rw [step_hdrCode rfl rfl, State.withScan_headerInput, hinput]
  rfl

/-- The walk of MSG_DEC at the end of IN ends as `seq_dec` does there (44_message.md R165). -/
theorem runSteps_options_end (hs : s.scan = none) (hin : s.input = .holds inp) (hwalk : sc.walk = .msgDec)
    (hplace : sc.place = .seqStart) (hpos : sc.pos = inp.length) (left : Nat) :
    runSteps 1 (s.withScan sc) = finish Walk.msgDec.outputs s (do
      let r ← seqDecode s.cap inp left sc.pos sc.acc sc.opts
      .ok (s.putMessage sc.fields sc.token r.1 r.2)) := by
  rw [runSteps_one, step_seqStart_end (s := s.withScan sc) rfl hplace hin hpos.ge, conclude_withScan hs, hwalk,
    endScan_withScan hs, hpos, seqDecode_end, Calc.ok_bind]

/-- From an option start on, the walk of MSG_DEC passes over the options as `seq_dec` does (R162). -/
theorem runSteps_options (hs : s.scan = none) (hin : s.input = .holds inp) {left : Nat}
    (hwalk : sc.walk = .msgDec) (hplace : sc.place = .seqStart) (hpos : sc.pos ≤ inp.length)
    (hleft : inp.length ≤ sc.pos + left) :
    ∃ n, n ≤ left + 1 ∧ runSteps n (s.withScan sc) = finish Walk.msgDec.outputs s (do
      let r ← seqDecode s.cap inp left sc.pos sc.acc sc.opts
      .ok (s.putMessage sc.fields sc.token r.1 r.2)) := by
  induction left generalizing sc with
  | zero => exact ⟨1, le_rfl, runSteps_options_end hs hin hwalk hplace (by omega) 0⟩
  | succ left ih =>
    have hconclude (r : Calc State) : conclude sc (s.withScan sc) r = finish Walk.msgDec.outputs s r := by
      rw [conclude_withScan hs, hwalk]
    by_cases hend : sc.pos = inp.length
    · exact ⟨1, by omega, runSteps_options_end hs hin hwalk hplace hend (left + 1)⟩
    have hlt : sc.pos < inp.length := lt_of_le_of_ne hpos hend
    by_cases hmark : byteAt inp sc.pos = 0xFF
    · refine ⟨1, by omega, ?_⟩
      rw [runSteps_one, step_seqStart_marker (s := s.withScan sc) rfl hplace hin hlt hmark, hconclude, endScan_withScan hs,
        seqDecode_marker hend hmark]
      simp only [bind_assoc, Calc.ok_bind]
    have hstep := step_seqStart_option (s := s.withScan sc) rfl hplace hin hlt hmark
    rw [seqDecode_option hend hmark]
    cases hopt : optDecodeAt inp sc.pos sc.acc with
    | error e =>
      refine ⟨1, by omega, ?_⟩
      rw [runSteps_one, hstep, hopt, Calc.error_bind, advance_error, hconclude]
      rfl
    | ok r =>
      rw [hopt, Calc.ok_bind] at hstep
      cases hpush : pushOpt s.cap sc.pos sc.opts r.1 r.2.1 with
      | error e =>
        refine ⟨1, by omega, ?_⟩
        rw [runSteps_one, hstep, State.withScan_cap, hpush, Calc.error_bind, advance_error, hconclude, Calc.ok_bind,
          hpush]
        rfl
      | ok os =>
        obtain ⟨hcount, hle⟩ := optDecodeAt_count hopt
        rw [State.withScan_cap, hpush, Calc.ok_bind, advance_withScan_ok] at hstep
        obtain ⟨n, hn, hrun⟩ := ih (sc := { sc with pos := sc.pos + r.2.2, acc := r.1, opts := os }) hwalk hplace
          hle (by simp only; omega)
        refine ⟨n + 1, by omega, ?_⟩
        rw [runSteps_next hstep, hrun, Calc.ok_bind, hpush]
        rfl

end Run

/-! ### The walk of each decode command -/

section Walks

variable {s : State} {inp : Bytes}

/-- Where IN is unwritten the first step of a walk over the header faults, as its command does. -/
theorem step_header_unwritten {w : Walk} (hw : w.first = .hdr0) (hin : s.input = .unwritten) :
    step (s.withScan (Scan.start w)) = .fault (.unwrittenInput .input) := by
  rw [step_hdr0 (sc := Scan.start w) rfl hw]
  simp [State.headerInput, hin]

theorem walk_hdrDec (hs : s.scan = none) (hin : s.input = .holds inp) :
    ∃ n, n ≤ inp.length + 1 ∧ runSteps n (s.withScan (Scan.start .hdrDec)) = execHdrDec s := by
  rw [execHdrDec_eq hin]
  cases hunpack : hdrUnpack inp with
  | error e => exact ⟨1, by omega, (runSteps_one _).trans (step_header_error hs rfl hin hunpack)⟩
  | ok f =>
    obtain ⟨hlen, -, hf⟩ := hdrUnpack_ok.mp hunpack
    refine ⟨3, by omega, ?_⟩
    rw [runSteps_header rfl hin hunpack, runSteps_one, step_hdrMid_hdrDec (sc := Scan.atMid .hdrDec f) rfl rfl rfl,
      conclude_withScan hs, endScan_withScan hs, State.withScan_headerInput, headerInput_ok.mpr ⟨hin, hlen⟩, hf]
    rfl

theorem walk_msgDec (hs : s.scan = none) (hin : s.input = .holds inp) :
    ∃ n, n ≤ inp.length + 1 ∧ runSteps n (s.withScan (Scan.start .msgDec)) = execMsgDec s := by
  rw [execMsgDec, Entry.get_eq_ok.mpr hin, Calc.ok_bind]
  cases hunpack : hdrUnpack inp with
  | error e => exact ⟨1, by omega, (runSteps_one _).trans (step_header_error hs rfl hin hunpack)⟩
  | ok f =>
    obtain ⟨hlen, -, hf⟩ := hdrUnpack_ok.mp hunpack
    have hmid := step_hdrMid (s := s.withScan (Scan.atMid .msgDec f)) rfl rfl nofun
    rw [State.withScan_headerInput, headerInput_ok.mpr ⟨hin, hlen⟩, Calc.ok_bind] at hmid
    rw [Calc.ok_bind]
    have htkl : (Scan.atMid .msgDec f).tkl = f.tkl := rfl
    cases htoken : tokenAt4 inp f.tkl.toNat with
    | error e =>
      refine ⟨3, by omega, ?_⟩
      rw [runSteps_header rfl hin hunpack, runSteps_one, hmid, htkl, htoken, Calc.error_bind,
        advance_withScan_error hs]
      rfl
    | ok token =>
      obtain ⟨hle, -⟩ := tokenAt4_ok.mp htoken
      rw [htkl, htoken, Calc.ok_bind, advance_withScan_ok] at hmid
      obtain ⟨n, hn, hrun⟩ := runSteps_options (left := inp.length - (4 + f.tkl.toNat)) hs hin
        (sc := { Scan.atMid .msgDec f with
          place := .seqStart, pos := 4 + f.tkl.toNat, acc := 0, mid := (Scan.atMid .msgDec f).midOf inp
          token := token, opts := [] }) rfl rfl hle (by simp only; omega)
      refine ⟨n + 1 + 2, by omega, ?_⟩
      rw [runSteps_header rfl hin hunpack, runSteps_next hmid]
      refine hrun.trans ?_
      rw [hf]
      rfl

end Walks

/-- Settles O55: the steps of each walk are its command's computation, piece by piece. -/
theorem walkEqualsCommand : Obligations.WalkEqualsCommand := by
  unfold Obligations.WalkEqualsCommand
  intro w s hs
  change ∃ n, _ ∧ runSteps n (s.withScan (Scan.start w)) = _
  cases w with
  | optDec =>
    refine ⟨1, Nat.le_add_left .., ?_⟩
    rw [runSteps_one, step_optStart rfl rfl, conclude_withScan hs, endScan_withScan hs]
    rfl
  | nibDec =>
    refine ⟨1, Nat.le_add_left .., ?_⟩
    rw [runSteps_one, step_nibble rfl rfl, conclude_withScan hs, endScan_withScan hs]
    rfl
  | hdrDec =>
    cases hin : s.input with
    | unwritten =>
      refine ⟨1, le_rfl, ?_⟩
      rw [runSteps_one, step_header_unwritten rfl hin]
      simp [Walk.command, execHdrDec, hin]
    | holds inp => exact walk_hdrDec hs hin
  | msgDec =>
    cases hin : s.input with
    | unwritten =>
      refine ⟨1, le_rfl, ?_⟩
      rw [runSteps_one, step_header_unwritten rfl hin]
      simp [Walk.command, execMsgDec, hin]
    | holds inp => exact walk_msgDec hs hin

end Sys2Proof.Machine
end

section
/-! What each element of a walk does where it stands (30_encoding.md R75-R84), and what a step runs (10_state.md
R20, R21): the meaning of an element is one computation of the walk that stands at its position. -/

namespace Sys2Proof.Machine

open Sys2Proof

/-! ### A step runs what stands next -/

theorem lowNibble_eq_setWidth (a : Word) : a.extractLsb' 0 4 = a.setWidth 4 := by
  apply BitVec.eq_of_toNat_eq
  rw [BitVec.extractLsb'_toNat, BitVec.toNat_setWidth, Nat.shiftRight_zero]

/-- Settles O7: by what `fetch` finds; at each place of a walk `nextElement` decodes the byte at POS. -/
theorem stepRunsNext : Obligations.StepRunsNext := by
  unfold Obligations.StepRunsNext
  refine fun s => ⟨fun sc inp h hin => ⟨fun hp hlen => ?_, fun hp hlen => ?_, fun hp hlen => ?_,
    fun hp hpos => ?_, fun p hp hprev hpos => ?_⟩, fun sc a h hp harg ha => ?_, fun w => step_cmd,
    fun l ls => step_host, fun w ls hs hc hh => (step_host hs hc hh).trans rfl, step_idle⟩
  · exact step_element h (by simp [nextElement, hp, hin, hdrPresent, hlen])
  · exact step_element h (by simp [nextElement, hp, hin, hdrPresent, hlen])
  · exact step_element h (by simp [nextElement, hp, hin, hdrPresent, hlen, hdrMid])
  · exact step_element h (by simp [nextElement, hp, hin, hpos])
  · exact step_element h (by simp [nextElement, hp, hin, hprev, hpos])
  · rw [← lowNibble_eq_setWidth]
    exact step_element h (by simp [nextElement, hp, harg, ha])

/-! ### The header's elements -/

section Header

variable {s : State} {sc : Scan} {inp : Bytes} {k : BitVec 4}

theorem hdr0Element_eq (h : s.scan = some sc) (hplace : sc.place = .hdr0) (hin : s.input = .holds inp)
    (v t : BitVec 2) (k : BitVec 4) : hdr0Element v t k s = advance sc s (do
      hdrPresent inp
      need (k.toNat ≤ Config.maxTkl) .fTkl 0
      .ok { sc with place := .hdrCode, pos := sc.pos + 1, ver := v, typ := t, tkl := k }) := by
  rw [hdr0Element, atPlace_some h (by simp [hplace]), Entry.get_eq_ok.mpr hin, Calc.ok_bind]

theorem hdr0Element_tkl (h : s.scan = some sc) (hplace : sc.place = .hdr0) (hin : s.input = .holds inp)
    (hlen : 4 ≤ inp.length) (hk : 8 < k.toNat) (v t : BitVec 2) :
    hdr0Element v t k s = .next (s.endScan.raiseError sc.walk.outputs .fTkl 0) := by
  rw [hdr0Element_eq h hplace hin, hdrPresent, need_of hlen, Calc.ok_bind, need_of_not (Nat.not_le.mpr hk)]
  rfl

theorem hdr0Element_short (h : s.scan = some sc) (hplace : sc.place = .hdr0) (hin : s.input = .holds inp)
    (hlen : inp.length < 4) (v t : BitVec 2) (k : BitVec 4) :
    hdr0Element v t k s = .next (s.endScan.raiseError sc.walk.outputs .tHeader 0) := by
  rw [hdr0Element_eq h hplace hin, hdrPresent, need_of_not (Nat.not_le.mpr hlen)]
  rfl

end Header

theorem tklRsvd_gt : 8 < (9#4).toNat ∧ (∀ k : BitVec 1, 8 < (5#3 ++ k : BitVec 4).toNat) ∧
    ∀ k : BitVec 2, 8 < (3#2 ++ k : BitVec 4).toNat := by
  decide

/-- Settles O56: the four rows of header byte 0 are one element, which takes its token length or not. -/
theorem wireHdrByte0Result : Obligations.WireHdrByte0Result := by
  unfold Obligations.WireHdrByte0Result
  intro s sc inp v t h hplace hin ends
  obtain ⟨h9, h1011, h1215⟩ := tklRsvd_gt
  refine ⟨fun hlen => ⟨fun k hk => ?_, hdr0Element_tkl h hplace hin hlen h9 v t,
      fun k => hdr0Element_tkl h hplace hin hlen (h1011 k) v t,
      fun k => hdr0Element_tkl h hplace hin hlen (h1215 k) v t⟩,
    fun hlen => ⟨hdr0Element_short h hplace hin hlen v t, hdr0Element_short h hplace hin hlen v t _,
      fun k => hdr0Element_short h hplace hin hlen v t _, fun k => hdr0Element_short h hplace hin hlen v t _⟩⟩
  rw [exec_wireHdrByte0, execWireHdrByte0, hdr0Element_eq h hplace hin, hdrPresent, need_of hlen, Calc.ok_bind,
    need_of hk]
  rfl

/-- Settles O57: the code is one move; at the message ID HDR_DEC ends, and MSG_DEC's token is there or not. -/
theorem wireHdrRestResult : Obligations.WireHdrRestResult := by
  unfold Obligations.WireHdrRestResult
  refine fun s sc h => ⟨fun c d hp => ?_, fun m hp hw => ?_, fun m inp hp hw hin => ?_⟩
  · rw [exec_wireHdrCode, execWireHdrCode, atPlace_some h (by simp [hp]), advance_ok]
  · rw [exec_wireHdrMid, execWireHdrMid, atPlace_some h (by simp [hp]), hw]
    rfl
  · have hexec : exec (.wireHdrMid m) s = advance sc s (do
        let token ← tokenAt4 inp sc.tkl.toNat
        .ok { sc with
          place := .seqStart, pos := 4 + sc.tkl.toNat, acc := 0, mid := m, token := token, opts := [] }) := by
      rw [exec_wireHdrMid, execWireHdrMid, atPlace_some h (by simp [hp]), Entry.get_eq_ok.mpr hin]
      simp only [hw, Calc.ok_bind]
    rw [hexec, tokenAt4]
    refine ⟨fun hlen => ?_, fun hlen => ?_⟩
    · rw [need_of hlen]
      rfl
    · rw [need_of_not (Nat.not_le.mpr hlen), Calc.error_bind, Calc.error_bind, advance_err, hw]
      rfl

/-- Settles O58: what `payloadAfter` answers at POS is the payload, or the error at the marker. -/
theorem wireMarkerResult : Obligations.WireMarkerResult := by
  unfold Obligations.WireMarkerResult
  intro s sc inp h hp hw hin
  have hexec : exec .wireMarker s = conclude sc s (do
      let payload ← payloadAfter inp sc.pos
      .ok (s.endScan.putMessage sc.fields sc.token sc.opts payload)) := by
    rw [exec_wireMarker, execWireMarker, atPlace_some h (by simp [hp]), Entry.get_eq_ok.mpr hin, Calc.ok_bind]
  rw [hexec]
  refine ⟨fun hlen => ?_, fun hlen => ?_⟩
  · rw [payloadAfter_eq_drop hlen]
    rfl
  · rw [payloadAfter_last hlen, Calc.error_bind, conclude, finish_err, hw]
    rfl

/-! ### The option elements -/

section Option

variable {s : State} {sc : Scan} {inp : Bytes} {p : Word}

theorem optElement_seqStart (h : s.scan = some sc) (hplace : sc.place = .seqStart) (hin : s.input = .holds inp)
    (d l : Nibble) : optElement d l s = advance sc s (do
      let r ← optFields inp sc.pos sc.acc d l
      let opts ← pushOpt s.cap sc.pos sc.opts r.1 r.2.1
      .ok { sc with pos := sc.pos + r.2.2, acc := r.1, opts := opts }) := by
  rw [optElement, atPlace_some h (by simp [hplace]), if_neg (by simp [hplace]), Entry.get_eq_ok.mpr hin,
    Calc.ok_bind]

theorem optElement_optStart (h : s.scan = some sc) (hplace : sc.place = .optStart) (hin : s.input = .holds inp)
    (hprev : s.prev = .holds p) (d l : Nibble) : optElement d l s = conclude sc s (do
      let r ← optFields inp sc.pos p d l
      .ok (s.endScan.putOption r)) := by
  rw [optElement, atPlace_some h (by simp [hplace]), if_pos hplace, Entry.get_eq_ok.mpr hprev,
    Entry.get_eq_ok.mpr hin, Calc.ok_bind, Calc.ok_bind]

/-- An option that fails ends either walk with its error. -/
theorem optElement_err (h : s.scan = some sc) (hin : s.input = .holds inp)
    (hp : (sc.place = .seqStart ∧ p = sc.acc) ∨ (sc.place = .optStart ∧ s.prev = .holds p)) {d l : Nibble}
    {c : Cause} {pos : Nat} (herr : optFields inp sc.pos p d l = .error (.err c pos)) :
    optElement d l s = .next (s.endScan.raiseError sc.walk.outputs c pos) := by
  rcases hp with ⟨hplace, rfl⟩ | ⟨hplace, hprev⟩
  · rw [optElement_seqStart h hplace hin, herr]
    rfl
  · rw [optElement_optStart h hplace hin hprev, herr]
    rfl

end Option

/-- Settles O59: an option's fields move MSG_DEC's walk on, if its list has room, or end OPT_DEC's; an error of
theirs ends either. -/
theorem wireOptResult : Obligations.WireOptResult := by
  unfold Obligations.WireOptResult
  intro s sc inp p h hin hp ends
  refine ⟨fun d l num val n hopt => ⟨fun hplace => ?_, fun hplace => ?_⟩, fun d l c pos => optElement_err h hin hp,
    fun l => optElement_err h hin hp (optFields_dnib15 inp sc.pos p l),
    fun d hd => optElement_err h hin hp (optFields_lnib15 hd inp sc.pos p)⟩
  · obtain rfl : p = sc.acc := hp.elim And.right fun ho => nomatch hplace.symm.trans ho.1
    rw [exec_wireOpt, execWireOpt, optElement_seqStart h hplace hin, hopt, Calc.ok_bind, pushOpt]
    split
    case isTrue hfit =>
      rw [need_of hfit]
      rfl
    case isFalse hfit =>
      rw [need_of_not hfit]
      rfl
  · have hprev : s.prev = .holds p := hp.elim (fun hs => nomatch hplace.symm.trans hs.1) And.right
    rw [exec_wireOpt, execWireOpt, optElement_optStart h hplace hin hprev, hopt]
    rfl

/-! ### The nibbles -/

theorem nibbleElement_eq {s : State} {sc : Scan} {n : Nibble} {r : Calc State} (h : s.scan = some sc)
    (hplace : sc.place = .nibble) (hwalk : sc.walk = .nibDec) (hr : nibDecFrom n s.endScan = r) :
    nibbleElement n s = finish (commandOutputs .nibDec) s.endScan r := by
  rw [nibbleElement, atPlace_some h (by simp [hplace]), conclude, hwalk, hr]
  rfl

/-- Settles O60: a nibble ends NIB_DEC's walk as `nibDecFrom` does. -/
theorem nibbleRowsResult : Obligations.NibbleRowsResult := by
  unfold Obligations.NibbleRowsResult
  intro s sc h hplace hwalk
  refine ⟨fun n hn => ?_, fun b rest hin => ?_, fun b c rest hin => ?_, ?_, fun hin => ?_, fun inp hin hlen => ?_⟩
  · have hres : BitVec.ofNat 32 n.toNat = n.setWidth 32 := BitVec.ofNat_toNat 32 n
    rw [exec_nibbleDirect, execNibbleDirect, nibbleElement_eq h hplace hwalk (nibDecFrom_direct hn _), hres]
    rfl
  · exact nibbleElement_eq h hplace hwalk
      (nibDecFrom_ext (n := 13) (e := [b]) (by decide) (by decide) rfl hin)
  · exact nibbleElement_eq h hplace hwalk
      (nibDecFrom_ext (n := 14) (e := [b, c]) (by decide) (by decide) rfl hin)
  · exact nibbleElement_eq h hplace hwalk (nibDecFrom_fifteen _)
  · exact nibbleElement_eq h hplace hwalk (nibDecFrom_short (n := 13) (by decide) hin Nat.zero_lt_one)
  · exact nibbleElement_eq h hplace hwalk (nibDecFrom_short (n := 14) (by decide) hin hlen)

end Sys2Proof.Machine
end

section
/-! What every step keeps. A step is a move of a walk, a command, a host line or nothing (10_state.md R20, R21), and
each of these is described once; the invariants are then one case analysis each. -/

namespace Sys2Proof.Machine

open Sys2Proof

/-! ### What no instruction writes -/

section Kept

variable {s t u : State} {sc : Scan} {outs : List EntryName}

/-- The parts of the state that no instruction writes (20_memory.md R67). -/
def State.kept (s : State) :
    Entry Bytes × Entry Word × Entry Word × Config.Capacity × List HostLine × List (EntryName × HostValue) :=
  (s.input, s.prev, s.arg, s.cap, s.host, s.reads)

theorem kept_spoil (s : State) (e : EntryName) : (s.spoil e).kept = s.kept := by
  cases e <;> rfl

theorem kept_raiseError (s : State) (outs : List EntryName) (c : Cause) (pos : Nat) :
    (s.raiseError outs c pos).kept = s.kept :=
  State.foldl_spoil_field s outs State.kept kept_spoil

theorem SameBut.kept (h : SameBut outs s u) : u.kept = s.kept := h.field State.kept kept_spoil

theorem kept_finish {r : Calc State} (hr : ∀ u, r = .ok u → u.kept = s.kept) (h : finish outs s r = .next t) :
    t.kept = s.kept := by
  rcases finish_eq_next.mp h with ⟨u, hu, rfl⟩ | ⟨c, pos, -, rfl⟩
  · exact hr u hu
  · exact kept_raiseError ..

/-- What an element of a walk may do: it has no meaning where no walk stands, moves the walk on, or ends it. -/
inductive ElementEnds (s : State) : Host.Outcome State Fault Refusal → Prop where
  | off : ElementEnds s (.refused .offPosition)
  | advance (sc : Scan) (r : Calc Scan) : ElementEnds s (advance sc s r)
  | conclude (sc : Scan) (r : Calc State) (h : ∀ u, r = .ok u → u.kept = s.kept) : ElementEnds s (conclude sc s r)

theorem ElementEnds.kept {o : Host.Outcome State Fault Refusal} (h : ElementEnds s o) (ho : o = .next t) :
    t.kept = s.kept := by
  cases h with
  | off => cases ho
  | advance sc r =>
    rcases advance_eq_next.mp ho with ⟨sc', -, rfl⟩ | ⟨c, pos, -, rfl⟩
    · rfl
    · exact kept_raiseError ..
  | conclude sc r hr => exact kept_finish (s := s.endScan) hr ho

theorem ElementEnds.atPlace {ps : List Position} {f : Scan → Host.Outcome State Fault Refusal}
    (h : ∀ sc, ElementEnds s (f sc)) : ElementEnds s (atPlace ps s f) := by
  unfold Machine.atPlace
  split
  · split
    · exact h _
    · exact .off
  · exact .off

theorem optElement_ends (d l : Nibble) : ElementEnds s (optElement d l s) := by
  refine .atPlace fun sc => ?_
  split
  · refine .conclude sc _ fun u hu => ?_
    obtain ⟨_, -, hu⟩ := Calc.bind_eq_ok.mp hu
    obtain ⟨_, -, hu⟩ := Calc.bind_eq_ok.mp hu
    obtain ⟨_, -, hu⟩ := Calc.bind_eq_ok.mp hu
    cases hu
    rfl
  · exact .advance ..

theorem nibbleElement_ends (n : Nibble) : ElementEnds s (nibbleElement n s) :=
  .atPlace fun sc => .conclude sc _ fun _ hu =>
    ((nibDecFrom_meets (s := s.endScan) (es := [.input]) List.mem_cons_self n).done _ hu).sameBut.kept

theorem wireHdrMid_ends (m : BitVec 16) : ElementEnds s (execWireHdrMid m s) := by
  refine .atPlace fun sc => ?_
  split
  · exact .conclude sc _ fun u hu => by cases hu; rfl
  all_goals exact .advance ..

theorem wireMarker_ends : ElementEnds s (execWireMarker s) := by
  refine .atPlace fun sc => .conclude sc _ fun u hu => ?_
  obtain ⟨_, -, hu⟩ := Calc.bind_eq_ok.mp hu
  obtain ⟨_, -, hu⟩ := Calc.bind_eq_ok.mp hu
  cases hu
  rfl

/-- Every row that does not stand in CMD is an element of a walk (30_encoding.md R83). -/
theorem exec_element {i : Instr} (hpos : i.position ≠ .cmd) (s : State) : ElementEnds s (exec i s) := by
  cases i
  case wireHdrByte0 | wireHdrTklRsvd9 | wireHdrTklRsvd1011 | wireHdrTklRsvd1215 =>
    exact .atPlace fun sc => .advance sc _
  case wireHdrCode => exact .atPlace fun sc => .advance sc _
  case wireHdrMid m => exact wireHdrMid_ends m
  case wireMarker => exact wireMarker_ends
  case wireOptDnib15 l => exact optElement_ends 15 l
  case wireOptLnib15 d => exact optElement_ends d 15
  case wireOpt d l => exact optElement_ends d l
  case nibbleDirect n => exact nibbleElement_ends n
  case nibbleExt1 => exact nibbleElement_ends 13
  case nibbleExt2 => exact nibbleElement_ends 14
  case nibbleRsvd => exact nibbleElement_ends 15
  all_goals exact absurd rfl hpos

end Kept

/-- Settles O45: a command writes outputs only, which these are not, and an element writes as its command does. -/
theorem inputsUntouched : Obligations.InputsUntouched := by
  unfold Obligations.InputsUntouched
  intro i s t h
  have hkept : t.kept = s.kept := by
    by_cases hpos : i.position = .cmd
    · obtain ⟨r, hexec, hr⟩ := exec_command hpos s
      exact kept_finish (fun u hu => (hr.done u hu).sameBut.kept) (hexec.symm.trans h)
    · exact (exec_element hpos s).kept h
  simpa only [State.kept, Prod.mk.injEq] using hkept

/-! ### A step of a walk -/

section Walk

variable {s : State} {sc : Scan} {inp : Bytes}

/-- A walk that moves on keeps the invariants of what it has read and of where it stands (10_state.md R43). -/
structure WalkOn (s : State) (sc : Scan) : Prop where
  wf : Memory.wf s = true → Memory.wf (s.withScan sc) = true
  legal : s.scanLegal → (s.withScan sc).scanLegal

/-- At the end of a walk or a command no walk is left, and what it has written fits. -/
structure WalkEnd (s u : State) : Prop where
  wf : capacityLegal s.cap = true → Memory.wf s = true → Memory.wf u = true
  scan : u.scan = none
  cap : u.cap = s.cap

/-- The entries that a walk reads: the inputs of the decode commands (30_encoding.md R89). -/
def walkInputs : List EntryName := [.arg, .input, .prev]

/-- What a step of a walk is: a walk stands at no place of a command word, moves on, or ends. -/
inductive WalkStep (s : State) (sc : Scan) : Host.Outcome State Fault Refusal → Prop where
  | off (h : sc.place = .cmd) : WalkStep s sc (.refused .offPosition)
  | advance (r : Calc Scan) (h : Meets s walkInputs (WalkOn s) r) : WalkStep s sc (advance sc s r)
  | conclude (r : Calc State) (h : Meets s walkInputs (WalkEnd s) r) : WalkStep s sc (conclude sc s r)

theorem get_input_meets : Meets s walkInputs (fun b => s.input = .holds b) (s.input.get .input) :=
  .get (by decide) rfl

theorem headerInput_meets : Meets s walkInputs (fun b => s.input = .holds b) s.headerInput :=
  .bind get_input_meets fun _ _ hin => .bind (.checkAt rfl) fun _ _ _ => .ok hin

/-- What a walk has read so far fits. -/
theorem Memory.wf_scan (hwf : Memory.wf s = true) (h : s.scan = some sc) :
    fitsBuf s.cap sc.token.length = true ∧ optsFit s.cap sc.opts = true :=
  (Memory.wf_iff.mp hwf).2 sc h

theorem Memory.wf_putHdrDec (hwf : Memory.wf s = true) (f : HdrFields) : Memory.wf (s.putHdrDec f) = true := hwf

theorem walkStep_hdr0 (h : s.scan = some sc) (hplace : sc.place = .hdr0) : WalkStep s sc (step s) := by
  rw [step_hdr0 h hplace]
  refine .advance _ (.bind headerInput_meets fun _ _ _ => .bind (.checkAt rfl) fun _ _ _ => .ok ⟨fun hwf => ?_, ?_⟩)
  · obtain ⟨ht, ho⟩ := Memory.wf_scan hwf h
    exact Memory.wf_setScan hwf ht ho
  · intro hlegal
    simp only [State.scanLegal, h, hplace] at hlegal
    exact ⟨hlegal.1, by simp [hlegal.2]⟩

theorem walkStep_hdrCode (h : s.scan = some sc) (hplace : sc.place = .hdrCode) : WalkStep s sc (step s) := by
  rw [step_hdrCode h hplace]
  refine .advance _ (.bind headerInput_meets fun _ _ _ => .ok ⟨fun hwf => ?_, ?_⟩)
  · obtain ⟨ht, ho⟩ := Memory.wf_scan hwf h
    exact Memory.wf_setScan hwf ht ho
  · intro hlegal
    simp only [State.scanLegal, h, hplace] at hlegal
    exact ⟨hlegal.1, by simp [hlegal.2]⟩

theorem walkStep_hdrMid (h : s.scan = some sc) (hplace : sc.place = .hdrMid) : WalkStep s sc (step s) := by
  by_cases hwalk : sc.walk = .hdrDec
  · rw [step_hdrMid_hdrDec h hplace hwalk]
    exact .conclude _ (.bind headerInput_meets fun _ _ _ =>
      .ok ⟨fun _ hwf => Memory.wf_putHdrDec (Memory.wf_endScan hwf) _, rfl, rfl⟩)
  · rw [step_hdrMid h hplace hwalk]
    refine .advance _ (.bind headerInput_meets fun inp _ hin => .bind (tokenAt4_stops ..) fun token htoken _ => ?_)
    obtain ⟨hlen, rfl⟩ := tokenAt4_ok.mp htoken
    refine .ok ⟨fun hwf => ?_, fun hlegal => ?_⟩
    · exact Memory.wf_setScan hwf (fitsBuf_memRead (Memory.wf_input hwf hin)) optsFit_nil
    · simp only [State.scanLegal, h, hplace] at hlegal
      exact ⟨hlegal.1.resolve_left hwalk, inp, hin, hlen⟩

theorem walkStep_seqStart (h : s.scan = some sc) (hplace : sc.place = .seqStart) : WalkStep s sc (step s) := by
  cases hin : s.input with
  | unwritten =>
    rw [step_seqStart_unwritten h hplace hin]
    exact .advance (.error _) (.unwritten (e := .input) (by decide) (Entry.toHost_eq_unwritten.mpr hin))
  | holds inp =>
  by_cases hpos : sc.pos < inp.length
  case neg =>
    rw [step_seqStart_end h hplace hin (Nat.not_lt.mp hpos)]
    refine .conclude _ (.ok ⟨fun _ hwf => ?_, rfl, rfl⟩)
    obtain ⟨ht, ho⟩ := Memory.wf_scan hwf h
    exact Memory.wf_putMessage (Memory.wf_endScan hwf) _ ht fitsBuf_zero ho
  by_cases hmark : byteAt inp sc.pos = 0xFF
  · rw [step_seqStart_marker h hplace hin hpos hmark]
    refine .conclude _ (.bind (payloadAfter_stops ..) fun payload hpay _ => .ok ⟨fun _ hwf => ?_, rfl, rfl⟩)
    obtain ⟨ht, ho⟩ := Memory.wf_scan hwf h
    have hinp : fitsBuf s.cap inp.length = true := Memory.wf_input hwf hin
    obtain ⟨-, rfl⟩ := payloadAfter_ok.mp hpay
    exact Memory.wf_putMessage (Memory.wf_endScan hwf) _ ht (fitsBuf_memRead hinp) ho
  · rw [step_seqStart_option h hplace hin hpos hmark]
    refine .advance _ (.bind (optDecodeAt_stops (fun _ => .inl hpos) _) fun r hopt _ =>
      .bind (pushOpt_stops ..) fun os hpush _ => ?_)
    obtain ⟨hroom, rfl⟩ := pushOpt_ok.mp hpush
    refine .ok ⟨fun hwf => ?_, fun hlegal => ?_⟩
    · obtain ⟨ht, ho⟩ := Memory.wf_scan hwf h
      exact Memory.wf_setScan hwf ht (optsFit_snoc ho hroom
        (fitsBuf_optFields (Memory.wf_input hwf hin) (optDecodeAt_ok.mp hopt).2))
    · simp only [State.scanLegal, h, hplace] at hlegal
      simp only [State.scanLegal, State.withScan_scan, hplace]
      exact ⟨hlegal.1, inp, hin, (optDecodeAt_count hopt).2⟩

theorem walkStep_optStart (h : s.scan = some sc) (hplace : sc.place = .optStart) : WalkStep s sc (step s) := by
  rw [step_optStart h hplace]
  refine .conclude _ (.bind (.get (by decide) rfl) fun _ _ _ => .bind get_input_meets fun inp _ hin =>
    .bind (optDecodeAt_stops (fun hlegal => .inr ?_) _) fun r hopt _ => .ok ⟨fun _ hwf => ?_, rfl, rfl⟩)
  · simp only [State.scanLegal, h, hplace] at hlegal
    exact hlegal.2
  · have hinp : fitsBuf s.cap inp.length = true := Memory.wf_input hwf hin
    exact Memory.wf_putOption (Memory.wf_endScan hwf) (fitsBuf_optFields hinp (optDecodeAt_ok.mp hopt).2)

theorem walkStep_nibble (h : s.scan = some sc) (hplace : sc.place = .nibble) : WalkStep s sc (step s) := by
  rw [step_nibble h hplace]
  refine .conclude _ (.bind (.get (by decide) rfl) fun a _ _ => .bind (.checkAt rfl) fun _ _ _ => ?_)
  have hnib := nibDecFrom_meets (s := s.endScan) (es := walkInputs) (by decide) (a.extractLsb' 0 4)
  refine ⟨fun u hu => ?_, fun c pos he _ => hnib.legal c pos he trivial, fun f hf => ?_⟩
  · have hu := hnib.done u hu
    have hframe : Frame [.res, .consumed] s.endScan u.succeed := .succeed hu.sameBut
    exact ⟨fun hcap hwf => hu.wf hcap (Memory.wf_endScan hwf), hframe.scan, hframe.cap⟩
  · obtain ⟨e, he, hf, hun⟩ := hnib.fault f hf
    exact ⟨e, he, hf, by rw [← hun]; cases e <;> rfl⟩

/-- Every step of a walk, place by place. -/
theorem walkStep (h : s.scan = some sc) : WalkStep s sc (step s) := by
  cases hplace : sc.place with
  | cmd =>
    rw [step_scan h, nextElement, hplace]
    simp only [endOfInput, hplace, reduceCtorEq, if_false]
    exact .off hplace
  | hdr0 => exact walkStep_hdr0 h hplace
  | hdrCode => exact walkStep_hdrCode h hplace
  | hdrMid => exact walkStep_hdrMid h hplace
  | seqStart => exact walkStep_seqStart h hplace
  | optStart => exact walkStep_optStart h hplace
  | nibble => exact walkStep_nibble h hplace

end Walk

/-! ### A host line -/

section HostLine

variable {s : State} {e : EntryName}

theorem hostRd_holds {v : HostValue} (hne : e ≠ .cmd) (h : s.entry e = .holds v) :
    hostRd e s = .next { s with reads := s.reads ++ [(e, v)] } := by
  rw [hostRd, if_neg hne, h]

theorem hostRd_unwritten (hne : e ≠ .cmd) (h : s.entry e = .unwritten) :
    hostRd e s = .fault (.unwrittenRead e) := by
  rw [hostRd, if_neg hne, h]

theorem hostWrStore_fits {b : StoreName} {v : Bytes} (h : fitsBuf s.cap v.length = true) :
    hostWrStore b v s = .next (s.setStore b v) := if_pos h

theorem hostWrStore_beyond {b : StoreName} {v : Bytes} (h : fitsBuf s.cap v.length = false) :
    hostWrStore b v s = .refused (.beyondCapacity b.entry) := if_neg (Bool.eq_false_iff.mp h)

theorem hostWrOpts_fits {l : List OptEntry} (h : optsFit s.cap l = true) :
    hostWrOpts l s = .next { s with opts := .holds l } := if_pos h

theorem hostWrOpts_beyond {l : List OptEntry} (h : optsFit s.cap l = false) :
    hostWrOpts l s = .refused (.beyondCapacity .opts) := if_neg (Bool.eq_false_iff.mp h)

/-- What a host line keeps: STATUS and ERR_POS are written by a reset only, the stores fit, and no walk begins. -/
structure HostKeeps (s t : State) : Prop where
  status : (t.status = s.status ∧ t.errPos = s.errPos) ∨ (t.status = 0 ∧ t.errPos = 0)
  wf : Memory.wf s = true → Memory.wf t = true
  scan : s.scan = none → t.scan = none
  cap : t.cap = s.cap

/-- How a host line ends (70_reset_and_hazards.md R243; 10_state.md R25, R26). -/
inductive HostEnds (s : State) : HostLine → Host.Outcome State Fault Refusal → Prop where
  | next {l : HostLine} {t : State} (h : HostKeeps s t) : HostEnds s l (.next t)
  | unwritten {e : EntryName} (h : s.entry e = .unwritten) : HostEnds s (.rd e) (.fault (.unwrittenRead e))
  | cmd : HostEnds s (.rd .cmd) (.refused .cmdRead)
  | store {b : StoreName} {v : Bytes} (h : fitsBuf s.cap v.length = false) :
      HostEnds s (.wrStore b v) (.refused (.beyondCapacity b.entry))
  | opts {os : List OptEntry} (h : optsFit s.cap os = false) :
      HostEnds s (.wrOpts os) (.refused (.beyondCapacity .opts))

theorem hostStep_ends (l : HostLine) (s : State) : HostEnds s l (hostStep l s) := by
  cases l with
  | wrReg r v =>
    exact .next ⟨.inl (by cases r <;> exact ⟨rfl, rfl⟩), fun hwf => Memory.wf_setReg hwf r v,
      fun hs => by cases r <;> exact hs, by cases r <;> rfl⟩
  | wrStore b v =>
    rw [hostStep]
    cases hfit : fitsBuf s.cap v.length with
    | false => exact hostWrStore_beyond hfit ▸ .store hfit
    | true =>
      rw [hostWrStore_fits hfit]
      exact .next ⟨.inl (by cases b <;> exact ⟨rfl, rfl⟩), fun hwf => Memory.wf_setStore hwf hfit b,
        fun hs => by cases b <;> exact hs, by cases b <;> rfl⟩
  | wrOpts os =>
    rw [hostStep]
    cases hfit : optsFit s.cap os with
    | false => exact hostWrOpts_beyond hfit ▸ .opts hfit
    | true => exact hostWrOpts_fits hfit ▸ .next ⟨.inl ⟨rfl, rfl⟩, fun hwf => Memory.wf_writeOpts hwf hfit, id, rfl⟩
  | wrRo e v => exact .next ⟨.inl ⟨rfl, rfl⟩, id, id, rfl⟩
  | wrCmd w => exact .next ⟨.inl ⟨rfl, rfl⟩, id, id, rfl⟩
  | rd e =>
    rw [hostStep]
    by_cases hcmd : e = .cmd
    · subst hcmd
      exact .cmd
    cases hentry : s.entry e with
    | unwritten => exact hostRd_unwritten hcmd hentry ▸ .unwritten hentry
    | holds v => exact hostRd_holds hcmd hentry ▸ .next ⟨.inl ⟨rfl, rfl⟩, id, id, rfl⟩
  | reset => exact .next ⟨.inr ⟨rfl, rfl⟩, fun _ => rfl, fun _ => rfl, rfl⟩

end HostLine

/-- Settles O53: line by line. -/
theorem hostAccess : Obligations.HostAccess := by
  unfold Obligations.HostAccess
  exact fun s => ⟨fun v => ⟨rfl, rfl, rfl, rfl, rfl, rfl, rfl, rfl, rfl⟩,
    fun v h => ⟨hostWrStore_fits h, hostWrStore_fits h, hostWrStore_fits h⟩, fun b v => hostWrStore_beyond,
    fun l => hostWrOpts_fits, fun l => hostWrOpts_beyond, fun _ _ => rfl, rfl, fun e v => hostRd_holds,
    fun e => hostRd_unwritten⟩

/-- Settles O54: the state a reset leaves has the entries of `State.reset`. -/
theorem hostResetStep : Obligations.HostReset := by
  unfold Obligations.HostReset
  exact fun s ls hscan hcmd hhost => ⟨_, step_host hscan hcmd hhost, rfl, rfl,
    fun _ => State.entry_reset_unwritten, rfl, rfl, rfl, rfl, rfl⟩

/-! ### A step -/

section Step

variable {s t : State}

theorem position_decodeOpc (o : BitVec 8) : (decodeOpc o).position = .cmd := by
  revert o; decide

/-- A command word decodes to a command or a reserved row (30_encoding.md R71-R73). -/
theorem position_decodeCmd (w : Word) : (decodeCmd w).position = .cmd := by
  by_cases h : w.extractLsb' 8 24 = 0
  · rw [decodeCmd_of_rsv_zero h, position_decodeOpc]
  · rw [decodeCmd_of_rsv_ne_zero h]
    rfl

/-- A command's word leaves CMD when the command runs, and nothing else changes (10_state.md R26). -/
def State.takeCmd (s : State) : State := { s with cmd := none }

/-- What a step is: of a walk, of the command in CMD, of the host's next line, or nothing (10_state.md R20, R21). -/
inductive StepKind (s : State) : Prop where
  | walk {sc : Scan} (hscan : s.scan = some sc) (h : WalkStep s sc (step s))
  | command {i : Instr} {r : Calc State} (hscan : s.scan = none)
      (hstep : step s = finish (commandOutputs i) s.takeCmd r)
      (hr : Meets s.takeCmd (commandInputs i) (Writes (commandOutputs i) s.takeCmd) r)
  | host {l : HostLine} {ls : List HostLine} (hscan : s.scan = none) (hcmd : s.cmd = none) (hhost : s.host = l :: ls)
      (h : HostEnds { s with host := ls } l (step s))
  | idle (hstep : step s = .next s)

theorem stepKind (s : State) : StepKind s := by
  cases hscan : s.scan with
  | some sc => exact .walk hscan (walkStep hscan)
  | none =>
  cases hcmd : s.cmd with
  | some w =>
    obtain ⟨r, hexec, hr⟩ := exec_command (position_decodeCmd w) s.takeCmd
    exact .command hscan ((step_cmd hscan hcmd).trans hexec) hr
  | none =>
  cases hhost : s.host with
  | nil => exact .idle (step_idle hscan hcmd hhost)
  | cons l ls => exact .host hscan hcmd hhost (step_host hscan hcmd hhost ▸ hostStep_ends l _)

/-- What a step that answers a next state has done: a walk moved on; a walk or a command completed or raised an error,
and no walk is left; a host line; or nothing. -/
inductive StepNext (s : State) : State → Prop where
  | moved {sc : Scan} (h : WalkOn s sc) : StepNext s (s.withScan sc)
  | completed {u : State} (h : WalkEnd s u) : StepNext s u.succeed
  | raised {u : State} (h : WalkEnd s u) (outs : List EntryName) {c : Cause} {pos : Nat}
      (hpos : s.scanLegal → c.posLegal pos) : StepNext s (u.raiseError outs c pos)
  | line {t : State} (hscan : s.scan = none) (h : HostKeeps s t) : StepNext s t
  | idle : StepNext s s

theorem walkEnd_endScan (s : State) : WalkEnd s s.endScan := ⟨fun _ hwf => Memory.wf_endScan hwf, rfl, rfl⟩

theorem walkEnd_takeCmd (hscan : s.scan = none) : WalkEnd s s.takeCmd := ⟨fun _ hwf => hwf, hscan, rfl⟩

theorem Writes.walkEnd {outs : List EntryName} {u : State} (hscan : s.scan = none) (h : Writes outs s.takeCmd u) :
    WalkEnd s u :=
  ⟨h.wf, (Frame.succeed h.sameBut).scan.trans hscan, (Frame.succeed h.sameBut).cap⟩

theorem stepNext (h : step s = .next t) : StepNext s t := by
  cases stepKind s with
  | walk hscan hw =>
    generalize step s = o at hw h
    cases hw with
    | off => cases h
    | advance r hr =>
      rcases advance_eq_next.mp h with ⟨sc', hsc', rfl⟩ | ⟨c, pos, he, rfl⟩
      · exact .moved (hr.done sc' hsc')
      · exact .raised (walkEnd_endScan s) _ (hr.legal c pos he)
    | conclude r hr =>
      rcases finish_eq_next.mp h with ⟨u, hu, rfl⟩ | ⟨c, pos, he, rfl⟩
      · exact .completed (hr.done u hu)
      · exact .raised (walkEnd_endScan s) _ (hr.legal c pos he)
  | command hscan hstep hr =>
    rcases finish_eq_next.mp (hstep.symm.trans h) with ⟨u, hu, rfl⟩ | ⟨c, pos, he, rfl⟩
    · exact .completed ((hr.done u hu).walkEnd hscan)
    · exact .raised (walkEnd_takeCmd hscan) _ (hr.legal c pos he)
  | host hscan _ _ hl =>
    rw [h] at hl
    cases hl with
    | next hkeeps => exact .line hscan ⟨hkeeps.status, hkeeps.wf, hkeeps.scan, hkeeps.cap⟩
  | idle hstep =>
    cases hstep.symm.trans h
    exact .idle

theorem scanLegal_of_none (h : t.scan = none) : t.scanLegal := by
  simp only [State.scanLegal, h]

end Step

/-- Settles O51: a walk that moves on stands legally, one that ends is gone, and no command and no line begins one. -/
theorem stepKeepsScan : Obligations.StepKeepsScan := by
  unfold Obligations.StepKeepsScan
  intro s t hlegal hnext
  cases stepNext hnext with
  | moved h => exact h.legal hlegal
  | completed h => exact scanLegal_of_none h.scan
  | raised h => exact scanLegal_of_none ((State.raiseError_scan ..).trans h.scan)
  | line hscan h => exact scanLegal_of_none (h.scan hscan)
  | idle => exact hlegal

/-- Settles O50: what a walk, a command and a host line write fits, and an error empties stores. -/
theorem stepKeepsMemory : Obligations.StepKeepsMemory := by
  unfold Obligations.StepKeepsMemory
  intro s t hcap hwf hnext
  have hkeep (hc : t.cap = s.cap) (hw : Memory.wf t = true) : capacityLegal t.cap = true ∧ Memory.wf t = true :=
    ⟨hc ▸ hcap, hw⟩
  cases stepNext hnext with
  | moved h => exact hkeep rfl (h.wf hwf)
  | completed h => exact hkeep h.cap (Memory.wf_succeed (h.wf hcap hwf))
  | raised h => exact hkeep ((State.raiseError_cap ..).trans h.cap) (Memory.wf_raiseError (h.wf hcap hwf) ..)
  | line _ h => exact hkeep h.cap (h.wf hwf)
  | idle => exact ⟨hcap, hwf⟩

/-- Settles O49: a success and an error at a legal position leave a legal STATUS, and of the rest a reset alone
writes it. -/
theorem stepKeepsStatus : Obligations.StepKeepsStatus := by
  unfold Obligations.StepKeepsStatus
  intro s t hstatus hlegal hnext
  cases stepNext hnext with
  | moved => exact hstatus
  | completed => exact State.statusLegal_succeed _
  | raised _ outs hpos => exact State.statusLegal_raiseError _ outs (hpos hlegal)
  | line _ h =>
    rcases h.status with ⟨hs, hp⟩ | ⟨hs, hp⟩
    · simpa only [State.statusLegal, hs, hp] using hstatus
    · exact .inl ⟨.inl hs, hp⟩
  | idle => exact hstatus

/-- Settles O52: reset has no walk and no store, and STATUS and ERR_POS are 0. -/
theorem resetInvariants : Obligations.ResetInvariants := by
  unfold Obligations.ResetInvariants
  exact ⟨.inl ⟨.inl rfl, rfl⟩, rfl, Memory.wf_reset, trivial⟩

/-- Settles O48: a legal walk stands at no place of a command word, and commands are never refused. -/
theorem stepRefusesOnlyHostAccess : Obligations.StepRefusesOnlyHostAccess := by
  unfold Obligations.StepRefusesOnlyHostAccess
  intro s r hlegal hrefused
  cases stepKind s with
  | walk hscan h =>
    generalize step s = o at h hrefused
    cases h with
    | off hplace => simp only [State.scanLegal, hscan, hplace] at hlegal
    | advance c _ => rcases c with (⟨c, pos⟩ | f) | sc' <;> cases hrefused
    | conclude c _ => exact absurd hrefused finish_ne_refused
  | command hscan hstep _ => exact absurd (hstep.symm.trans hrefused) finish_ne_refused
  | host hscan hcmd hhost h =>
    refine ⟨hscan, hcmd, _, _, hhost, ?_⟩
    rw [hrefused] at h
    cases h with
    | cmd => exact .inl ⟨rfl, rfl⟩
    | store hfit => exact .inr (.inl ⟨_, _, rfl, hfit, rfl⟩)
    | opts hfit => exact .inr (.inr ⟨_, rfl, hfit, rfl⟩)
  | idle hstep => exact absurd (hstep.symm.trans hrefused) nofun

end Sys2Proof.Machine
end

section
/-! Faults (10_state.md R25; 60_exceptions.md R200): a fault names an entry that is unwritten, and a command faults
on an unwritten input at the read that its pseudocode reaches. -/

namespace Sys2Proof.Machine

open Sys2Proof

/-- Where an entry of `es` is unwritten, the computation `r` faults on one of them. -/
def FaultsOn {α : Type} (s : State) (es : List EntryName) (r : Calc α) : Prop :=
  (∃ e ∈ es, s.entry e = .unwritten) → ∃ e ∈ es, s.entry e = .unwritten ∧ r = .error (.fault (.unwrittenInput e))

section Rules

variable {α β : Type} {s : State} {e : EntryName} {es es' : List EntryName}

/-- Nothing is asked of a computation once the entries are read. -/
theorem FaultsOn.nil {r : Calc α} : FaultsOn s [] r := fun ⟨_, he, _⟩ => absurd he List.not_mem_nil

/-- A read faults on its own entry, or the entry is written and the rest goes on. -/
theorem FaultsOn.get {x : Entry β} {g : β → HostValue} {f : β → Calc α} (hx : s.entry e = x.toHost g)
    (h : ∀ v, x = .holds v → FaultsOn s es (f v)) : FaultsOn s (e :: es) (x.get e >>= f) := by
  rintro ⟨a, ha, hun⟩
  cases hv : x with
  | unwritten => exact ⟨e, List.mem_cons_self, hx.trans (hv ▸ rfl), rfl⟩
  | holds v =>
    have hne : a ≠ e := by
      rintro rfl
      rw [hx, hv] at hun
      cases hun
    obtain ⟨b, hb, hbun, hfault⟩ := h v hv ⟨a, (List.mem_cons.mp ha).resolve_left hne, hun⟩
    exact ⟨b, List.mem_cons_of_mem e hb, hbun, hfault⟩

/-- A part that completes leaves it to the rest. -/
theorem FaultsOn.pass {x : Calc β} {b : β} {f : β → Calc α} (hx : x = .ok b) (h : FaultsOn s es (f b)) :
    FaultsOn s es (x >>= f) := by
  rwa [hx, Calc.ok_bind]

/-- The order in which the entries are read does not matter. -/
theorem FaultsOn.of_perm {r : Calc α} (hperm : es.Perm es') (h : FaultsOn s es r) : FaultsOn s es' r := by
  simpa only [FaultsOn, hperm.mem_iff] using h

/-- The command of such a computation faults. -/
theorem FaultsOn.exec {i : Instr} {outs : List EntryName} {r : Calc State} (h : FaultsOn s es r)
    (hexec : exec i s = finish outs s r) (hun : ∃ e ∈ es, s.entry e = .unwritten) :
    ∃ e ∈ es, s.entry e = .unwritten ∧ exec i s = .fault (.unwrittenInput e) := by
  obtain ⟨e, he, hentry, rfl⟩ := h hun
  exact ⟨e, he, hentry, hexec⟩

/-- A nibble with an extension reads IN (41_varint.md R105). -/
theorem nibDecFrom_faultsOn {n : Nibble} (hn : n ≠ 15) (hext : 12 < n.toNat) :
    FaultsOn s [.input] (nibDecFrom n s) := by
  refine .pass (need_of hn _ _) ?_
  rw [if_neg (extLen_ne_zero hext)]
  exact .get rfl fun _ _ => .nil

end Rules

/-- The five entries of the header are read at the call of `hdr_validate`, TOKEN first (log 8). -/
theorem headerEntries_perm :
    [EntryName.token, .ver, .typ, .code, .mid].Perm [.ver, .typ, .code, .mid, .token] := by
  decide

/-- The first read of a command that finds an unwritten entry faults. -/
theorem step_fault_unwritten {s : State} {f : Fault} (h : step s = .fault f) :
    ∃ e, (f = .unwrittenInput e ∨ f = .unwrittenRead e) ∧ s.entry e = .unwritten := by
  cases stepKind s with
  | walk hscan hw =>
    generalize step s = o at hw h
    cases hw with
    | off => cases h
    | advance r hr =>
      match r with
      | .error (.fault g) =>
        cases h
        obtain ⟨e, -, rfl, hun⟩ := hr.fault f rfl
        exact ⟨e, .inl rfl, hun⟩
    | conclude r hr =>
      obtain ⟨e, -, rfl, hun⟩ := hr.fault f (finish_eq_fault.mp h)
      exact ⟨e, .inl rfl, hun⟩
  | command hscan hstep hr =>
    obtain ⟨e, -, rfl, hun⟩ := hr.fault f (finish_eq_fault.mp (hstep.symm.trans h))
    exact ⟨e, .inl rfl, hun⟩
  | host hscan _ _ hl =>
    rw [h] at hl
    cases hl with
    | unwritten hun => exact ⟨_, .inr rfl, hun⟩
  | idle hstep => exact absurd (hstep.symm.trans h) nofun

/-- Settles O47: the faults of a step are those of its reads; command by command, the reads its pseudocode reaches. -/
theorem stepFaultsOnlyUnwritten : Obligations.StepFaultsOnlyUnwritten := by
  unfold Obligations.StepFaultsOnlyUnwritten
  refine ⟨fun s f => step_fault_unwritten, fun s => ?_⟩
  intro faults anyOf
  refine ⟨?_, ?_, ?_, ?_, ?_, ?_, ?_, ?_, ?_, ?_, ?_, ?_, ?_, ?_, ?_⟩
  · -- NIB_ENC
    exact FaultsOn.exec (.get rfl fun _ _ => .nil) rfl
  · -- NIB_DEC
    exact FaultsOn.exec (.get rfl fun _ _ => .nil) rfl
  · -- NIB_DEC of a nibble 13 or 14
    rintro a harg (rfl | rfl)
    all_goals exact FaultsOn.exec (.pass (Entry.get_eq_ok.mpr harg) (.pass (need_of (by decide) _ _)
      (nibDecFrom_faultsOn (by decide) (by decide)))) rfl
  · -- OPT_ENC
    exact FaultsOn.exec (.get rfl fun _ _ => .get rfl fun _ _ => .get rfl fun _ _ => .nil) rfl
  · -- OPT_DEC
    exact FaultsOn.exec (.of_perm (.swap _ _ _) (.get rfl fun _ _ => .get rfl fun _ _ => .nil)) rfl
  · -- HDR_ENC
    exact FaultsOn.exec (.of_perm headerEntries_perm (.get rfl fun _ _ => .get rfl fun _ _ => .get rfl fun _ _ =>
      .get rfl fun _ _ => .get rfl fun _ _ => .nil)) rfl
  · -- HDR_DEC
    exact FaultsOn.exec (.get rfl fun _ _ => .nil) rfl
  · -- MSG_ENC's header
    exact FaultsOn.exec (.of_perm headerEntries_perm (.get rfl fun _ _ => .get rfl fun _ _ => .get rfl fun _ _ =>
      .get rfl fun _ _ => .get rfl fun _ _ => .nil)) rfl
  · -- MSG_ENC past its header, then past its options
    intro ver typ code mid token hver htyp hcode hmid htoken hv ht hc hm hk
    have hvalid : hdrValidate ver typ code mid token.length = .ok () := hdrValidate_ok.mpr ⟨hv, ht, hc, hm, hk⟩
    have hexec := execMsgEnc_eq hver htyp hcode hmid htoken
    refine ⟨FaultsOn.exec (.pass hvalid (.get rfl fun _ _ => .nil)) hexec, fun opts hopts hvalidOpts => ?_⟩
    obtain ⟨body, hbody⟩ := seqEncode_sortOpts hvalidOpts
    exact FaultsOn.exec (.pass hvalid (.pass (Entry.get_eq_ok.mpr hopts) (.pass hvalidOpts (.pass hbody
      (.get rfl fun _ _ => .nil))))) hexec
  · -- MSG_DEC
    exact FaultsOn.exec (.get rfl fun _ _ => .nil) rfl
  · -- CODE_SPLIT
    exact FaultsOn.exec (.get rfl fun _ _ => .nil) rfl
  · -- CODE_SET_CLASS
    exact FaultsOn.exec (.get rfl fun _ _ => .nil) rfl
  · -- CODE_SET_CLASS, CLASS being in range
    exact fun k hcls hk => FaultsOn.exec (.pass (Entry.get_eq_ok.mpr hcls) (.pass (need_of hk _ _)
      (.get rfl fun _ _ => .nil))) rfl
  · -- CODE_SET_DETAIL
    exact FaultsOn.exec (.get rfl fun _ _ => .nil) rfl
  · -- CODE_SET_DETAIL, DETAIL being in range
    exact fun d hdetail hd => FaultsOn.exec (.pass (Entry.get_eq_ok.mpr hdetail) (.pass (need_of hd _ _)
      (.get rfl fun _ _ => .nil))) rfl

end Sys2Proof.Machine
end
